-- ==== Sys2Proof/Word.lean ====
section
/-! DEFINITION. The word types of the machine: instruction words, register values, bytes and register
numbers (spec/10_state.md R40, R42; spec/30_encoding.md R90, R95). -/

namespace Sys2Proof

/-- One byte of instruction memory (spec/20_memory.md R70). -/
abbrev Byte := BitVec 8

/-- One 32-bit instruction word (spec/30_encoding.md R90). -/
abbrev Word := BitVec 32

/-- One 64-bit register value or address (spec/10_state.md R40, R42, R44). -/
abbrev Dword := BitVec 64

/-- The number of a general-purpose register, 0 to 31 (spec/10_state.md R40). -/
abbrev GprNum := Fin 32

/-- The number of a floating-point register, 0 to 31 (spec/10_state.md R42). -/
abbrev FprNum := Fin 32

end Sys2Proof
end

