-- ==== Sys2Proof/Config.lean ====
section
/-! DEFINITION. The parameters of the model (spec/00_scope.md R6, spec/92_eei_decisions.md "Open
parameters, collected"), the values they have in `State.reset`, and the free values (R13). -/

namespace Sys2Proof

/-- The open opcode numbers of the seven base instructions (spec/00_scope.md R6,
spec/30_encoding.md R100). -/
structure Opcodes where
  poMffpr : BitVec 6
  poMffprs : BitVec 6
  poMtfpr : BitVec 6
  poMtfprs : BitVec 6
  poCtfpr : BitVec 6
  poCtfprs : BitVec 6
  poCffpr : BitVec 6
  xoMffpr : BitVec 10
  xoMffprs : BitVec 10
  xoMtfpr : BitVec 10
  xoMtfprs : BitVec 10
  xoCtfpr : BitVec 10
  xoCtfprs : BitVec 10
  xoCffpr : BitVec 9
  deriving DecidableEq, Repr

/-- `RESERVED_POLICY`: what decode does with a `//` field that is not zero (spec/30_encoding.md R96). -/
inductive ReservedPolicy where
  | ignore
  | mustBeZero
  deriving DecidableEq, Repr

/-- `INSN_BYTE_ORDER`: how four bytes of instruction memory form a word (spec/20_memory.md R71). -/
inductive ByteOrder where
  | be
  | le
  deriving DecidableEq, Repr

/-- `FE_MODE`: whether an enabled floating-point exception stops the program
(spec/60_exceptions.md R194). -/
inductive FeMode where
  | ignored
  | trap
  deriving DecidableEq, Repr

/-- The parameters of one run (spec/00_scope.md R6). No instruction changes one of them. -/
structure Params where
  opcodes : Opcodes
  reservedPolicy : ReservedPolicy
  insnByteOrder : ByteOrder
  resetPc : Dword
  fpAvailable : Bool
  feMode : FeMode
  deriving DecidableEq, Repr

/-- The test assignment T of spec/95_test_vectors.md. DESIGN CHOICE, unsafe (log entry 2): the opcode
numbers are open (spec/92_eei_decisions.md D2); only `State.reset`, `decodeTableWord` and the tests
use these. -/
def Config.assignmentT : Opcodes where
  poMffpr := 1
  poMffprs := 1
  poMtfpr := 1
  poMtfprs := 1
  poCtfpr := 1
  poCtfprs := 1
  poCffpr := 1
  xoMffpr := 1
  xoMffprs := 2
  xoMtfpr := 3
  xoMtfprs := 4
  xoCtfpr := 5
  xoCtfprs := 6
  xoCffpr := 7

/-- The parameters `State.reset` starts with: the spec's defaults for `RESERVED_POLICY` and
`FP_AVAILABLE` (spec/00_scope.md R6), and for the OPEN ones the values under which
spec/95_test_vectors.md states its vectors and programs. DESIGN CHOICE, unsafe (log entries 2 to 7):
statements quantify over `State.params` instead of resting on these. -/
def Config.params : Params where
  opcodes := Config.assignmentT
  reservedPolicy := .ignore
  insnByteOrder := .be
  resetPc := 0x1000
  fpAvailable := true
  feMode := .ignored

/-- `draw(N)` (spec/00_scope.md R13): an arbitrary `width`-bit value for each use, here for each
value of the counter `State.draws`. It has no body, so no proof can see a value (log entry 11). -/
opaque Config.draw (width count : Nat) : BitVec width

/-- The `FPRF` code of a signalling NaN, for which the table of spec/00_scope.md R24 has no row. No
instruction reaches it (log entry 18). -/
opaque Config.fprfOfSignallingNaN : BitVec 5

end Sys2Proof
end

