-- ==== Sys2Proof/Syntax.lean ====
section
/-! DEFINITION. The instructions: one constructor for each row of spec/opcode_table.json, operands in
the assembler's order (spec/30_encoding.md R104). A mnemonic's `.` is `Dot` in its constructor. -/

namespace Sys2Proof

/-- `IT`, the Integer Type operand (spec/30_encoding.md R97): `w`, `uw`, `d`, `ud`. -/
inductive IntType where
  /-- `IT` = 0, Signed 32-bit -/
  | w
  /-- `IT` = 1, Unsigned 32-bit -/
  | uw
  /-- `IT` = 2, Signed 64-bit -/
  | d
  /-- `IT` = 3, Unsigned 64-bit -/
  | ud
  deriving DecidableEq, Repr

/-- `CVM`, the Float to Integer Conversion Mode operand, 0 to 7 as an encoding and 0 to 5 as a legal
instruction (spec/30_encoding.md R98, R104). -/
abbrev Cvm := BitVec 3

/-- One instruction (spec/30_encoding.md R104). -/
inductive Instr where
  /-- `mffpr RT, FRB` (R122) -/
  | mffpr (rt : GprNum) (frb : FprNum)
  /-- `mffpr. RT, FRB` (R123) -/
  | mffprDot (rt : GprNum) (frb : FprNum)
  /-- `mffprs RT, FRB` (R124) -/
  | mffprs (rt : GprNum) (frb : FprNum)
  /-- `mffprs. RT, FRB` (R125) -/
  | mffprsDot (rt : GprNum) (frb : FprNum)
  /-- `mtfpr FRT, RB` (R126) -/
  | mtfpr (frt : FprNum) (rb : GprNum)
  /-- `mtfprs FRT, RB` (R127) -/
  | mtfprs (frt : FprNum) (rb : GprNum)
  /-- `ctfpr FRT, RB, IT` (R141) -/
  | ctfpr (frt : FprNum) (rb : GprNum) (it : IntType)
  /-- `ctfpr. FRT, RB, IT` (R142) -/
  | ctfprDot (frt : FprNum) (rb : GprNum) (it : IntType)
  /-- `ctfprs FRT, RB, IT` (R143) -/
  | ctfprs (frt : FprNum) (rb : GprNum) (it : IntType)
  /-- `ctfprs. FRT, RB, IT` (R144) -/
  | ctfprsDot (frt : FprNum) (rb : GprNum) (it : IntType)
  /-- `cffpr RT, FRB, CVM, IT` (R173) -/
  | cffpr (rt : GprNum) (frb : FprNum) (cvm : Cvm) (it : IntType)
  /-- `cffpr. RT, FRB, CVM, IT` (R174) -/
  | cffprDot (rt : GprNum) (frb : FprNum) (cvm : Cvm) (it : IntType)
  /-- `cffpro RT, FRB, CVM, IT` (R175) -/
  | cffpro (rt : GprNum) (frb : FprNum) (cvm : Cvm) (it : IntType)
  /-- `cffpro. RT, FRB, CVM, IT` (R176) -/
  | cffproDot (rt : GprNum) (frb : FprNum) (cvm : Cvm) (it : IntType)
  deriving DecidableEq, Repr

end Sys2Proof
end

