-- ==== Sys2Proof/WellFormed.lean ====
section
/-! DEFINITION. Which instructions are legal. Every register number and every `IT` is legal; only
`CVM` = 6 and `CVM` = 7 are not (spec/30_encoding.md R102 (a), (d)). -/

namespace Sys2Proof

/-- `CVM` is 0 to 5 (spec/30_encoding.md R98, R102 (a)). -/
def Cvm.legal (cvm : Cvm) : Bool := cvm.toNat ≤ 5

/-- The checks on an instruction's operands. -/
def Instr.wf : Instr → Bool
  | .mffpr _ _ => true
  | .mffprDot _ _ => true
  | .mffprs _ _ => true
  | .mffprsDot _ _ => true
  | .mtfpr _ _ => true
  | .mtfprs _ _ => true
  | .ctfpr _ _ _ => true
  | .ctfprDot _ _ _ => true
  | .ctfprs _ _ _ => true
  | .ctfprsDot _ _ _ => true
  | .cffpr _ _ cvm _ => Cvm.legal cvm
  | .cffprDot _ _ cvm _ => Cvm.legal cvm
  | .cffpro _ _ cvm _ => Cvm.legal cvm
  | .cffproDot _ _ cvm _ => Cvm.legal cvm

/-- The instruction is a legal one. -/
abbrev Instr.WellFormed (i : Instr) : Prop := i.wf = true

end Sys2Proof
end

