-- ==== Sys2Proof/Decode.lean ====
section
/-! DEFINITION. Instruction words to instructions (total, rejecting by name) and back
(spec/30_encoding.md R91 to R102, R109; spec/20_memory.md R71 for the byte order of a word). -/

namespace Sys2Proof

/-! ### Bits, most significant first (spec/00_scope.md R7) -/

/-- The `width` bits of `v` that start at MSB0 bit `start`: `v[start : start + width - 1]` of
spec/00_scope.md R7. -/
def fieldAt {n : Nat} (v : BitVec n) (start width : Nat) : BitVec width :=
  v.extractLsb' (n - start - width) width

/-! ### Keys (R101) and reserved fields (R96, R100) -/

/-- The seven base instructions (spec/30_encoding.md R101). -/
inductive Base where
  | mffpr
  | mffprs
  | mtfpr
  | mtfprs
  | ctfpr
  | ctfprs
  | cffpr
  deriving DecidableEq, Repr

/-- A decode key: the pair (`w[0:5]`, `w[21:30]`) (spec/30_encoding.md R101). -/
abbrev Key := BitVec 6 × BitVec 10

/-- The key of a word (spec/30_encoding.md R101). -/
def keyOf (w : Word) : Key := (fieldAt w 0 6, fieldAt w 21 10)

/-- The eight keys of the base instructions; `cffpr` has two, because its `OE` bit is the top bit of
the X-Form `XO` (spec/30_encoding.md R101). -/
def Opcodes.table (o : Opcodes) : List (Key × Base) :=
  [ ((o.poMffpr, o.xoMffpr), .mffpr),
    ((o.poMffprs, o.xoMffprs), .mffprs),
    ((o.poMtfpr, o.xoMtfpr), .mtfpr),
    ((o.poMtfprs, o.xoMtfprs), .mtfprs),
    ((o.poCtfpr, o.xoCtfpr), .ctfpr),
    ((o.poCtfprs, o.xoCtfprs), .ctfprs),
    ((o.poCffpr, 0#1 ++ o.xoCffpr), .cffpr),
    ((o.poCffpr, 1#1 ++ o.xoCffpr), .cffpr) ]

/-- The eight keys are pairwise distinct: the only constraint on the opcode parameters, a premise on
the configuration (spec/30_encoding.md R101). -/
abbrev Opcodes.Distinct (o : Opcodes) : Prop := (o.table.map Prod.fst).Nodup

/-- The base instruction one of whose keys is `k`. -/
def Opcodes.baseOf (o : Opcodes) (k : Key) : Option Base := o.table.lookup k

/-- The `//` bits of a format, as a mask on the word (spec/30_encoding.md R96, R100). -/
def Base.reservedMask : Base → Word
  | .mffpr => 0x001F0000
  | .mffprs => 0x001F0000
  | .mtfpr => 0x001F0001
  | .mtfprs => 0x001F0001
  | .ctfpr => 0x00070000
  | .ctfprs => 0x00070000
  | .cffpr => 0x00000000

/-! ### Operand fields (R91 to R95, R97) -/

/-- `IT` from its two bits (spec/30_encoding.md R97). -/
def IntType.ofBits (b : BitVec 2) : IntType :=
  if b = 0 then .w else if b = 1 then .uw else if b = 2 then .d else .ud

/-- The two bits of `IT` (spec/30_encoding.md R97). -/
def IntType.toBits : IntType → BitVec 2
  | .w => 0
  | .uw => 1
  | .d => 2
  | .ud => 3

/-- A register number: the five bits of the word that start at MSB0 bit `start` (spec/30_encoding.md R95). -/
def regAt (w : Word) (start : Nat) : Fin 32 := (fieldAt w start 5).toFin

/-- The field of a register number (spec/30_encoding.md R95). -/
def regBits (r : Fin 32) : BitVec 5 := BitVec.ofFin r

/-! ### Decoding -/

/-- Why bits are no instruction of the spec. -/
inductive DecodeReject where
  /-- Fewer than four bytes are given, so there is no word. -/
  | truncated
  /-- The word's key is none of the eight (spec/30_encoding.md R102 (c)). -/
  | outOfScope (w : Word)
  /-- `CVM` is 6 or 7, or a reserved field is not zero under `must_be_zero`
  (spec/30_encoding.md R102 (a), (b)). -/
  | illegal (w : Word)
  deriving DecidableEq, Repr

/-- Reads the fields of a word whose key belongs to `b` (spec/30_encoding.md R91 to R94), and checks
`CVM` (R102 (a)). -/
def readFields (b : Base) (w : Word) : Except DecodeReject Instr :=
  let target := regAt w 6
  let source := regAt w 16
  let it := IntType.ofBits (fieldAt w 11 2)
  let cvm : Cvm := fieldAt w 13 3
  let oe := w.getMsbD 21
  let rc := w.getMsbD 31
  match b with
  | .mffpr => .ok (if rc then .mffprDot target source else .mffpr target source)
  | .mffprs => .ok (if rc then .mffprsDot target source else .mffprs target source)
  | .mtfpr => .ok (.mtfpr target source)
  | .mtfprs => .ok (.mtfprs target source)
  | .ctfpr => .ok (if rc then .ctfprDot target source it else .ctfpr target source it)
  | .ctfprs => .ok (if rc then .ctfprsDot target source it else .ctfprs target source it)
  | .cffpr =>
    if Cvm.legal cvm then
      .ok (match oe, rc with
        | false, false => .cffpr target source cvm it
        | false, true => .cffprDot target source cvm it
        | true, false => .cffpro target source cvm it
        | true, true => .cffproDot target source cvm it)
    else .error (.illegal w)

/-- Decodes one word (spec/30_encoding.md R101, R102): the key, then the reserved fields, then the
operands. -/
def decodeWord (o : Opcodes) (policy : ReservedPolicy) (w : Word) : Except DecodeReject Instr :=
  match o.baseOf (keyOf w) with
  | none => .error (.outOfScope w)
  | some b =>
    if policy = .mustBeZero ∧ w &&& b.reservedMask ≠ 0 then .error (.illegal w)
    else readFields b w

/-- The word that four bytes at rising addresses form (spec/20_memory.md R71). -/
def wordOfBytes (order : ByteOrder) (b0 b1 b2 b3 : Byte) : Word :=
  match order with
  | .be => b0 ++ b1 ++ b2 ++ b3
  | .le => b3 ++ b2 ++ b1 ++ b0

/-- Byte `k` (0 to 3) of a word as instruction memory holds it at rising addresses
(spec/20_memory.md R71). -/
def byteOfWord (order : ByteOrder) (w : Word) (k : Fin 4) : Byte :=
  match order with
  | .be => fieldAt w (8 * k.val) 8
  | .le => fieldAt w (24 - 8 * k.val) 8

/-- Decodes the instruction at the front of a list of bytes; the rest of the list is returned. An
instruction is always four bytes (spec/30_encoding.md R90). -/
def decodeBytes (o : Opcodes) (policy : ReservedPolicy) (order : ByteOrder) :
    List Byte → Except DecodeReject (Instr × List Byte)
  | b0 :: b1 :: b2 :: b3 :: rest =>
    match decodeWord o policy (wordOfBytes order b0 b1 b2 b3) with
    | .ok i => .ok (i, rest)
    | .error e => .error e
  | _ => .error .truncated

/-! ### Encoding (R109) -/

/-- The X-Form word: `PO`, target, bits 11:15, source, `XO`, bit 31 (spec/30_encoding.md R91 to R93). -/
def xForm (po : BitVec 6) (target : Fin 32) (middle : BitVec 5) (source : Fin 32) (xo : BitVec 10)
    (last : BitVec 1) : Word :=
  po ++ regBits target ++ middle ++ regBits source ++ xo ++ last

/-- The word of `cffpr[o][.]` (spec/30_encoding.md R94, R109). -/
def cffprForm (o : Opcodes) (oe rc : Bool) (rt : GprNum) (frb : FprNum) (cvm : Cvm) (it : IntType) :
    Word :=
  xForm o.poCffpr rt (it.toBits ++ cvm) frb (BitVec.ofBool oe ++ o.xoCffpr) (BitVec.ofBool rc)

/-- The word of an instruction, reserved bits zero (spec/30_encoding.md R109). -/
def encode (o : Opcodes) : Instr → Word
  | .mffpr rt frb => xForm o.poMffpr rt 0 frb o.xoMffpr 0
  | .mffprDot rt frb => xForm o.poMffpr rt 0 frb o.xoMffpr 1
  | .mffprs rt frb => xForm o.poMffprs rt 0 frb o.xoMffprs 0
  | .mffprsDot rt frb => xForm o.poMffprs rt 0 frb o.xoMffprs 1
  | .mtfpr frt rb => xForm o.poMtfpr frt 0 rb o.xoMtfpr 0
  | .mtfprs frt rb => xForm o.poMtfprs frt 0 rb o.xoMtfprs 0
  | .ctfpr frt rb it => xForm o.poCtfpr frt (it.toBits ++ 0#3) rb o.xoCtfpr 0
  | .ctfprDot frt rb it => xForm o.poCtfpr frt (it.toBits ++ 0#3) rb o.xoCtfpr 1
  | .ctfprs frt rb it => xForm o.poCtfprs frt (it.toBits ++ 0#3) rb o.xoCtfprs 0
  | .ctfprsDot frt rb it => xForm o.poCtfprs frt (it.toBits ++ 0#3) rb o.xoCtfprs 1
  | .cffpr rt frb cvm it => cffprForm o false false rt frb cvm it
  | .cffprDot rt frb cvm it => cffprForm o false true rt frb cvm it
  | .cffpro rt frb cvm it => cffprForm o true false rt frb cvm it
  | .cffproDot rt frb cvm it => cffprForm o true true rt frb cvm it

/-- The base instruction of an instruction. -/
def Instr.base : Instr → Base
  | .mffpr _ _ => .mffpr
  | .mffprDot _ _ => .mffpr
  | .mffprs _ _ => .mffprs
  | .mffprsDot _ _ => .mffprs
  | .mtfpr _ _ => .mtfpr
  | .mtfprs _ _ => .mtfprs
  | .ctfpr _ _ _ => .ctfpr
  | .ctfprDot _ _ _ => .ctfpr
  | .ctfprs _ _ _ => .ctfprs
  | .ctfprsDot _ _ _ => .ctfprs
  | .cffpr _ _ _ _ => .cffpr
  | .cffprDot _ _ _ _ => .cffpr
  | .cffpro _ _ _ _ => .cffpr
  | .cffproDot _ _ _ _ => .cffpr

/-- The instruction the decoder reads from a row's word under the parameters of `State.reset`
(log entry 2: assignment T); `nbits` of the word are given, the bits above are 0. -/
def decodeTableWord (nbits w : Nat) : Option Instr :=
  let word : Word := BitVec.ofNat 32 (w % 2 ^ nbits)
  let order := Config.params.insnByteOrder
  match decodeBytes Config.params.opcodes Config.params.reservedPolicy order
      [byteOfWord order word 0, byteOfWord order word 1, byteOfWord order word 2,
        byteOfWord order word 3] with
  | .ok (i, _) => some i
  | .error _ => none

end Sys2Proof
end

