-- ==== Sys2Proof/Machine/State.lean ====
section
/-! DEFINITION. The state of the machine (spec/10_state.md, spec/20_memory.md R70), its start value
(spec/10_state.md R56, spec/70_reset_and_hazards.md R220), and the reasons a step stops
(spec/60_exceptions.md R190). Registers made of fields are held field by field, reserved bits
included, because `FPSCR.FPRF` and `CR0` can receive free values; Machine/Layout.lean gives the words
with their bit positions (log entry 20). -/

namespace Sys2Proof.Machine

/-- The condition register: eight 4-bit fields (spec/10_state.md R45). The bits of `CR0` are `LT`, `GT`,
`EQ`, `SO` and those of `CR1` copies of `FX`, `FEX`, `VX`, `OX`, most significant first. -/
structure CR where
  cr0 : BitVec 4
  cr1 : BitVec 4
  cr2 : BitVec 4
  cr3 : BitVec 4
  cr4 : BitVec 4
  cr5 : BitVec 4
  cr6 : BitVec 4
  cr7 : BitVec 4
  deriving DecidableEq, Repr

/-- The fixed-point exception register, all 64 bits (spec/10_state.md R47). The fields named `other…` are
the bits the spec gives no name; no instruction reads or writes them, `ca`, `ca32` or `byteCount`. -/
structure XER where
  other0to31 : BitVec 32
  so : Bool
  ov : Bool
  ca : Bool
  other35to43 : BitVec 9
  ov32 : Bool
  ca32 : Bool
  other46to56 : BitVec 11
  byteCount : BitVec 7
  deriving DecidableEq, Repr

/-- The floating-point status and control register (spec/10_state.md R49), every stored bit. `FEX` (33)
and `VX` (34) are functions of the others, not storage (R52): `FPSCR.fex` and `FPSCR.vx`. -/
structure FPSCR where
  reserved0to28 : BitVec 29
  drn : BitVec 3
  fx : Bool
  ox : Bool
  ux : Bool
  zx : Bool
  xx : Bool
  vxsnan : Bool
  vxisi : Bool
  vxidi : Bool
  vxzdz : Bool
  vximz : Bool
  vxvc : Bool
  fr : Bool
  fi : Bool
  fprf : BitVec 5
  reserved52 : Bool
  vxsoft : Bool
  vxsqrt : Bool
  vxcvi : Bool
  ve : Bool
  oe : Bool
  ue : Bool
  ze : Bool
  xe : Bool
  ni : Bool
  rn : BitVec 2
  deriving DecidableEq, Repr

/-- The machine. The last two fields are the model's own: the parameters of the run, which no step
changes (log entry 1), and how many free values were drawn (log entry 11). -/
structure State where
  /-- `GPR[0]` to `GPR[31]` (spec/10_state.md R40) -/
  gpr : Vector Dword 32
  /-- `FPR[0]` to `FPR[31]` (spec/10_state.md R42) -/
  fpr : Vector Dword 32
  /-- the current instruction address (spec/10_state.md R44) -/
  cia : Dword
  /-- spec/10_state.md R45 -/
  cr : CR
  /-- spec/10_state.md R47 -/
  xer : XER
  /-- spec/10_state.md R49 -/
  fpscr : FPSCR
  /-- instruction memory, (address, byte) by rising address (spec/20_memory.md R70) -/
  imem : List Host.Cell
  /-- the parameters of the run (spec/00_scope.md R6) -/
  params : Params
  /-- how many free values were drawn so far (spec/00_scope.md R13) -/
  draws : Nat
  deriving DecidableEq, Repr

/-- Why the machine stops. Every one ends the run (spec/60_exceptions.md R190, R199): there is no handler
and no next state. But for `fpEnabledException` the state at the stop is the state before the step. -/
inductive Fault where
  /-- Raised by `step` when `CIA` is not a multiple of 4 (spec/60_exceptions.md R197). Safe: the machine
  stops where a processor would go on. -/
  | fetchFault (cia : Dword)
  /-- Raised by `step` when a byte of the word at `CIA` is not in instruction memory: the spec's third
  outcome `stop`, by which a run ends (spec/20_memory.md R72; log entry 13). Safe: the machine stops
  where a processor would fetch whatever follows. -/
  | stop (cia : Dword)
  /-- Raised by `step` when the word's key is none of the eight (spec/60_exceptions.md R192). Safe: the word
  may be a valid instruction of the base ISA. -/
  | outOfScopeInstruction (w : Word)
  /-- Raised by `step` (decode) and by the `cffpr` meanings for `CVM` 6 or 7, and by decode for a reserved
  field that is not zero under `must_be_zero` (spec/60_exceptions.md R191). Safe: the machine stops
  where a processor would take an interrupt. -/
  | illegalInstruction (w : Word)
  /-- Raised by every meaning when `FP_AVAILABLE` is false (spec/60_exceptions.md R193). Safe: the machine
  stops where a processor would take an interrupt. -/
  | fpUnavailable (cia : Dword)
  /-- Raised by the conversions when `fp_enabled` = 1 and `FE_MODE` = `trap`
  (spec/60_exceptions.md R194). `after` is the state at the fault: every update of the instruction
  made, `CIA` not advanced (R199; log entry 14). Safe: the machine stops where a processor would take
  an interrupt. -/
  | fpEnabledException (cia : Dword) (after : State)
  deriving DecidableEq, Repr

/-- Why a step has no meaning. -/
inductive Refusal where
  /-- An instruction of the opcode table that the model gives no meaning. Raised by `exec`'s arms alone;
  no arm raises it now. Safe: nothing is claimed about the instruction. -/
  | notModelled (mnemonic : String)
  deriving DecidableEq, Repr

/-- What one step answers. -/
abbrev Outcome := Host.Outcome State Fault Refusal

/-- The state after reset under the parameters `p` (spec/10_state.md R56): `CIA` is `RESET_PC`. Every
other register is unspecified there; the value 0 is a DESIGN CHOICE, unsafe (log entries 8 to 10), as
is the start of the draw counter (entry 11). No program is loaded (entry 12). -/
def State.resetWith (p : Params) : State where
  gpr := Vector.replicate 32 0
  fpr := Vector.replicate 32 0
  cia := p.resetPc
  cr := ⟨0, 0, 0, 0, 0, 0, 0, 0⟩
  xer := ⟨0, false, false, false, 0, false, false, 0, 0⟩
  fpscr := ⟨0, 0, false, false, false, false, false, false, false, false, false, false, false, false,
    false, 0, false, false, false, false, false, false, false, false, false, false, 0⟩
  imem := []
  params := p
  draws := 0

/-- The state after reset under the parameters of Config.lean. -/
def State.reset : State := State.resetWith Config.params

end Sys2Proof.Machine
end

