-- ==== Sys2Proof/Machine/Flags.lean ====
section
/-! DEFINITION. Every flag computation: the summary bits of `FPSCR` and `SetFX`, `CR0`, `CR1`, and the
overflow bits of `XER` (spec/10_state.md R46, R48, R50, R52, R53; spec/00_scope.md R28). -/

namespace Sys2Proof.Machine

/-! ### `FPSCR` -/

/-- The exception bits of `FPSCR`: its sticky status bits but `FX` (spec/10_state.md R49). -/
inductive FpException where
  | ox
  | ux
  | zx
  | xx
  | vxsnan
  | vxisi
  | vxidi
  | vxzdz
  | vximz
  | vxvc
  | vxsoft
  | vxsqrt
  | vxcvi
  deriving DecidableEq, Repr

/-- An exception bit of `FPSCR`. -/
def FPSCR.exception (f : FPSCR) : FpException → Bool
  | .ox => f.ox
  | .ux => f.ux
  | .zx => f.zx
  | .xx => f.xx
  | .vxsnan => f.vxsnan
  | .vxisi => f.vxisi
  | .vxidi => f.vxidi
  | .vxzdz => f.vxzdz
  | .vximz => f.vximz
  | .vxvc => f.vxvc
  | .vxsoft => f.vxsoft
  | .vxsqrt => f.vxsqrt
  | .vxcvi => f.vxcvi

/-- `FPSCR` with an exception bit set to 1. -/
def FPSCR.raiseException (f : FPSCR) : FpException → FPSCR
  | .ox => { f with ox := true }
  | .ux => { f with ux := true }
  | .zx => { f with zx := true }
  | .xx => { f with xx := true }
  | .vxsnan => { f with vxsnan := true }
  | .vxisi => { f with vxisi := true }
  | .vxidi => { f with vxidi := true }
  | .vxzdz => { f with vxzdz := true }
  | .vximz => { f with vximz := true }
  | .vxvc => { f with vxvc := true }
  | .vxsoft => { f with vxsoft := true }
  | .vxsqrt => { f with vxsqrt := true }
  | .vxcvi => { f with vxcvi := true }

/-- `SetFX(FPSCR.b)`: `FX` records a 0 to 1 transition of `b` (spec/00_scope.md R28). -/
def FPSCR.setFX (f : FPSCR) (b : FpException) : FPSCR :=
  FPSCR.raiseException { f with fx := f.fx || !f.exception b } b

/-- `if flag = 1 then SetFX(FPSCR.b)` of the pseudocode (spec/41_convert_to_fpr.md R141,
spec/42_convert_from_fpr.md R162). -/
def FPSCR.setFXIf (f : FPSCR) (flag : Bool) (b : FpException) : FPSCR :=
  if flag then f.setFX b else f

/-- `FPSCR.VX`, the summary of the invalid operation exceptions (spec/10_state.md R52). -/
def FPSCR.vx (f : FPSCR) : Bool :=
  f.vxsnan || f.vxisi || f.vxidi || f.vxzdz || f.vximz || f.vxvc || f.vxsoft || f.vxsqrt || f.vxcvi

/-- `FPSCR.FEX`, the summary of the enabled exceptions (spec/10_state.md R52). -/
def FPSCR.fex (f : FPSCR) : Bool :=
  (f.vx && f.ve) || (f.ox && f.oe) || (f.ux && f.ue) || (f.zx && f.ze) || (f.xx && f.xe)

/-- The rounding modes (spec/10_state.md R50). -/
inductive RoundMode where
  | nearestEven
  | towardZero
  | towardPosInf
  | towardNegInf
  deriving DecidableEq, Repr

/-- The rounding mode that `FPSCR.RN` encodes (spec/10_state.md R50). -/
def RoundMode.ofRN (rn : BitVec 2) : RoundMode :=
  if rn = 0b00 then .nearestEven
  else if rn = 0b01 then .towardZero
  else if rn = 0b10 then .towardPosInf
  else .towardNegInf

/-! ### `CR` -/

/-- The four bits of a record form's `CR0` for the 64-bit result `v`, compared as a signed integer in
64-bit mode (spec/10_state.md R46). -/
def cr0Of (v : Dword) (so : Bool) : BitVec 4 :=
  BitVec.ofBool (decide (v.toInt < 0)) ++ BitVec.ofBool (decide (0 < v.toInt)) ++
    BitVec.ofBool (decide (v.toInt = 0)) ++ BitVec.ofBool so

/-- The four bits of a floating-point record form's `CR1`: `FPSCR[32:35]` (spec/10_state.md R53). -/
def cr1Of (f : FPSCR) : BitVec 4 :=
  BitVec.ofBool f.fx ++ BitVec.ofBool f.fex ++ BitVec.ofBool f.vx ++ BitVec.ofBool f.ox

/-! ### `XER` -/

/-- The overflow bits of an `OE` = 1 instruction: `OV` and `OV32` overwritten, `SO` sticky
(spec/10_state.md R48). -/
def XER.withOverflow (x : XER) (overflow : Bool) : XER :=
  { x with ov := overflow, ov32 := overflow, so := x.so || overflow }

end Sys2Proof.Machine
end

