-- ==== Sys2Proof/Machine/Bfp.lean ====
section
/-! DEFINITION. The floating-point primitives of the pseudocode over the exact working format: conversion
from and to integers, binary64 and binary32, comparison, rounding, class codes
(spec/00_scope.md R14 to R26). They set no transient flag themselves; the roundings to a precision return
`inc_flag` and `xx_flag` with the value (R22, R23), and the instructions compute the others (R27). -/

namespace Sys2Proof.Machine

/-! ### The working format (R14) -/

/-- The unit of `BfpFinite.units` is 2^-1074: `unitsPerOne` units are the number 1. -/
@[irreducible] def unitsPerOne : Nat := 2 ^ 1074

/-- A finite value of the working format: sign and exact magnitude (spec/00_scope.md R14). The magnitude
is counted in units of 2^-1074, of which every integer, every binary64 and every binary32 number is a
whole multiple (log entry 15). +0 and -0 are distinct. -/
structure BfpFinite where
  neg : Bool
  units : Nat
  deriving DecidableEq, Repr

/-- A value of the working format; NaN payloads are not needed (spec/00_scope.md R14). -/
inductive Bfp where
  | fin (x : BfpFinite)
  | inf (neg : Bool)
  | qnan
  | snan
  deriving DecidableEq, Repr

/-- The signed value, in units of 2^-1074. -/
def BfpFinite.signedUnits (x : BfpFinite) : Int := if x.neg then -(x.units : Int) else x.units

/-- The finite value of an integer; zero gives +0 (spec/00_scope.md R15). -/
def BfpFinite.ofInt (n : Int) : BfpFinite := ⟨decide (n < 0), n.natAbs * unitsPerOne⟩

/-- The integer that an integral finite value is. -/
def BfpFinite.toInt (x : BfpFinite) : Int := x.signedUnits.tdiv unitsPerOne

/-! ### Conversions from integers (R15) -/

/-- `bfp_CONVERT_FROM_SI32` -/
def bfpConvertFromSI32 (x : BitVec 32) : BfpFinite := BfpFinite.ofInt x.toInt

/-- `bfp_CONVERT_FROM_UI32` -/
def bfpConvertFromUI32 (x : BitVec 32) : BfpFinite := BfpFinite.ofInt x.toNat

/-- `bfp_CONVERT_FROM_SI64` -/
def bfpConvertFromSI64 (x : BitVec 64) : BfpFinite := BfpFinite.ofInt x.toInt

/-- `bfp_CONVERT_FROM_UI64` -/
def bfpConvertFromUI64 (x : BitVec 64) : BfpFinite := BfpFinite.ofInt x.toNat

/-- `bfp_CONVERT_FROM_UI128` -/
def bfpConvertFromUI128 (x : BitVec 128) : BfpFinite := BfpFinite.ofInt x.toNat

/-! ### Conversions to integers (R25, R26) -/

/-- `si64_CONVERT_FROM_BFP` of an integral value: its 64-bit two's-complement pattern
(spec/00_scope.md R25). -/
def si64ConvertFromBfp (x : BfpFinite) : BitVec 64 := BitVec.ofInt 64 x.toInt

/-- `ui64_CONVERT_FROM_BFP` of an integral value: its 64-bit unsigned pattern (spec/00_scope.md R25). -/
def ui64ConvertFromBfp (x : BfpFinite) : BitVec 64 := BitVec.ofInt 64 x.toInt

/-- `si128_CONVERT_FROM_BFP` of an integral value; beyond the signed 128-bit range it is the integer
mod 2^128, so that bits 64:127 are the integer mod 2^64 (spec/00_scope.md R26, spec/90_conflicts.md C10). -/
def si128ConvertFromBfp (x : BfpFinite) : BitVec 128 := BitVec.ofInt 128 x.toInt

/-! ### Binary64 and binary32 (R16, R17) -/

/-- `bfp_CONVERT_FROM_BFP64` (spec/00_scope.md R16). A normal number is `(2^52 + m) * 2^(e - 1075)`, that is
`(2^52 + m) * 2^(e - 1)` units. -/
def bfpConvertFromBfp64 (f : Dword) : Bfp :=
  let e := (fieldAt f 1 11).toNat
  let m := (fieldAt f 12 52).toNat
  if e = 2047 then
    if m = 0 then .inf (f.getMsbD 0) else if f.getMsbD 12 then .qnan else .snan
  else if e = 0 then .fin ⟨f.getMsbD 0, m⟩
  else .fin ⟨f.getMsbD 0, (2 ^ 52 + m) * 2 ^ (e - 1)⟩

/-- The value of a binary32 word (spec/00_scope.md R17): a denormal is `fraction * 2^-149`, that is
`fraction * 2^925` units. -/
def bfpConvertFromBfp32 (w : Word) : Bfp :=
  let e := (fieldAt w 1 8).toNat
  let m := (fieldAt w 9 23).toNat
  if e = 255 then
    if m = 0 then .inf (w.getMsbD 0) else if w.getMsbD 9 then .qnan else .snan
  else if e = 0 then .fin ⟨w.getMsbD 0, m * 2 ^ 925⟩
  else .fin ⟨w.getMsbD 0, (2 ^ 23 + m) * 2 ^ (e + 924)⟩

/-- `bfp64_CONVERT_FROM_BFP` of a finite value that is a binary64 number: its encoding
(spec/00_scope.md R16). -/
def bfp64ConvertFromBfp (x : BfpFinite) : Dword :=
  if x.units < 2 ^ 52 then BitVec.ofBool x.neg ++ 0#11 ++ BitVec.ofNat 52 x.units
  else
    let k := x.units.log2
    BitVec.ofBool x.neg ++ BitVec.ofNat 11 (k - 51) ++ BitVec.ofNat 52 (x.units / 2 ^ (k - 52) - 2 ^ 52)

/-- `bfp32_CONVERT_FROM_BFP` of a finite value that is a binary32 number: its encoding
(spec/00_scope.md R17). Its smallest unit is 2^-149, that is 2^925 units. -/
def bfp32ConvertFromBfp (x : BfpFinite) : Word :=
  let u := x.units / 2 ^ 925
  if u < 2 ^ 23 then BitVec.ofBool x.neg ++ 0#8 ++ BitVec.ofNat 23 u
  else
    let k := u.log2
    BitVec.ofBool x.neg ++ BitVec.ofNat 8 (k - 22) ++ BitVec.ofNat 23 (u / 2 ^ (k - 23) - 2 ^ 23)

/-! ### Predicates and comparisons (R18, R19) -/

/-- `IsNaN` (spec/00_scope.md R18) -/
def isNaN : Bfp → Bool
  | .fin _ => false
  | .inf _ => false
  | .qnan => true
  | .snan => true

/-- `IsSNaN` (spec/00_scope.md R18) -/
def isSNaN : Bfp → Bool
  | .fin _ => false
  | .inf _ => false
  | .qnan => false
  | .snan => true

/-- `IsInf` (spec/00_scope.md R18) -/
def isInf : Bfp → Bool
  | .fin _ => false
  | .inf _ => true
  | .qnan => false
  | .snan => false

/-- `bfp_ABSOLUTE`: sign 0; a NaN stays a NaN (spec/00_scope.md R18). -/
def bfpAbsolute : Bfp → Bfp
  | .fin x => .fin { x with neg := false }
  | .inf _ => .inf false
  | .qnan => .qnan
  | .snan => .snan

/-- `bfp_COMPARE_EQ`: equal as extended reals; false on a NaN; +0 = -0 (spec/00_scope.md R19). -/
def bfpCompareEq : Bfp → Bfp → Bool
  | .fin x, .fin y => decide (x.signedUnits = y.signedUnits)
  | .inf a, .inf b => a == b
  | _, _ => false

/-- `bfp_COMPARE_LT`: less as extended reals; false on a NaN (spec/00_scope.md R19). -/
def bfpCompareLt : Bfp → Bfp → Bool
  | .fin x, .fin y => decide (x.signedUnits < y.signedUnits)
  | .fin _, .inf b => !b
  | .inf a, .fin _ => a
  | .inf a, .inf b => a && !b
  | _, _ => false

/-- `bfp_COMPARE_GT` (spec/00_scope.md R19) -/
def bfpCompareGt (x y : Bfp) : Bool := bfpCompareLt y x

/-! ### Rounding to an integral value (R20) -/

/-- The integer `t` of spec/00_scope.md R20 for the signed value `r`, in units. -/
def integerNear (mode : RoundMode) (r : Int) : Int :=
  let one : Int := unitsPerOne
  match mode with
  | .towardZero => r.tdiv one
  | .towardNegInf => r / one
  | .towardPosInf => -(-r / one)
  | .nearestEven =>
    let low := r / one
    let rest := r % one
    if 2 * rest < one then low
    else if one < 2 * rest then low + 1
    else if low % 2 = 0 then low
    else low + 1

/-- Rounding to an integral value: a NaN or an Infinity is returned as it is; a finite value keeps its
sign, also when the result is zero (spec/00_scope.md R20). -/
def roundToInteger (mode : RoundMode) : Bfp → Bfp
  | .fin x => .fin ⟨x.neg, (integerNear mode x.signedUnits).natAbs * unitsPerOne⟩
  | .inf neg => .inf neg
  | .qnan => .qnan
  | .snan => .snan

/-- `bfp_ROUND_TO_INTEGER_TRUNC` -/
def bfpRoundToIntegerTrunc (x : Bfp) : Bfp := roundToInteger .towardZero x

/-- `bfp_ROUND_TO_INTEGER_NEAR_EVEN` -/
def bfpRoundToIntegerNearEven (x : Bfp) : Bfp := roundToInteger .nearestEven x

/-- `bfp_ROUND_TO_INTEGER_CEIL` -/
def bfpRoundToIntegerCeil (x : Bfp) : Bfp := roundToInteger .towardPosInf x

/-- `bfp_ROUND_TO_INTEGER_FLOOR` -/
def bfpRoundToIntegerFloor (x : Bfp) : Bfp := roundToInteger .towardNegInf x

/-! ### Rounding an integer to a precision (R21 to R23) -/

/-- What `RoundMag` returns (spec/00_scope.md R21). -/
structure RoundedMag where
  mag : Nat
  inc : Bool
  xx : Bool
  deriving DecidableEq, Repr

/-- `RoundMag(m, p, mode, sign)` for a positive magnitude `m` (spec/00_scope.md R21). -/
def roundMag (m p : Nat) (mode : RoundMode) (neg : Bool) : RoundedMag :=
  let e := m.log2
  if e < p then ⟨m, false, false⟩
  else
    let q := 2 ^ (e - p + 1)
    let lo := m / q * q
    let hi := lo + q
    let rem := m - lo
    if rem = 0 then ⟨m, false, false⟩
    else
      let up := match mode with
        | .nearestEven =>
          if 2 * rem < q then false
          else if q < 2 * rem then true
          else decide (lo / q % 2 ≠ 0)
        | .towardZero => false
        | .towardPosInf => !neg
        | .towardNegInf => neg
      ⟨if up then hi else lo, up, true⟩

/-- A rounded value with `inc_flag` and `xx_flag`. -/
structure RoundedBfp where
  value : BfpFinite
  inc : Bool
  xx : Bool
  deriving DecidableEq, Repr

/-- Rounds an integral value to `p` significant bits; zero gives +0 and no flag
(spec/00_scope.md R22). -/
def roundToPrecision (p : Nat) (mode : RoundMode) (x : BfpFinite) : RoundedBfp :=
  if x.units = 0 then ⟨⟨false, 0⟩, false, false⟩
  else
    let r := roundMag (x.units / unitsPerOne) p mode x.neg
    ⟨⟨x.neg, r.mag * unitsPerOne⟩, r.inc, r.xx⟩

/-- `bfp_ROUND_TO_BFP64(0b0, rmode, x)` (spec/00_scope.md R22) -/
def bfpRoundToBfp64 (rmode : BitVec 2) (x : BfpFinite) : RoundedBfp :=
  roundToPrecision 53 (RoundMode.ofRN rmode) x

/-- `bfp_ROUND_TO_BFP32(rmode, x)` (spec/00_scope.md R23) -/
def bfpRoundToBfp32 (rmode : BitVec 2) (x : BfpFinite) : RoundedBfp :=
  roundToPrecision 24 (RoundMode.ofRN rmode) x

/-! ### Class codes (R24) -/

/-- The classes of a floating-point pattern. -/
inductive FpClass where
  | qnan
  | snan
  | inf
  | normal
  | denormal
  | zero
  deriving DecidableEq, Repr

/-- The `FPRF` code of a class and a sign (spec/00_scope.md R24). -/
def fprfCode (neg : Bool) : FpClass → BitVec 5
  | .qnan => 0b10001
  | .snan => Config.fprfOfSignallingNaN
  | .inf => if neg then 0b01001 else 0b00101
  | .normal => if neg then 0b01000 else 0b00100
  | .denormal => if neg then 0b11000 else 0b10100
  | .zero => if neg then 0b10010 else 0b00010

/-- `fprf_CLASS_BFP64` (spec/00_scope.md R24) -/
def fprfClassBfp64 (f : Dword) : BitVec 5 :=
  let e := fieldAt f 1 11
  let m := fieldAt f 12 52
  fprfCode (f.getMsbD 0)
    (if e = 2047 then (if m = 0 then .inf else if f.getMsbD 12 then .qnan else .snan)
     else if e = 0 then (if m = 0 then .zero else .denormal)
     else .normal)

/-- `fprf_CLASS_BFP32` (spec/00_scope.md R24) -/
def fprfClassBfp32 (w : Word) : BitVec 5 :=
  let e := fieldAt w 1 8
  let m := fieldAt w 9 23
  fprfCode (w.getMsbD 0)
    (if e = 255 then (if m = 0 then .inf else if w.getMsbD 9 then .qnan else .snan)
     else if e = 0 then (if m = 0 then .zero else .denormal)
     else .normal)

end Sys2Proof.Machine
end

