-- ==== Sys2Proof/Machine/Ops.lean ====
section
/-! DEFINITION. The named operations over registers, instruction memory, free values and outcomes. -/

namespace Sys2Proof.Machine

/-! ### Registers (spec/10_state.md R40 to R42, R57; spec/00_scope.md R9) -/

/-- `GPR[r]`. No GPR is hard-wired (spec/10_state.md R40). -/
def State.readGpr (s : State) (r : GprNum) : Dword := s.gpr[r]

/-- `GPR[r] <- v`, all 64 bits. -/
def State.writeGpr (s : State) (r : GprNum) (v : Dword) : State := { s with gpr := s.gpr.set r v }

/-- `FPR[r]`, a raw 64-bit pattern (spec/10_state.md R42). -/
def State.readFpr (s : State) (r : FprNum) : Dword := s.fpr[r]

/-- `FPR[r] <- v`, all 64 bits. -/
def State.writeFpr (s : State) (r : FprNum) (v : Dword) : State := { s with fpr := s.fpr.set r v }

/-- `FPSCR <- f`. -/
def State.writeFpscr (s : State) (f : FPSCR) : State := { s with fpscr := f }

/-- `XER <- x`. -/
def State.writeXer (s : State) (x : XER) : State := { s with xer := x }

/-- `CR0 <- v`; the other fields of `CR` keep their values (spec/10_state.md R45). -/
def State.writeCr0 (s : State) (v : BitVec 4) : State := { s with cr := { s.cr with cr0 := v } }

/-- `CR1 <- v`; the other fields of `CR` keep their values (spec/10_state.md R45). -/
def State.writeCr1 (s : State) (v : BitVec 4) : State := { s with cr := { s.cr with cr1 := v } }

/-- `NIA`, which wraps past 2^64 - 4 (spec/10_state.md R44). -/
def State.nia (s : State) : Dword := s.cia + 4

/-- `CIA <- NIA` (spec/10_state.md R44). -/
def State.advance (s : State) : State := { s with cia := s.nia }

/-- `CR0` of a record form that placed `v` in a GPR (spec/10_state.md R46). -/
def State.recordCr0 (s : State) (v : Dword) : State := s.writeCr0 (cr0Of v s.xer.so)

/-- `CR1` of a floating-point record form (spec/10_state.md R53). -/
def State.recordCr1 (s : State) : State := s.writeCr1 (cr1Of s.fpscr)

/-! ### Free values (spec/00_scope.md R13) -/

/-- The value of the next `draw(width)`. -/
def State.drawn (s : State) (width : Nat) : BitVec width := Config.draw width s.draws

/-- The state after a `draw`: the next one is another value. -/
def State.afterDraw (s : State) : State := { s with draws := s.draws + 1 }

/-! ### Instruction memory (spec/20_memory.md R70, R71) -/

/-- The byte at address `a`, none where instruction memory defines none. -/
def Memory.read : List Host.Cell → Nat → Option Byte
  | [], _ => none
  | (a', b) :: rest, a => if a = a' then some b else if a < a' then none else Memory.read rest a

/-- Memory with the byte at address `a` defined as `b`. No instruction does this (spec/20_memory.md R79);
it is how a program is loaded (log entry 12). -/
def Memory.write : List Host.Cell → Nat → Byte → List Host.Cell
  | [], a, b => [(a, b)]
  | (a', b') :: rest, a, b =>
    if a = a' then (a, b) :: rest
    else if a < a' then (a, b) :: (a', b') :: rest
    else (a', b') :: Memory.write rest a b

/-- All addresses of the list lie from `low` on and below 2^64, strictly rising. -/
def Memory.wfFrom : Nat → List Host.Cell → Bool
  | _, [] => true
  | low, (a, _) :: rest => decide (low ≤ a) && decide (a < 2 ^ 64) && Memory.wfFrom (a + 1) rest

/-- The canonical form: strictly rising 64-bit addresses. (An unlisted address reads as no byte, so no
entry can equal what an unlisted address reads as.) -/
def Memory.wf (m : List Host.Cell) : Bool := Memory.wfFrom 0 m

/-- `FetchWord(CIA)`; none when any of the four bytes is not in instruction memory
(spec/20_memory.md R71, R72). -/
def State.fetchWord (s : State) : Option Word :=
  match Memory.read s.imem s.cia.toNat, Memory.read s.imem (s.cia.toNat + 1),
      Memory.read s.imem (s.cia.toNat + 2), Memory.read s.imem (s.cia.toNat + 3) with
  | some b0, some b1, some b2, some b3 => some (wordOfBytes s.params.insnByteOrder b0 b1 b2 b3)
  | _, _, _, _ => none

/-- The state with the word `w` loaded at `CIA`. -/
def State.loadWord (s : State) (w : Word) : State :=
  let order := s.params.insnByteOrder
  let a := s.cia.toNat
  let m0 := Memory.write s.imem a (byteOfWord order w 0)
  let m1 := Memory.write m0 (a + 1) (byteOfWord order w 1)
  let m2 := Memory.write m1 (a + 2) (byteOfWord order w 2)
  { s with imem := Memory.write m2 (a + 3) (byteOfWord order w 3) }

/-! ### Faults: the spec's exceptions (spec/60_exceptions.md R190, R199) -/

/-- `raise <Fault>(info)`: the end of the run. Nothing is saved, no mode changes and control goes
nowhere; there is no return (spec/00_scope.md R12, spec/60_exceptions.md R199, R200). -/
def raise (f : Fault) : Outcome := .fault f

/-- The check every instruction makes first: `FPUnavailable` when `FP_AVAILABLE` is false
(spec/60_exceptions.md R193). -/
def whenFpAvailable (s : State) (run : Outcome) : Outcome :=
  if s.params.fpAvailable then run else raise (.fpUnavailable s.cia)

/-- The end of an instruction, `s` holding all its updates: `FPEnabledException` when an enabled
floating-point exception occurred and `FE_MODE` = `trap`, else `CIA <- NIA`
(spec/60_exceptions.md R194, spec/10_state.md R44). -/
def complete (fpEnabled : Bool) (s : State) : Outcome :=
  if fpEnabled = true ∧ s.params.feMode = .trap then raise (.fpEnabledException s.cia s)
  else .next s.advance

end Sys2Proof.Machine
end

