-- ==== Sys2Proof/Machine/Operands.lean ====
section
/-! DEFINITION. The operand forms `IT` and `CVM`: the source integer of `ctfpr[s]`, and the range, the
mask, the narrowing and the rounding of `cffpr` (spec/30_encoding.md R97, R98;
spec/41_convert_to_fpr.md R141, R143; spec/42_convert_from_fpr.md R163, R164, R168). -/

namespace Sys2Proof.Machine

/-- `IT[0]`: the integer type has 64 bits (spec/30_encoding.md R97). -/
def itIs64 : IntType → Bool
  | .w => false
  | .uw => false
  | .d => true
  | .ud => true

/-- `src` of `ctfpr[s]` for the register value `(RB)`: the integer as a working-format value; the 32-bit
types read bits 32:63 only (spec/41_convert_to_fpr.md R141, R143). -/
def intSource (it : IntType) (rb : Dword) : BfpFinite :=
  match it with
  | .w => bfpConvertFromSI32 (fieldAt rb 32 32)
  | .uw => bfpConvertFromUI32 (fieldAt rb 32 32)
  | .d => bfpConvertFromSI64 rb
  | .ud => bfpConvertFromUI64 rb

/-- `range_min` (spec/42_convert_from_fpr.md R162, R163) -/
def rangeMin : IntType → BfpFinite
  | .w => bfpConvertFromSI32 0x80000000
  | .uw => bfpConvertFromUI32 0
  | .d => bfpConvertFromSI64 0x8000000000000000
  | .ud => bfpConvertFromUI64 0

/-- `range_max` (spec/42_convert_from_fpr.md R162, R163) -/
def rangeMax : IntType → BfpFinite
  | .w => bfpConvertFromSI32 0x7FFFFFFF
  | .uw => bfpConvertFromUI32 0xFFFFFFFF
  | .d => bfpConvertFromSI64 0x7FFFFFFFFFFFFFFF
  | .ud => bfpConvertFromUI64 0xFFFFFFFFFFFFFFFF

/-- `js_mask` (spec/42_convert_from_fpr.md R162, R163) -/
def jsMask : IntType → Dword
  | .w => 0x00000000FFFFFFFF
  | .uw => 0x00000000FFFFFFFF
  | .d => 0xFFFFFFFFFFFFFFFF
  | .ud => 0xFFFFFFFFFFFFFFFF

/-- The final `result` from the 64-bit `result` before narrowing (spec/42_convert_from_fpr.md R168). -/
def narrowResult (it : IntType) (result : Dword) : Dword :=
  match it with
  | .w => (fieldAt result 32 32).signExtend 64
  | .uw => (fieldAt result 32 32).zeroExtend 64
  | .d => result
  | .ud => result

/-- `result_bfp`: the integer that `result` denotes in the target type (spec/42_convert_from_fpr.md R168). -/
def resultBfp (it : IntType) (result : Dword) : BfpFinite :=
  match it with
  | .w => bfpConvertFromSI32 (fieldAt result 32 32)
  | .uw => bfpConvertFromUI32 (fieldAt result 32 32)
  | .d => bfpConvertFromSI64 result
  | .ud => bfpConvertFromUI64 result

/-- `CVM[2]`: truncate, whatever `FPSCR.RN` says (spec/30_encoding.md R98). -/
def cvmTruncates (cvm : Cvm) : Bool := cvm.getMsbD 2

/-- The conversion semantics `CVM` selects. -/
inductive ConvType where
  | pType
  | sType
  | eType
  deriving DecidableEq, Repr

/-- `switch(CVM)` of the pseudocode: 0, 1 P-Type; 2, 3 S-Type; 4, 5 E-Type. `CVM` 6 and 7 are illegal and
never get here (spec/30_encoding.md R98, spec/90_conflicts.md C4). -/
def convTypeOf (cvm : Cvm) : ConvType :=
  if fieldAt cvm 0 2 = 0 then .pType else if fieldAt cvm 0 2 = 1 then .sType else .eType

/-- `rnd`: the source rounded to an integral value (spec/42_convert_from_fpr.md R162, R164). -/
def roundSource (cvm : Cvm) (rn : BitVec 2) (src : Bfp) : Bfp :=
  if cvmTruncates cvm = true ∨ rn = 0b01 then bfpRoundToIntegerTrunc src
  else if rn = 0b00 then bfpRoundToIntegerNearEven src
  else if rn = 0b10 then bfpRoundToIntegerCeil src
  else bfpRoundToIntegerFloor src

end Sys2Proof.Machine
end

