-- ==== Sys2Proof/Machine/ConvertFrom.lean ====
section
/-! DEFINITION. Convert From Floating-Point Register: `cffpr[o][.]` (spec/42_convert_from_fpr.md R160 to
R178). The four mnemonics share one computation (R173 to R176). -/

namespace Sys2Proof.Machine

/-! ### The conversion (R163 to R169) -/

/-- P-Type and S-Type: saturation, with `nanResult` for a NaN (spec/42_convert_from_fpr.md R165, R166).
An Infinity is beyond the range on its side. -/
def saturated (nanResult : Dword) (it : IntType) : Bfp → Dword
  | .qnan => nanResult
  | .snan => nanResult
  | .inf neg => if neg then si64ConvertFromBfp (rangeMin it) else ui64ConvertFromBfp (rangeMax it)
  | .fin x =>
    if bfpCompareGt (.fin x) (.fin (rangeMax it)) then ui64ConvertFromBfp (rangeMax it)
    else if bfpCompareLt (.fin x) (.fin (rangeMin it)) then si64ConvertFromBfp (rangeMin it)
    else
      match it with
      | .uw => ui64ConvertFromBfp x
      | .ud => ui64ConvertFromBfp x
      | .w => si64ConvertFromBfp x
      | .d => si64ConvertFromBfp x

/-- P-Type: a NaN gives `range_min` (spec/42_convert_from_fpr.md R165). -/
def pTypeResult (it : IntType) (rnd : Bfp) : Dword := saturated (si64ConvertFromBfp (rangeMin it)) it rnd

/-- S-Type: a NaN gives 0 (spec/42_convert_from_fpr.md R166). -/
def sTypeResult (it : IntType) (rnd : Bfp) : Dword := saturated 0 it rnd

/-- E-Type: the low bits of the integer; NaN, Infinity and magnitudes above 2^128 - 1 give 0
(spec/42_convert_from_fpr.md R162, R167). -/
def eTypeResult (it : IntType) : Bfp → Dword
  | .qnan => 0
  | .snan => 0
  | .inf _ => 0
  | .fin x =>
    let limit := bfpConvertFromUI128 (BitVec.allOnes 128)
    if bfpCompareGt (bfpAbsolute (.fin x)) (.fin limit) then 0
    else fieldAt (si128ConvertFromBfp x) 64 64 &&& jsMask it

/-- `switch(CVM)` (spec/42_convert_from_fpr.md R162): the 64-bit `result` before narrowing. -/
def convertedResult (cvm : Cvm) (it : IntType) (rnd : Bfp) : Dword :=
  match convTypeOf cvm with
  | .pType => pTypeResult it rnd
  | .sType => sTypeResult it rnd
  | .eType => eTypeResult it rnd

/-- What one conversion computes: the final `result` and the transient flags (spec/00_scope.md R27). -/
structure FromFpr where
  result : Dword
  overflow : Bool
  vxsnan : Bool
  vxcvi : Bool
  xx : Bool
  inc : Bool
  deriving DecidableEq, Repr

/-- The conversion of the pattern `frb` under `FPSCR.RN` = `rn` (spec/42_convert_from_fpr.md R163 to R169). -/
def convertFromBfp64 (cvm : Cvm) (it : IntType) (rn : BitVec 2) (frb : Dword) : FromFpr :=
  let src := bfpConvertFromBfp64 frb
  let rnd := roundSource cvm rn src
  let result := narrowResult it (convertedResult cvm it rnd)
  let back : Bfp := .fin (resultBfp it result)
  let invalid := isNaN src || !bfpCompareEq rnd back
  { result := result
    overflow := invalid
    vxsnan := isSNaN src
    vxcvi := invalid
    xx := !invalid && !bfpCompareEq src back
    inc := !invalid && bfpCompareGt (bfpAbsolute back) (bfpAbsolute src) }

/-! ### Its effect on the state (R170 to R172) -/

/-- `vx_flag` (spec/42_convert_from_fpr.md R170) -/
def FromFpr.vx (c : FromFpr) : Bool := c.vxsnan || c.vxcvi

/-- `vex_flag`: an enabled invalid operation exception (spec/42_convert_from_fpr.md R170). -/
def FromFpr.vex (c : FromFpr) (f : FPSCR) : Bool := f.ve && c.vx

/-- `fp_enabled` (spec/42_convert_from_fpr.md R170) -/
def FromFpr.fpEnabled (c : FromFpr) (f : FPSCR) : Bool := c.vex f || (c.xx && f.xe)

/-- The three `SetFX` calls, in their order (spec/42_convert_from_fpr.md R170). -/
def FromFpr.setExceptions (c : FromFpr) (f : FPSCR) : FPSCR :=
  ((f.setFXIf c.vxsnan .vxsnan).setFXIf c.vxcvi .vxcvi).setFXIf c.xx .xx

/-- `FPSCR` and `RT` (spec/42_convert_from_fpr.md R170): with `vex_flag` = 0 the target is written and
`FPRF` is drawn; with `vex_flag` = 1 both keep their values (spec/90_conflicts.md C11). -/
def State.applyFromFpr (s : State) (rt : GprNum) (c : FromFpr) : State :=
  let f := c.setExceptions s.fpscr
  if c.vex s.fpscr then s.writeFpscr { f with fr := false, fi := false }
  else (s.afterDraw.writeGpr rt c.result).writeFpscr { f with fprf := s.drawn 5, fr := c.inc, fi := c.xx }

/-- `XER` when `OE` = 1, whether or not `RT` was written (spec/42_convert_from_fpr.md R171). -/
def State.recordOverflow (s : State) (overflow : Bool) : State := s.writeXer (s.xer.withOverflow overflow)

/-- `CR0` when `Rc` = 1: by the result, or with `vex_flag` = 1 three drawn bits and `XER.SO`
(spec/42_convert_from_fpr.md R172). -/
def State.recordFromFpr (s : State) (vex : Bool) (result : Dword) : State :=
  if vex then s.afterDraw.writeCr0 (s.drawn 3 ++ BitVec.ofBool s.xer.so) else s.recordCr0 result

/-- The conversion `cffpr RT, FRB, CVM, IT` makes in the state `s`. -/
def fromFprOf (s : State) (frb : FprNum) (cvm : Cvm) (it : IntType) : FromFpr :=
  convertFromBfp64 cvm it s.fpscr.rn (s.readFpr frb)

/-- Steps (3) to (5) of spec/42_convert_from_fpr.md R160: the state with every update made. -/
def cffprUpdated (oe rc : Bool) (rt : GprNum) (frb : FprNum) (cvm : Cvm) (it : IntType) (s : State) :
    State :=
  let c := fromFprOf s frb cvm it
  let s1 := s.applyFromFpr rt c
  let s2 := if oe then s1.recordOverflow c.overflow else s1
  if rc then s2.recordFromFpr (c.vex s.fpscr) c.result else s2

/-- The steps of spec/42_convert_from_fpr.md R160 for `OE` = `oe` and `Rc` = `rc`: the `CVM` check comes
before the availability check (R161, R198). -/
def cffprForms (oe rc : Bool) (rt : GprNum) (frb : FprNum) (cvm : Cvm) (it : IntType) (s : State) :
    Outcome :=
  if Cvm.legal cvm = false then
    raise (.illegalInstruction (cffprForm s.params.opcodes oe rc rt frb cvm it))
  else
    whenFpAvailable s
      (complete ((fromFprOf s frb cvm it).fpEnabled s.fpscr) (cffprUpdated oe rc rt frb cvm it s))

/-- `cffpr RT, FRB, CVM, IT` (spec/42_convert_from_fpr.md R173) -/
def execCffpr (rt : GprNum) (frb : FprNum) (cvm : Cvm) (it : IntType) (s : State) : Outcome :=
  cffprForms false false rt frb cvm it s

/-- `cffpr. RT, FRB, CVM, IT` (spec/42_convert_from_fpr.md R174) -/
def execCffprDot (rt : GprNum) (frb : FprNum) (cvm : Cvm) (it : IntType) (s : State) : Outcome :=
  cffprForms false true rt frb cvm it s

/-- `cffpro RT, FRB, CVM, IT` (spec/42_convert_from_fpr.md R175) -/
def execCffpro (rt : GprNum) (frb : FprNum) (cvm : Cvm) (it : IntType) (s : State) : Outcome :=
  cffprForms true false rt frb cvm it s

/-- `cffpro. RT, FRB, CVM, IT` (spec/42_convert_from_fpr.md R176) -/
def execCffproDot (rt : GprNum) (frb : FprNum) (cvm : Cvm) (it : IntType) (s : State) : Outcome :=
  cffprForms true true rt frb cvm it s

end Sys2Proof.Machine
end

