-- ==== Sys2Proof/Machine/SingleDouble.lean ====
section
/-! DEFINITION. `DOUBLE` and `SINGLE`, the conversions of a single-precision load and store
(spec/00_scope.md R29, R30). They do not round, set no flag and never trap. -/

namespace Sys2Proof.Machine

/-- The loop of `DOUBLE`: `while frac[0] = 0 do frac <- frac[1:52] || 0b0; exp <- exp - 1`, at most
`fuel` times. -/
def normalize : Nat → BitVec 53 → Int → BitVec 53 × Int
  | 0, frac, exp => (frac, exp)
  | fuel + 1, frac, exp =>
    if frac.getMsbD 0 then (frac, exp)
    else normalize fuel (fieldAt frac 1 52 ++ 0#1) (exp - 1)

/-- `DOUBLE(w)` (spec/00_scope.md R29). -/
def double (w : Word) : Dword :=
  let e := (fieldAt w 1 8).toNat
  let f := fieldAt w 9 23
  if 0 < e ∧ e < 255 then
    let n := BitVec.ofBool (!w.getMsbD 1)
    fieldAt w 0 2 ++ n ++ n ++ n ++ fieldAt w 2 30 ++ 0#29
  else if e = 0 ∧ f ≠ 0 then
    let r := normalize 53 (0#1 ++ f ++ 0#29) (-126)
    fieldAt w 0 1 ++ BitVec.ofInt 11 (r.2 + 1023) ++ fieldAt r.1 1 52
  else
    let b := fieldAt w 1 1
    fieldAt w 0 2 ++ b ++ b ++ b ++ fieldAt w 2 30 ++ 0#29

/-- The loop of `SINGLE`: `while exp < -126 do frac <- 0b0 || frac[0:51]; exp <- exp + 1`, at most
`fuel` times. -/
def denormalize : Nat → BitVec 53 → Int → BitVec 53
  | 0, frac, _ => frac
  | fuel + 1, frac, exp =>
    if exp < -126 then denormalize fuel (0#1 ++ fieldAt frac 0 52) (exp + 1) else frac

/-- `SINGLE(f)`; none where it is undefined (spec/00_scope.md R30, spec/93_implementation_defined.md U4). -/
def single (f : Dword) : Option Word :=
  let e := (fieldAt f 1 11).toNat
  if 896 < e ∨ fieldAt f 1 63 = 0 then some (fieldAt f 0 2 ++ fieldAt f 5 30)
  else if 874 ≤ e ∧ e ≤ 896 then
    some (fieldAt f 0 1 ++ 0#8 ++ fieldAt (denormalize 23 (1#1 ++ fieldAt f 12 52) ((e : Int) - 1023)) 1 23)
  else none

end Sys2Proof.Machine
end

