-- ==== Sys2Proof/Machine/ConvertTo.lean ====
section
/-! DEFINITION. Convert To Floating-Point Register: `ctfpr[.]`, `ctfprs[.]`
(spec/41_convert_to_fpr.md R140 to R144). -/

namespace Sys2Proof.Machine

/-- The value for `FPR[FRT]`, the new `FPSCR` and `fp_enabled` of a conversion from an integer. -/
structure ToFpr where
  result : Dword
  fpscr : FPSCR
  fpEnabled : Bool
  deriving DecidableEq, Repr

/-- `FPSCR` after a rounding conversion: `SetFX(XX)` when inexact, then `FPRF`, `FR`, `FI`
(spec/41_convert_to_fpr.md R141, R143). -/
def fpscrAfterRounding (f : FPSCR) (cls : BitVec 5) (inc xx : Bool) : FPSCR :=
  { f.setFXIf xx .xx with fprf := cls, fr := inc, fi := xx }

/-- The conversion of `ctfpr[.]`: exact and without a trace in `FPSCR` for the 32-bit types, rounded to
binary64 for the 64-bit types (spec/41_convert_to_fpr.md R141). -/
def convertToBfp64 (it : IntType) (rb : Dword) (f : FPSCR) : ToFpr :=
  let src := intSource it rb
  if itIs64 it = false then ⟨bfp64ConvertFromBfp src, f, false⟩
  else
    let rnd := bfpRoundToBfp64 f.rn src
    let result := bfp64ConvertFromBfp rnd.value
    ⟨result, fpscrAfterRounding f (fprfClassBfp64 result) rnd.inc rnd.xx, rnd.xx && f.xe⟩

/-- The conversion of `ctfprs[.]`: every integer type is rounded to binary32
(spec/41_convert_to_fpr.md R143). -/
def convertToBfp32 (it : IntType) (rb : Dword) (f : FPSCR) : ToFpr :=
  let rnd := bfpRoundToBfp32 f.rn (intSource it rb)
  let result32 := bfp32ConvertFromBfp rnd.value
  ⟨double result32, fpscrAfterRounding f (fprfClassBfp32 result32) rnd.inc rnd.xx, rnd.xx && f.xe⟩

/-- `FRT <- result` and the `FPSCR` updates; `FRT` is written in every case
(spec/41_convert_to_fpr.md R141, R143). -/
def State.applyToFpr (s : State) (frt : FprNum) (c : ToFpr) : State :=
  (s.writeFpr frt c.result).writeFpscr c.fpscr

/-- `ctfpr FRT, RB, IT` (spec/41_convert_to_fpr.md R140, R141) -/
def execCtfpr (frt : FprNum) (rb : GprNum) (it : IntType) (s : State) : Outcome :=
  let c := convertToBfp64 it (s.readGpr rb) s.fpscr
  whenFpAvailable s (complete c.fpEnabled (s.applyToFpr frt c))

/-- `ctfpr. FRT, RB, IT` (spec/41_convert_to_fpr.md R140, R142) -/
def execCtfprDot (frt : FprNum) (rb : GprNum) (it : IntType) (s : State) : Outcome :=
  let c := convertToBfp64 it (s.readGpr rb) s.fpscr
  whenFpAvailable s (complete c.fpEnabled (s.applyToFpr frt c).recordCr1)

/-- `ctfprs FRT, RB, IT` (spec/41_convert_to_fpr.md R140, R143) -/
def execCtfprs (frt : FprNum) (rb : GprNum) (it : IntType) (s : State) : Outcome :=
  let c := convertToBfp32 it (s.readGpr rb) s.fpscr
  whenFpAvailable s (complete c.fpEnabled (s.applyToFpr frt c))

/-- `ctfprs. FRT, RB, IT` (spec/41_convert_to_fpr.md R140, R144) -/
def execCtfprsDot (frt : FprNum) (rb : GprNum) (it : IntType) (s : State) : Outcome :=
  let c := convertToBfp32 it (s.readGpr rb) s.fpscr
  whenFpAvailable s (complete c.fpEnabled (s.applyToFpr frt c).recordCr1)

end Sys2Proof.Machine
end

