-- ==== Sys2Proof/Machine/Move.lean ====
section
/-! DEFINITION. Move To/From Floating-Point Register: `mffpr[.]`, `mffprs[.]`, `mtfpr`, `mtfprs`
(spec/40_move_fpr.md R120 to R127). None reads or writes `FPSCR`, and none can raise
`FPEnabledException` (R121). -/

namespace Sys2Proof.Machine

/-- `mffpr RT, FRB` (spec/40_move_fpr.md R122) -/
def execMffpr (rt : GprNum) (frb : FprNum) (s : State) : Outcome :=
  whenFpAvailable s (complete false (s.writeGpr rt (s.readFpr frb)))

/-- `mffpr. RT, FRB` (spec/40_move_fpr.md R123) -/
def execMffprDot (rt : GprNum) (frb : FprNum) (s : State) : Outcome :=
  let v := s.readFpr frb
  whenFpAvailable s (complete false ((s.writeGpr rt v).recordCr0 v))

/-- The word `SINGLE(FPR[FRB])` of `mffprs[.]`: where it is undefined, `draw(32)`
(spec/00_scope.md R30, spec/40_move_fpr.md R124 (d)). -/
def singleOrDrawn (s : State) (f : Dword) : Word :=
  match single f with
  | some w => w
  | none => s.drawn 32

/-- The state after `SINGLE(FPR[FRB])`: a draw is used up where it is undefined. -/
def afterSingle (s : State) (f : Dword) : State :=
  match single f with
  | some _ => s
  | none => s.afterDraw

/-- `mffprs RT, FRB` (spec/40_move_fpr.md R124) -/
def execMffprs (rt : GprNum) (frb : FprNum) (s : State) : Outcome :=
  let f := s.readFpr frb
  let v : Dword := 0#32 ++ singleOrDrawn s f
  whenFpAvailable s (complete false ((afterSingle s f).writeGpr rt v))

/-- `mffprs. RT, FRB` (spec/40_move_fpr.md R125) -/
def execMffprsDot (rt : GprNum) (frb : FprNum) (s : State) : Outcome :=
  let f := s.readFpr frb
  let v : Dword := 0#32 ++ singleOrDrawn s f
  whenFpAvailable s (complete false (((afterSingle s f).writeGpr rt v).recordCr0 v))

/-- `mtfpr FRT, RB` (spec/40_move_fpr.md R126) -/
def execMtfpr (frt : FprNum) (rb : GprNum) (s : State) : Outcome :=
  whenFpAvailable s (complete false (s.writeFpr frt (s.readGpr rb)))

/-- `mtfprs FRT, RB`; the target is `FPR[FRT]` (spec/40_move_fpr.md R127, spec/90_conflicts.md C1) -/
def execMtfprs (frt : FprNum) (rb : GprNum) (s : State) : Outcome :=
  whenFpAvailable s (complete false (s.writeFpr frt (double (fieldAt (s.readGpr rb) 32 32))))

end Sys2Proof.Machine
end

