-- ==== Sys2Proof/Machine/Dispatch.lean ====
section
/-! DEFINITION. The meaning of every instruction, one arm each (spec/30_encoding.md R100). -/

namespace Sys2Proof.Machine

def exec (i : Instr) (s : State) : Host.Outcome State Fault Refusal :=
  match i with
  -- spec/40_move_fpr.md
  | .mffpr rt frb => Sys2Proof.Machine.execMffpr rt frb s
  | .mffprDot rt frb => Sys2Proof.Machine.execMffprDot rt frb s
  | .mffprs rt frb => Sys2Proof.Machine.execMffprs rt frb s
  | .mffprsDot rt frb => Sys2Proof.Machine.execMffprsDot rt frb s
  | .mtfpr frt rb => Sys2Proof.Machine.execMtfpr frt rb s
  | .mtfprs frt rb => Sys2Proof.Machine.execMtfprs frt rb s
  -- spec/41_convert_to_fpr.md
  | .ctfpr frt rb it => Sys2Proof.Machine.execCtfpr frt rb it s
  | .ctfprDot frt rb it => Sys2Proof.Machine.execCtfprDot frt rb it s
  | .ctfprs frt rb it => Sys2Proof.Machine.execCtfprs frt rb it s
  | .ctfprsDot frt rb it => Sys2Proof.Machine.execCtfprsDot frt rb it s
  -- spec/42_convert_from_fpr.md
  | .cffpr rt frb cvm it => Sys2Proof.Machine.execCffpr rt frb cvm it s
  | .cffprDot rt frb cvm it => Sys2Proof.Machine.execCffprDot rt frb cvm it s
  | .cffpro rt frb cvm it => Sys2Proof.Machine.execCffpro rt frb cvm it s
  | .cffproDot rt frb cvm it => Sys2Proof.Machine.execCffproDot rt frb cvm it s

end Sys2Proof.Machine
end

