-- ==== Sys2Proof/Machine/Step.lean ====
section
/-! DEFINITION. One step: fetch, decode, execute, with the checks in the order of
spec/60_exceptions.md R198. -/

namespace Sys2Proof.Machine

/-- The outcome of a word that does not decode (spec/60_exceptions.md R191, R192). `truncated` cannot arise
from a whole word; it would be the spec's `stop` (spec/20_memory.md R72). -/
def rejected (s : State) : DecodeReject → Outcome
  | .truncated => raise (.stop s.cia)
  | .outOfScope w => raise (.outOfScopeInstruction w)
  | .illegal w => raise (.illegalInstruction w)

/-- One step (spec/00_scope.md R31, spec/60_exceptions.md R198): (1) `FetchFault`, (2) `stop`,
(3) `OutOfScopeInstruction`, (4) `IllegalInstruction`, then the instruction, whose meaning makes the
checks (5) and (6). -/
def step (s : State) : Outcome :=
  if s.cia.toNat % 4 ≠ 0 then raise (.fetchFault s.cia)
  else
    match s.fetchWord with
    | none => raise (.stop s.cia)
    | some w =>
      match decodeWord s.params.opcodes s.params.reservedPolicy w with
      | .error e => rejected s e
      | .ok i => exec i s

/-- The state with the instruction whose `nbits` low bits are those of `w` loaded at `CIA`, where `step`
fetches it, in the byte order of the state (log entry 12). -/
def State.withFetchWord (s : State) (nbits w : Nat) : State :=
  s.loadWord (BitVec.ofNat 32 (w % 2 ^ nbits))

end Sys2Proof.Machine
end

