-- ==== Sys2Proof/Machine/Layout.lean ====
section
/-! DEFINITION. The registers held field by field, as words with the bit positions of spec/10_state.md
R45, R47, R49 (MSB0; the 32-bit `CR` is numbered 32:63), and the words' fields. -/

namespace Sys2Proof.Machine

/-- `CR[32:63]`: `CR0` first (spec/10_state.md R45). -/
def CR.toBits (c : CR) : BitVec 32 :=
  c.cr0 ++ c.cr1 ++ c.cr2 ++ c.cr3 ++ c.cr4 ++ c.cr5 ++ c.cr6 ++ c.cr7

/-- The fields of a `CR` word (spec/10_state.md R45). -/
def CR.ofBits (v : BitVec 32) : CR where
  cr0 := fieldAt v 0 4
  cr1 := fieldAt v 4 4
  cr2 := fieldAt v 8 4
  cr3 := fieldAt v 12 4
  cr4 := fieldAt v 16 4
  cr5 := fieldAt v 20 4
  cr6 := fieldAt v 24 4
  cr7 := fieldAt v 28 4

/-- `XER[0:63]` (spec/10_state.md R47). -/
def XER.toBits (x : XER) : BitVec 64 :=
  x.other0to31 ++ BitVec.ofBool x.so ++ BitVec.ofBool x.ov ++ BitVec.ofBool x.ca ++ x.other35to43 ++
    BitVec.ofBool x.ov32 ++ BitVec.ofBool x.ca32 ++ x.other46to56 ++ x.byteCount

/-- The fields of an `XER` word (spec/10_state.md R47). -/
def XER.ofBits (v : BitVec 64) : XER where
  other0to31 := fieldAt v 0 32
  so := v.getMsbD 32
  ov := v.getMsbD 33
  ca := v.getMsbD 34
  other35to43 := fieldAt v 35 9
  ov32 := v.getMsbD 44
  ca32 := v.getMsbD 45
  other46to56 := fieldAt v 46 11
  byteCount := fieldAt v 57 7

/-- `FPSCR[0:63]`, with `FEX` and `VX` at bits 33 and 34 (spec/10_state.md R49, R52). -/
def FPSCR.toBits (f : FPSCR) : BitVec 64 :=
  f.reserved0to28 ++ f.drn ++ BitVec.ofBool f.fx ++ BitVec.ofBool f.fex ++ BitVec.ofBool f.vx ++
    BitVec.ofBool f.ox ++ BitVec.ofBool f.ux ++ BitVec.ofBool f.zx ++ BitVec.ofBool f.xx ++
    BitVec.ofBool f.vxsnan ++ BitVec.ofBool f.vxisi ++ BitVec.ofBool f.vxidi ++
    BitVec.ofBool f.vxzdz ++ BitVec.ofBool f.vximz ++ BitVec.ofBool f.vxvc ++ BitVec.ofBool f.fr ++
    BitVec.ofBool f.fi ++ f.fprf ++ BitVec.ofBool f.reserved52 ++ BitVec.ofBool f.vxsoft ++
    BitVec.ofBool f.vxsqrt ++ BitVec.ofBool f.vxcvi ++ BitVec.ofBool f.ve ++ BitVec.ofBool f.oe ++
    BitVec.ofBool f.ue ++ BitVec.ofBool f.ze ++ BitVec.ofBool f.xe ++ BitVec.ofBool f.ni ++ f.rn

/-- The stored fields of an `FPSCR` word; its bits 33 and 34 are not read (spec/10_state.md R49, R52). -/
def FPSCR.ofBits (v : BitVec 64) : FPSCR where
  reserved0to28 := fieldAt v 0 29
  drn := fieldAt v 29 3
  fx := v.getMsbD 32
  ox := v.getMsbD 35
  ux := v.getMsbD 36
  zx := v.getMsbD 37
  xx := v.getMsbD 38
  vxsnan := v.getMsbD 39
  vxisi := v.getMsbD 40
  vxidi := v.getMsbD 41
  vxzdz := v.getMsbD 42
  vximz := v.getMsbD 43
  vxvc := v.getMsbD 44
  fr := v.getMsbD 45
  fi := v.getMsbD 46
  fprf := fieldAt v 47 5
  reserved52 := v.getMsbD 52
  vxsoft := v.getMsbD 53
  vxsqrt := v.getMsbD 54
  vxcvi := v.getMsbD 55
  ve := v.getMsbD 56
  oe := v.getMsbD 57
  ue := v.getMsbD 58
  ze := v.getMsbD 59
  xe := v.getMsbD 60
  ni := v.getMsbD 61
  rn := fieldAt v 62 2

end Sys2Proof.Machine
end

