-- ==== Sys2Proof/Safety.lean ====
section
/-! DEFINITION. The terms claims are stated in: the premise on the parameters, the state at a fault, the
invariant of the machine, what no instruction may change, and the mathematics of rounding, written
without the model's own algorithms. -/

namespace Sys2Proof

/-- The premises the spec puts on the parameters: distinct decode keys (spec/30_encoding.md R101) and a
`RESET_PC` that is a multiple of 4 (spec/00_scope.md R6). -/
abbrev Params.WellFormed (p : Params) : Prop :=
  p.opcodes.Distinct ∧ p.resetPc.toNat % 4 = 0

namespace Machine

/-! ### Runs -/

/-- The state at a fault raised in the state `s`: only `FPEnabledException` comes after updates
(spec/60_exceptions.md R190, R199). -/
def Fault.stateAt (s : State) : Fault → State
  | .fetchFault _ => s
  | .stop _ => s
  | .outOfScopeInstruction _ => s
  | .illegalInstruction _ => s
  | .fpUnavailable _ => s
  | .fpEnabledException _ after => after

/-- The machine's invariant: instruction memory in canonical form (spec/20_memory.md R70), `CIA` a multiple
of 4 (spec/10_state.md R44), and the premises on the parameters. -/
abbrev State.Inv (s : State) : Prop :=
  Memory.wf s.imem = true ∧ s.cia.toNat % 4 = 0 ∧ s.params.WellFormed

/-- The state with another `FE_MODE`. -/
def State.withFeMode (s : State) (m : FeMode) : State := { s with params := { s.params with feMode := m } }

/-! ### What instructions leave alone -/

/-- `g` has every sticky bit of `f`: `FX` and the exception bits (spec/10_state.md R49). -/
abbrev FPSCR.StickyLe (f g : FPSCR) : Prop :=
  (f.fx = true → g.fx = true) ∧ ∀ b, f.exception b = true → g.exception b = true

/-- The control and reserved bits agree (spec/10_state.md R49: no instruction writes one). -/
abbrev FPSCR.SameControl (f g : FPSCR) : Prop :=
  g.ve = f.ve ∧ g.oe = f.oe ∧ g.ue = f.ue ∧ g.ze = f.ze ∧ g.xe = f.xe ∧ g.ni = f.ni ∧ g.rn = f.rn ∧
    g.drn = f.drn ∧ g.reserved0to28 = f.reserved0to28 ∧ g.reserved52 = f.reserved52

/-- `CR2` to `CR7` agree (spec/10_state.md R45). -/
abbrev CR.SameUpper (c d : CR) : Prop :=
  d.cr2 = c.cr2 ∧ d.cr3 = c.cr3 ∧ d.cr4 = c.cr4 ∧ d.cr5 = c.cr5 ∧ d.cr6 = c.cr6 ∧ d.cr7 = c.cr7

/-- All of `XER` but `SO`, `OV`, `OV32` agrees (spec/10_state.md R47). -/
abbrev XER.SameOther (x y : XER) : Prop :=
  y.ca = x.ca ∧ y.ca32 = x.ca32 ∧ y.byteCount = x.byteCount ∧ y.other0to31 = x.other0to31 ∧
    y.other35to43 = x.other35to43 ∧ y.other46to56 = x.other46to56

/-- The exception bits the seven instructions can set (spec/60_exceptions.md R196). -/
abbrev FpException.inScope (b : FpException) : Prop := b = .xx ∨ b = .vxsnan ∨ b = .vxcvi

/-! ### The `CR0` bits, by cases (spec/10_state.md R46) -/

/-- `0b1000`, `0b0100` or `0b0010` by the sign of the 64-bit value, plus `SO`. -/
def signCr0 (v : Dword) (so : Bool) : BitVec 4 :=
  (if v.toInt < 0 then 0b1000 else if v.toInt = 0 then 0b0010 else 0b0100) ||| (if so then 0b0001 else 0)

/-! ### `FPSCR` after the exceptions of one instruction, in closed form -/

/-- `f` with `VXSNAN`, `VXCVI` and `XX` set where the flags say, and `FX` set if one of them went from 0
to 1 (spec/00_scope.md R28, spec/42_convert_from_fpr.md R170). -/
def FPSCR.withExceptions (f : FPSCR) (snan cvi inexact : Bool) : FPSCR :=
  { f with
    fx := f.fx || (snan && !f.vxsnan) || (cvi && !f.vxcvi) || (inexact && !f.xx)
    vxsnan := f.vxsnan || snan
    vxcvi := f.vxcvi || cvi
    xx := f.xx || inexact }

/-- The class code of a rounded integer (spec/41_convert_to_fpr.md R141, R143). -/
def integerClass (n : Int) : BitVec 5 :=
  if n = 0 then 0b00010 else if 0 < n then 0b00100 else 0b01000

/-! ### Rounding, as mathematics -/

/-- The integer `n` a register holds under `IT` (spec/41_convert_to_fpr.md R141). -/
def operandInt (it : IntType) (v : Dword) : Int :=
  match it with
  | .w => (v.setWidth 32).toInt
  | .uw => (v.setWidth 32).toNat
  | .d => v.toInt
  | .ud => v.toNat

/-- The least integer of the type (spec/42_convert_from_fpr.md R163). -/
def typeMin : IntType → Int
  | .w => -2 ^ 31
  | .uw => 0
  | .d => -2 ^ 63
  | .ud => 0

/-- The greatest integer of the type (spec/42_convert_from_fpr.md R163). -/
def typeMax : IntType → Int
  | .w => 2 ^ 31 - 1
  | .uw => 2 ^ 32 - 1
  | .d => 2 ^ 63 - 1
  | .ud => 2 ^ 64 - 1

/-- The register pattern of an integer in the target type: its low 32 bits sign- or zero-extended, or
its low 64 bits (spec/42_convert_from_fpr.md R168, R177). -/
def typePattern (it : IntType) (n : Int) : Dword :=
  match it with
  | .w => (BitVec.ofInt 32 n).signExtend 64
  | .uw => (BitVec.ofInt 32 n).zeroExtend 64
  | .d => BitVec.ofInt 64 n
  | .ud => BitVec.ofInt 64 n

/-- The integer has at most `p` significant bits. -/
def FitsIn (p : Nat) (r : Int) : Prop := ∃ m k : Nat, m < 2 ^ p ∧ r.natAbs = m * 2 ^ k

/-- `r` is `n` rounded to `p` significant bits in the mode, as IEEE 754 says it: the best of all integers
of `p` significant bits, and on a tie the one with an even significand (spec/00_scope.md R21). -/
def RoundsTo (p : Nat) (mode : RoundMode) (n r : Int) : Prop :=
  FitsIn p r ∧
    match mode with
    | .towardZero => r.natAbs ≤ n.natAbs ∧ 0 ≤ r * n ∧
        ∀ r', FitsIn p r' → r'.natAbs ≤ n.natAbs → r'.natAbs ≤ r.natAbs
    | .towardPosInf => n ≤ r ∧ ∀ r', FitsIn p r' → n ≤ r' → r ≤ r'
    | .towardNegInf => r ≤ n ∧ ∀ r', FitsIn p r' → r' ≤ n → r' ≤ r
    | .nearestEven => (∀ r', FitsIn p r' → (r - n).natAbs ≤ (r' - n).natAbs) ∧
        ∀ r', FitsIn p r' → r' ≠ r → (r' - n).natAbs = (r - n).natAbs →
          ∃ c k : Nat, c % 2 = 0 ∧ 2 ^ (p - 1) ≤ c ∧ c ≤ 2 ^ p ∧ r.natAbs = c * 2 ^ k

/-- `t` is the integer that the value of `r` units (of 2^-1074) rounds to in the mode
(spec/00_scope.md R20): no multiplication by 2^-1074 is needed, both sides are counted in units. -/
def NearestInteger (mode : RoundMode) (r t : Int) : Prop :=
  let one : Int := unitsPerOne
  match mode with
  | .towardZero => (t * one).natAbs ≤ r.natAbs ∧ r.natAbs < (t * one).natAbs + unitsPerOne ∧ 0 ≤ t * r
  | .towardPosInf => r ≤ t * one ∧ t * one < r + one
  | .towardNegInf => t * one ≤ r ∧ r < t * one + one
  | .nearestEven => 2 * (t * one - r).natAbs ≤ unitsPerOne ∧
      (2 * (t * one - r).natAbs = unitsPerOne → t % 2 = 0)

/-- The rounding mode of a conversion from floating point (spec/42_convert_from_fpr.md R164). -/
def conversionMode (cvm : Cvm) (rn : BitVec 2) : RoundMode :=
  if cvm.toNat % 2 = 1 then .towardZero else RoundMode.ofRN rn

end Machine
end Sys2Proof
end

