-- ==== Sys2Proof/Certificates/Slice0/Obligations.lean ====
section
/-! DEFINITION. The statements for the provers. Each docstring names the rule or the spec's decision it
rests on; the model's own choices are named with their log entry. -/

open Sys2Proof Sys2Proof.Machine

/-! ### Encoding and decoding -/

/-- spec/30_encoding.md R101, R109: under distinct keys, decoding the word of a legal instruction gives the
instruction back, whatever `RESERVED_POLICY` is. -/
def Obligations.DecodeOfEncodeIsIdentity : Prop :=
  ∀ (o : Opcodes) (policy : ReservedPolicy) (i : Instr),
    o.Distinct → i.WellFormed → decodeWord o policy (encode o i) = .ok i

/-- spec/30_encoding.md R96, R102: under `must_be_zero` the words that decode to a legal instruction are
exactly its encoding. -/
def Obligations.MustBeZeroDecodesExactlyTheEncodings : Prop :=
  ∀ (o : Opcodes) (w : Word) (i : Instr), o.Distinct →
    (decodeWord o .mustBeZero w = .ok i ↔ i.WellFormed ∧ encode o i = w)

/-- spec/30_encoding.md R96: a word that decodes is the encoding of what it decodes to, but for its
reserved bits. -/
def Obligations.DecodedWordIsEncodingUpToReservedBits : Prop :=
  ∀ (o : Opcodes) (policy : ReservedPolicy) (w : Word) (i : Instr),
    decodeWord o policy w = .ok i → encode o i = w &&& ~~~i.base.reservedMask ∧ i.WellFormed

/-- spec/30_encoding.md R96 (the spec's decision D3): under `ignore` the reserved bits have no effect. -/
def Obligations.IgnoredReservedBitsHaveNoEffect : Prop :=
  ∀ (o : Opcodes) (w x : Word) (b : Base) (i : Instr), o.baseOf (keyOf w) = some b →
    decodeWord o .ignore w = .ok i → decodeWord o .ignore (w ^^^ (x &&& b.reservedMask)) = .ok i

/-- spec/30_encoding.md R101, R102 (c): a word is out of scope exactly when its key is none of the eight. -/
def Obligations.OutOfScopeExactlyWithoutKey : Prop :=
  ∀ (o : Opcodes) (policy : ReservedPolicy) (w : Word),
    decodeWord o policy w = .error (.outOfScope w) ↔ ∀ row ∈ o.table, row.1 ≠ keyOf w

/-- spec/30_encoding.md R102 (a), (b): a word is illegal exactly when it has a key and either `CVM` is 6 or
7 under the key of `cffpr`, or a reserved bit is set under `must_be_zero`. -/
def Obligations.IllegalExactlyByCvmOrReservedBits : Prop :=
  ∀ (o : Opcodes) (policy : ReservedPolicy) (w : Word),
    decodeWord o policy w = .error (.illegal w) ↔
      ∃ b, o.baseOf (keyOf w) = some b ∧
        ((b = .cffpr ∧ 6 ≤ (fieldAt w 13 3).toNat) ∨
          (policy = .mustBeZero ∧ w &&& b.reservedMask ≠ 0))

/-- spec/30_encoding.md R91 to R94: the word of every instruction has its fields at the bits of its format,
read here by shifts and masks as the tables give them. That the encoding leaves the reserved bits zero
is R109 (derived there) over R96 (general knowledge, the spec's decision D3). -/
def Obligations.WordFieldsFollowTheFormats : Prop :=
  ∀ (o : Opcodes) (rt rb : GprNum) (frt frb : FprNum) (cvm : Cvm) (it : IntType),
    let ends (w : Word) (p : BitVec 6) (target source : Fin 32) (last : Bool) :=
      ((w >>> 26) &&& 0x3F).toNat = p.toNat ∧ ((w >>> 21) &&& 0x1F).toNat = target.val ∧
        ((w >>> 11) &&& 0x1F).toNat = source.val ∧ w &&& 1 = if last then 1 else 0
    let move (w : Word) (p : BitVec 6) (target source : Fin 32) (x : BitVec 10) (last : Bool) :=
      ends w p target source last ∧ (w >>> 16) &&& 0x1F = 0 ∧ ((w >>> 1) &&& 0x3FF).toNat = x.toNat
    let toFpr (w : Word) (p : BitVec 6) (x : BitVec 10) (rc : Bool) :=
      ends w p frt rb rc ∧ ((w >>> 19) &&& 0x3).toNat = it.toBits.toNat ∧ (w >>> 16) &&& 0x7 = 0 ∧
        ((w >>> 1) &&& 0x3FF).toNat = x.toNat
    let fromFpr (w : Word) (oe rc : Bool) :=
      ends w o.poCffpr rt frb rc ∧ ((w >>> 19) &&& 0x3).toNat = it.toBits.toNat ∧
        ((w >>> 16) &&& 0x7).toNat = cvm.toNat ∧ (w >>> 10) &&& 1 = (if oe then 1 else 0) ∧
        ((w >>> 1) &&& 0x1FF).toNat = o.xoCffpr.toNat
    move (encode o (.mffpr rt frb)) o.poMffpr rt frb o.xoMffpr false ∧
    move (encode o (.mffprDot rt frb)) o.poMffpr rt frb o.xoMffpr true ∧
    move (encode o (.mffprs rt frb)) o.poMffprs rt frb o.xoMffprs false ∧
    move (encode o (.mffprsDot rt frb)) o.poMffprs rt frb o.xoMffprs true ∧
    move (encode o (.mtfpr frt rb)) o.poMtfpr frt rb o.xoMtfpr false ∧
    move (encode o (.mtfprs frt rb)) o.poMtfprs frt rb o.xoMtfprs false ∧
    toFpr (encode o (.ctfpr frt rb it)) o.poCtfpr o.xoCtfpr false ∧
    toFpr (encode o (.ctfprDot frt rb it)) o.poCtfpr o.xoCtfpr true ∧
    toFpr (encode o (.ctfprs frt rb it)) o.poCtfprs o.xoCtfprs false ∧
    toFpr (encode o (.ctfprsDot frt rb it)) o.poCtfprs o.xoCtfprs true ∧
    fromFpr (encode o (.cffpr rt frb cvm it)) false false ∧
    fromFpr (encode o (.cffprDot rt frb cvm it)) false true ∧
    fromFpr (encode o (.cffpro rt frb cvm it)) true false ∧
    fromFpr (encode o (.cffproDot rt frb cvm it)) true true

/-- spec/95_test_vectors.md 2.1, words under the test assignment T, one of each family (T is the spec's
invention for testing and the model's choice at reset, log entry 2). -/
def Obligations.DecodesTheWordsOfAssignmentT : Prop :=
  decodeTableWord 32 0x04800802 = some (.mffpr 4 1) ∧
  decodeTableWord 32 0x04801005 = some (.mffprsDot 4 2) ∧
  decodeTableWord 32 0x04201806 = some (.mtfpr 1 3) ∧
  decodeTableWord 32 0x0468380A = some (.ctfpr 3 7 .uw) ∧
  decodeTableWord 32 0x0420180D = some (.ctfprsDot 1 3 .w) ∧
  decodeTableWord 32 0x05110C0E = some (.cffpro 8 1 1 .d) ∧
  decodeTableWord 32 0x04B6080E = none ∧
  decodeTableWord 32 0x60000000 = none

/-- spec/20_memory.md R71 (the spec's decision D5): in either byte order the four bytes of a word form the
word again; at rising addresses they are its bytes from the most significant one under `BE` and from
the least significant one under `LE`. -/
def Obligations.ByteOrderPlacesTheWord : Prop :=
  ∀ (w : Word),
    (∀ order, wordOfBytes order (byteOfWord order w 0) (byteOfWord order w 1) (byteOfWord order w 2)
      (byteOfWord order w 3) = w) ∧
    ∀ k : Fin 4, byteOfWord .be w k = (w >>> (24 - 8 * k.val)).setWidth 8 ∧
      byteOfWord .le w k = (w >>> (8 * k.val)).setWidth 8

/-! ### The step -/

/-- spec/00_scope.md R31, spec/60_exceptions.md R198: a step runs the decoded instruction. Nothing is added
around `exec`: the advance of `CIA` is part of the instruction's meaning (spec/40_move_fpr.md R121). -/
def Obligations.StepRunsTheDecodedInstruction : Prop :=
  ∀ (s : State) (w : Word) (i : Instr), s.cia.toNat % 4 = 0 → s.fetchWord = some w →
    decodeWord s.params.opcodes s.params.reservedPolicy w = .ok i → step s = exec i s

/-- spec/20_memory.md R72, R75, spec/60_exceptions.md R197, R198 (1), (2): a misaligned `CIA` is
`FetchFault` whatever memory holds; an aligned one with a byte missing is `stop` (the model's rendering
of the spec's third outcome, log entry 13). -/
def Obligations.FetchFaultThenStop : Prop :=
  ∀ (s : State),
    (s.cia.toNat % 4 ≠ 0 → step s = .fault (.fetchFault s.cia)) ∧
    (s.cia.toNat % 4 = 0 → (∃ k, k < 4 ∧ Memory.read s.imem (s.cia.toNat + k) = none) →
      step s = .fault (.stop s.cia))

/-- spec/30_encoding.md R102, spec/60_exceptions.md R191, R192, R198 (3), (4): a fetched word without a key
faults as out of scope, one that is illegal as illegal, before `FP_AVAILABLE` is looked at. -/
def Obligations.UndecodedWordsFaultByName : Prop :=
  ∀ (s : State) (w : Word), s.cia.toNat % 4 = 0 → s.fetchWord = some w →
    ((∀ row ∈ s.params.opcodes.table, row.1 ≠ keyOf w) → step s = .fault (.outOfScopeInstruction w)) ∧
    (∀ b, s.params.opcodes.baseOf (keyOf w) = some b →
      s.params.reservedPolicy = .mustBeZero → w &&& b.reservedMask ≠ 0 →
      step s = .fault (.illegalInstruction w))

/-- spec/42_convert_from_fpr.md R161: a word with the key of `cffpr` and `CVM` 6 or 7 is an illegal
instruction for every value of its other fields, and nothing changes; of the legal values only 4 and 5
select the `default:` arm. -/
def Obligations.CvmSixAndSevenAreIllegal : Prop :=
  (∀ (s : State) (w : Word), s.cia.toNat % 4 = 0 → s.fetchWord = some w →
    s.params.opcodes.baseOf (keyOf w) = some .cffpr → 6 ≤ (fieldAt w 13 3).toNat →
    step s = .fault (.illegalInstruction w) ∧ (Fault.illegalInstruction w).stateAt s = s) ∧
  ∀ cvm : Cvm, Cvm.legal cvm = true → (convTypeOf cvm = .eType ↔ cvm = 4 ∨ cvm = 5)

/-- spec/42_convert_from_fpr.md R160 (1): the meanings themselves fault on an illegal `CVM`, with the
instruction's own word, before the availability check (log entry 17: the model's rendering for an
instruction that was not decoded). -/
def Obligations.IllegalCvmFaultsInTheMeanings : Prop :=
  ∀ (rt : GprNum) (frb : FprNum) (cvm : Cvm) (it : IntType) (s : State), 6 ≤ cvm.toNat →
    exec (.cffpr rt frb cvm it) s =
      .fault (.illegalInstruction (encode s.params.opcodes (.cffpr rt frb cvm it))) ∧
    exec (.cffprDot rt frb cvm it) s =
      .fault (.illegalInstruction (encode s.params.opcodes (.cffprDot rt frb cvm it))) ∧
    exec (.cffpro rt frb cvm it) s =
      .fault (.illegalInstruction (encode s.params.opcodes (.cffpro rt frb cvm it))) ∧
    exec (.cffproDot rt frb cvm it) s =
      .fault (.illegalInstruction (encode s.params.opcodes (.cffproDot rt frb cvm it)))

/-- spec/60_exceptions.md R193 (the spec's decision D13): with `FP_AVAILABLE` false every legal
instruction is `FPUnavailable`, and nothing changes. -/
def Obligations.EveryInstructionNeedsFloatingPoint : Prop :=
  ∀ (i : Instr) (s : State), i.WellFormed → s.params.fpAvailable = false →
    exec i s = .fault (.fpUnavailable s.cia) ∧ (Fault.fpUnavailable s.cia).stateAt s = s

/-- spec/20_memory.md R71 and log entry 12: an instruction loaded at an aligned `CIA` is what the next step
executes, in either byte order, and loading changes no other byte and keeps the canonical form. -/
def Obligations.LoadedWordIsExecuted : Prop :=
  ∀ (s : State) (w : Word), s.cia.toNat % 4 = 0 → Memory.wf s.imem = true →
    let t := s.withFetchWord 32 w.toNat
    (∀ i, decodeWord s.params.opcodes s.params.reservedPolicy w = .ok i → step t = exec i t) ∧
    (∀ a, (∀ k, k < 4 → a ≠ s.cia.toNat + k) → Memory.read t.imem a = Memory.read s.imem a) ∧
    Memory.wf t.imem = true ∧ t = { s with imem := t.imem }

/-! ### The whole machine -/

/-- spec/10_state.md R56, spec/70_reset_and_hazards.md R220: reset leaves `CIA` = `RESET_PC` and, for
parameters that meet the spec's premises, the invariant holds. That nothing is loaded is the model's
choice (log entry 12). -/
def Obligations.ResetEstablishesTheInvariant : Prop :=
  (∀ p : Params, p.WellFormed → (State.resetWith p).Inv ∧ (State.resetWith p).cia = p.resetPc) ∧
    State.reset.Inv

/-- spec/10_state.md R44, spec/20_memory.md R70, R75: every step keeps the canonical form of memory, a
`CIA` that is a multiple of 4, and the premises on the parameters. -/
def Obligations.EveryStepKeepsTheInvariant : Prop :=
  ∀ (s t : State), s.Inv → step s = .next t → t.Inv

/-- spec/20_memory.md R70, R79, spec/00_scope.md R6: no instruction changes a byte of instruction memory or
a parameter, also when it ends in a fault, so a fetch from one address always gives the same word. -/
def Obligations.NoInstructionChangesMemoryOrParameters : Prop :=
  ∀ (i : Instr) (s : State),
    (∀ t, exec i s = .next t → (∀ a, Memory.read t.imem a = Memory.read s.imem a) ∧ t.imem = s.imem ∧
      t.params = s.params ∧ ∀ c, ({ t with cia := c }).fetchWord = ({ s with cia := c }).fetchWord) ∧
    ∀ f, exec i s = .fault f → (f.stateAt s).imem = s.imem ∧ (f.stateAt s).params = s.params

/-- spec/10_state.md R44 (the spec's decision D4): a next state has `CIA` + 4, wrapping; a fault leaves
`CIA` at the instruction. -/
def Obligations.CiaAdvancesByFourOrStays : Prop :=
  ∀ (s : State),
    (∀ t, step s = .next t → t.cia = s.cia + 4) ∧ (∀ f, step s = .fault f → (f.stateAt s).cia = s.cia)

/-- spec/10_state.md R44, R75: after `k` steps the machine stands `4 * k` bytes further, with the program
and the parameters it started with: every run is a straight line. -/
def Obligations.RunsAreStraightLines : Prop :=
  ∀ (k : Nat) (s t : State), Sys2Proof.core.run k s = .next t →
    t.cia = s.cia + BitVec.ofNat 64 (4 * k) ∧ t.imem = s.imem ∧ t.params = s.params

/-- spec/10_state.md R45, R47, R49: no instruction writes a control or reserved bit of `FPSCR`, `CR2` to
`CR7`, or a bit of `XER` other than `SO`, `OV`, `OV32`, also when it ends in a fault. -/
def Obligations.NoInstructionWritesControlState : Prop :=
  ∀ (i : Instr) (s t : State),
    (exec i s = .next t ∨ ∃ f, exec i s = .fault f ∧ t = f.stateAt s) →
    FPSCR.SameControl s.fpscr t.fpscr ∧ CR.SameUpper s.cr t.cr ∧ XER.SameOther s.xer t.xer

/-- spec/10_state.md R48, R49, spec/42_convert_from_fpr.md R178 (j): `FX`, every exception bit and `XER.SO`
are never cleared, also when the instruction ends in a fault. -/
def Obligations.StickyBitsAreNeverCleared : Prop :=
  ∀ (i : Instr) (s t : State),
    (exec i s = .next t ∨ ∃ f, exec i s = .fault f ∧ t = f.stateAt s) →
    FPSCR.StickyLe s.fpscr t.fpscr ∧ (s.xer.so = true → t.xer.so = true)

/-- spec/00_scope.md R28: `FX` is set by an instruction exactly when one of the exception bits goes from 0
to 1. -/
def Obligations.FxRecordsNewExceptions : Prop :=
  ∀ (i : Instr) (s t : State),
    (exec i s = .next t ∨ ∃ f, exec i s = .fault f ∧ t = f.stateAt s) →
    (t.fpscr.fx = true ↔
      s.fpscr.fx = true ∨ ∃ b, s.fpscr.exception b = false ∧ t.fpscr.exception b = true)

/-- spec/60_exceptions.md R196: the only exception bits an instruction changes are `XX`, `VXSNAN` and
`VXCVI`. -/
def Obligations.OnlyThreeExceptionsCanOccur : Prop :=
  ∀ (i : Instr) (s t : State) (b : FpException),
    (exec i s = .next t ∨ ∃ f, exec i s = .fault f ∧ t = f.stateAt s) →
    t.fpscr.exception b ≠ s.fpscr.exception b → b.inScope

/-- spec/10_state.md R41, R57: of the GPRs and FPRs a next state differs in at most the target: a GPR for
the instructions that name `RT`, an FPR for those that name `FRT`. (`CIA`, `CR`, `XER` and `FPSCR` are
no subject of this statement.) -/
def Obligations.OnlyTheTargetRegisterChanges : Prop :=
  ∀ (s t : State) (n m : Fin 32) (cvm : Cvm) (it : IntType),
    (∀ i ∈ [Instr.mffpr n m, .mffprDot n m, .mffprs n m, .mffprsDot n m, .cffpr n m cvm it,
        .cffprDot n m cvm it, .cffpro n m cvm it, .cffproDot n m cvm it], exec i s = .next t →
      t.fpr = s.fpr ∧ ∀ r, r ≠ n → t.readGpr r = s.readGpr r) ∧
    (∀ i ∈ [Instr.mtfpr n m, .mtfprs n m, .ctfpr n m it, .ctfprDot n m it, .ctfprs n m it,
        .ctfprsDot n m it], exec i s = .next t →
      t.gpr = s.gpr ∧ ∀ r, r ≠ n → t.readFpr r = s.readFpr r)

/-- spec/60_exceptions.md R194, R202: a legal instruction with floating point available and `FE_MODE` =
`ignored` completes, in whatever state. -/
def Obligations.LegalInstructionsComplete : Prop :=
  ∀ (i : Instr) (s : State), i.WellFormed → s.params.fpAvailable = true →
    s.params.feMode = .ignored → ∃ t, exec i s = .next t ∧ t.cia = s.cia + 4

/-- spec/60_exceptions.md R194, R199 (the spec's decisions D12, D29): an `FPEnabledException` leaves exactly
the state that the same instruction reaches with `FE_MODE` = `ignored`, less the advance of `CIA`. -/
def Obligations.TrapStateIsTheCompletedStateAtTheSameCia : Prop :=
  ∀ (i : Instr) (s after : State) (c : Dword), exec i s = .fault (.fpEnabledException c after) →
    c = s.cia ∧ after.cia = s.cia ∧ after.params.feMode = .trap ∧
    exec i (s.withFeMode .ignored) =
      .next { after.withFeMode .ignored with cia := s.cia + 4 }

/-- spec/60_exceptions.md R194 (the spec's decision D12): a trap comes from `fp_enabled` of this very
execution: the conversion's own inexactness with `XE` set (`ctfpr` for `IT` 2 and 3 only), or the
conversion's own invalid operation with `VE` set. The moves never trap, and a stale status bit or `FEX`
never makes an instruction trap. -/
def Obligations.TrapsComeFromOwnEnabledExceptions : Prop :=
  ∀ (i : Instr) (s after : State) (c : Dword), exec i s = .fault (.fpEnabledException c after) →
    let inexact (p : Nat) (rb : GprNum) (it : IntType) :=
      s.fpscr.xe = true ∧ after.fpscr.xx = true ∧ after.fpscr.fi = true ∧
        (roundToPrecision p (RoundMode.ofRN s.fpscr.rn)
          (BfpFinite.ofInt (operandInt it s.gpr[rb]))).xx = true
    let fromFpr (frb : FprNum) (cvm : Cvm) (it : IntType) :=
      let x := convertFromBfp64 cvm it s.fpscr.rn s.fpr[frb]
      s.fpscr.ve = true ∧ x.overflow = true ∧ after.fpscr.vxcvi = true ∨
        s.fpscr.xe = true ∧ x.xx = true ∧ after.fpscr.xx = true ∧ after.fpscr.fi = true
    s.params.feMode = .trap ∧ after.fpscr.fex = true ∧
    match i with
    | .mffpr _ _ => False
    | .mffprDot _ _ => False
    | .mffprs _ _ => False
    | .mffprsDot _ _ => False
    | .mtfpr _ _ => False
    | .mtfprs _ _ => False
    | .ctfpr _ rb it => (it = .d ∨ it = .ud) ∧ inexact 53 rb it
    | .ctfprDot _ rb it => (it = .d ∨ it = .ud) ∧ inexact 53 rb it
    | .ctfprs _ rb it => inexact 24 rb it
    | .ctfprsDot _ rb it => inexact 24 rb it
    | .cffpr _ frb cvm it => fromFpr frb cvm it
    | .cffprDot _ frb cvm it => fromFpr frb cvm it
    | .cffpro _ frb cvm it => fromFpr frb cvm it
    | .cffproDot _ frb cvm it => fromFpr frb cvm it

/-! ### Registers made of fields -/

/-- spec/10_state.md R45, R47, R49: the words of `CR`, `XER` and `FPSCR` hold every stored bit. -/
def Obligations.RegisterWordsHoldEveryField : Prop :=
  (∀ c, CR.ofBits (CR.toBits c) = c) ∧ (∀ x, XER.ofBits (XER.toBits x) = x) ∧
    ∀ f, FPSCR.ofBits (FPSCR.toBits f) = f

/-- spec/10_state.md R52, R53: bits 33 and 34 of the `FPSCR` word are `FEX` and `VX` by their definitions,
and bits 32:35 are what a floating-point record form copies into `CR1`. -/
def Obligations.FpscrSummaryBits : Prop :=
  ∀ f : FPSCR,
    (FPSCR.toBits f).getMsbD 34 = (f.vxsnan || f.vxisi || f.vxidi || f.vxzdz || f.vximz || f.vxvc ||
      f.vxsoft || f.vxsqrt || f.vxcvi) ∧
    (FPSCR.toBits f).getMsbD 33 = ((f.vx && f.ve) || (f.ox && f.oe) || (f.ux && f.ue) ||
      (f.zx && f.ze) || (f.xx && f.xe)) ∧
    (FPSCR.toBits f >>> 28).setWidth 4 = cr1Of f

/-! ### Move To/From Floating-Point Register -/

/-- spec/40_move_fpr.md R122: `mffpr` copies all 64 bits and changes nothing else. `CIA` + 4 and
`FPUnavailable` are R121 (the spec's decisions D4, D13), the zero reserved bits R96 and R109 (D3). -/
def Obligations.MffprCopiesTheFpr : Prop :=
  ∀ (rt : GprNum) (frb : FprNum) (s : State),
    (s.params.fpAvailable = true → exec (.mffpr rt frb) s =
      .next { s with gpr := s.gpr.set rt s.fpr[frb], cia := s.cia + 4 }) ∧
    (s.params.fpAvailable = false → exec (.mffpr rt frb) s = .fault (.fpUnavailable s.cia)) ∧
    ∀ o : Opcodes, encode o (.mffpr rt frb) =
      o.poMffpr ++ BitVec.ofNat 5 rt ++ 0#5 ++ BitVec.ofNat 5 frb ++ o.xoMffpr ++ 0#1

/-- spec/40_move_fpr.md R123 (the spec's decision D7): `mffpr.` also sets `CR0` by the sign of the copied
pattern and `XER.SO`. -/
def Obligations.MffprDotRecordsTheSign : Prop :=
  ∀ (rt : GprNum) (frb : FprNum) (s : State), s.params.fpAvailable = true →
    exec (.mffprDot rt frb) s =
      .next { s with
        gpr := s.gpr.set rt s.fpr[frb]
        cr := { s.cr with cr0 := signCr0 s.fpr[frb] s.xer.so }
        cia := s.cia + 4 }

/-- spec/40_move_fpr.md R124 (the spec's decision D16): `mffprs` writes `SINGLE` of the source,
zero-extended; where `SINGLE` is undefined an arbitrary word, and one draw is used up. -/
def Obligations.MffprsWritesTheSingle : Prop :=
  ∀ (rt : GprNum) (frb : FprNum) (s : State), s.params.fpAvailable = true →
    (∀ w, single s.fpr[frb] = some w → exec (.mffprs rt frb) s =
      .next { s with gpr := s.gpr.set rt (w.setWidth 64), cia := s.cia + 4 }) ∧
    (single s.fpr[frb] = none → exec (.mffprs rt frb) s =
      .next { s with
        gpr := s.gpr.set rt ((Config.draw 32 s.draws).setWidth 64)
        cia := s.cia + 4
        draws := s.draws + 1 })

/-- spec/40_move_fpr.md R125 (the spec's decisions D7, D28): `mffprs.` sets `CR0` from the zero-extended
value, so `LT` is never set; also for a drawn word, of which nothing is assumed. -/
def Obligations.MffprsDotNeverRecordsLessThan : Prop :=
  ∀ (rt : GprNum) (frb : FprNum) (s : State), s.params.fpAvailable = true →
    ∃ w : Word, (∀ v, single s.fpr[frb] = some v → w = v) ∧
      exec (.mffprsDot rt frb) s =
        .next { s with
          gpr := s.gpr.set rt (w.setWidth 64)
          cr := { s.cr with cr0 := (if w = 0 then 0b0010 else 0b0100) ||| (if s.xer.so then 0b0001 else 0) }
          cia := s.cia + 4
          draws := if single s.fpr[frb] = none then s.draws + 1 else s.draws }

/-- spec/40_move_fpr.md R126: `mtfpr` copies all 64 bits and changes nothing else. `CIA` + 4 and
`FPUnavailable` are R121 (the spec's decisions D4, D13), the zero reserved bits R96 and R109 (D3). -/
def Obligations.MtfprCopiesTheGpr : Prop :=
  ∀ (frt : FprNum) (rb : GprNum) (s : State),
    (s.params.fpAvailable = true → exec (.mtfpr frt rb) s =
      .next { s with fpr := s.fpr.set frt s.gpr[rb], cia := s.cia + 4 }) ∧
    (s.params.fpAvailable = false → exec (.mtfpr frt rb) s = .fault (.fpUnavailable s.cia)) ∧
    ∀ o : Opcodes, encode o (.mtfpr frt rb) =
      o.poMtfpr ++ BitVec.ofNat 5 frt ++ 0#5 ++ BitVec.ofNat 5 rb ++ o.xoMtfpr ++ 0#1

/-- spec/40_move_fpr.md R127: `mtfprs` writes `DOUBLE` of the low word into `FPR[FRT]`; it is defined for
every word, exact for every number, and the high word is ignored. -/
def Obligations.MtfprsWritesTheDouble : Prop :=
  ∀ (frt : FprNum) (rb : GprNum) (s : State), s.params.fpAvailable = true →
    exec (.mtfprs frt rb) s =
      .next { s with fpr := s.fpr.set frt (double (s.gpr[rb].setWidth 32)), cia := s.cia + 4 } ∧
    bfpConvertFromBfp64 (double (s.gpr[rb].setWidth 32)) = bfpConvertFromBfp32 (s.gpr[rb].setWidth 32)

/-- spec/40_move_fpr.md section 6: `mtfprs` then `mffprs` returns the low word, `mtfpr` then `mffpr` the
whole register. -/
def Obligations.MovesThereAndBack : Prop :=
  ∀ (f : FprNum) (rb rt : GprNum) (s t u : State),
    (exec (.mtfprs f rb) s = .next t → exec (.mffprs rt f) t = .next u →
      u.readGpr rt = ((s.readGpr rb).setWidth 32).setWidth 64) ∧
    (exec (.mtfpr f rb) s = .next t → exec (.mffpr rt f) t = .next u →
      u.readGpr rt = s.readGpr rb)

/-! ### `SINGLE` and `DOUBLE` -/

/-- spec/00_scope.md R29: `DOUBLE` keeps the value of every binary32 word, Infinities and the kind of a NaN
included, and a NaN keeps its payload. -/
def Obligations.DoubleKeepsTheValue : Prop :=
  ∀ w : Word, bfpConvertFromBfp64 (double w) = bfpConvertFromBfp32 w ∧
    (fieldAt w 1 8 = 255 → fieldAt (double w) 12 52 = fieldAt w 9 23 ++ 0#29)

/-- spec/00_scope.md R29, the closed form of a denormal: the loop gives exponent `k + 874` and fraction
`(F - 2^k) * 2^(52 - k)` with `k` the base-2 logarithm of `F`. -/
def Obligations.DoubleOfDenormalInClosedForm : Prop :=
  ∀ w : Word, fieldAt w 1 8 = 0 → fieldAt w 9 23 ≠ 0 →
    let frac := (fieldAt w 9 23).toNat
    let k := frac.log2
    (fieldAt (double w) 1 11).toNat = k + 874 ∧
      (fieldAt (double w) 12 52).toNat = (frac - 2 ^ k) * 2 ^ (52 - k) ∧
      fieldAt (double w) 0 1 = fieldAt w 0 1

/-- spec/00_scope.md R30: `SINGLE` is undefined exactly for the non-zero patterns of biased exponent below
874, and its second arm is the truncated shift of the significand. -/
def Obligations.SingleInClosedForm : Prop :=
  ∀ f : Dword,
    let e := (fieldAt f 1 11).toNat
    (single f = none ↔ fieldAt f 1 63 ≠ 0 ∧ e < 874) ∧
    (874 ≤ e → e ≤ 896 → ∃ w, single f = some w ∧ fieldAt w 0 1 = fieldAt f 0 1 ∧ fieldAt w 1 8 = 0 ∧
      (fieldAt w 9 23).toNat = (2 ^ 52 + (fieldAt f 12 52).toNat) / 2 ^ (897 - e + 29) % 2 ^ 23) ∧
    (896 < e → ∃ w, single f = some w ∧ fieldAt w 0 2 = fieldAt f 0 2 ∧ fieldAt w 2 30 = fieldAt f 5 30)

/-- spec/40_move_fpr.md section 6: `SINGLE(DOUBLE(w)) = w` for every word. -/
def Obligations.SingleInvertsDouble : Prop :=
  ∀ w : Word, single (double w) = some w

/-! ### Comparison and rounding -/

/-- spec/00_scope.md R19 (general knowledge there): finite values compare as their numbers, -Infinity is
below and +Infinity above every finite value, each equal to itself only; with a NaN no comparison holds;
otherwise exactly one of less, equal and greater holds, less is transitive, and +0 equals -0. -/
def Obligations.ComparisonsOrderTheExtendedReals : Prop :=
  (∀ x y : BfpFinite,
    (bfpCompareLt (.fin x) (.fin y) = true ↔ x.signedUnits < y.signedUnits) ∧
    (bfpCompareEq (.fin x) (.fin y) = true ↔ x.signedUnits = y.signedUnits) ∧
    (bfpCompareGt (.fin x) (.fin y) = true ↔ y.signedUnits < x.signedUnits)) ∧
  (∀ x : BfpFinite,
    bfpCompareLt (.inf true) (.fin x) = true ∧ bfpCompareGt (.fin x) (.inf true) = true ∧
    bfpCompareLt (.fin x) (.inf false) = true ∧ bfpCompareGt (.inf false) (.fin x) = true) ∧
  (bfpCompareLt (.inf true) (.inf false) = true ∧ bfpCompareGt (.inf false) (.inf true) = true ∧
    ∀ neg, bfpCompareEq (.inf neg) (.inf neg) = true) ∧
  (∀ x y : Bfp, isNaN x = true ∨ isNaN y = true →
    bfpCompareLt x y = false ∧ bfpCompareEq x y = false ∧ bfpCompareGt x y = false) ∧
  (∀ x y : Bfp, isNaN x = false → isNaN y = false →
    (bfpCompareLt x y = true ∧ bfpCompareEq x y = false ∧ bfpCompareGt x y = false) ∨
    (bfpCompareLt x y = false ∧ bfpCompareEq x y = true ∧ bfpCompareGt x y = false) ∨
    (bfpCompareLt x y = false ∧ bfpCompareEq x y = false ∧ bfpCompareGt x y = true)) ∧
  (∀ x y z : Bfp, bfpCompareLt x y = true → bfpCompareLt y z = true → bfpCompareLt x z = true) ∧
  bfpCompareEq (.fin ⟨false, 0⟩) (.fin ⟨true, 0⟩) = true

/-- spec/00_scope.md R20: rounding to an integral value gives the nearest integer of the mode, with the sign
of the source also for a zero. -/
def Obligations.RoundToIntegerIsNearest : Prop :=
  ∀ (mode : RoundMode) (x : BfpFinite), ∃ t : Int,
    roundToInteger mode (.fin x) = .fin ⟨x.neg, t.natAbs * unitsPerOne⟩ ∧
      NearestInteger mode x.signedUnits t ∧ (x.neg = true → t ≤ 0) ∧ (x.neg = false → 0 ≤ t)

/-- spec/00_scope.md R21 to R23: an integer of at most 64 bits is rounded to the best integer of 53 or 24
significant bits in the mode, `xx_flag` says inexact and `inc_flag` that the magnitude grew. -/
def Obligations.IntegerRoundingIsCorrect : Prop :=
  ∀ (p : Nat) (mode : RoundMode) (n : Int), p = 53 ∨ p = 24 → n.natAbs < 2 ^ 64 →
    let x := roundToPrecision p mode (BfpFinite.ofInt n)
    ∃ r : Int, x.value = BfpFinite.ofInt r ∧ RoundsTo p mode n r ∧ x.xx = decide (r ≠ n) ∧
      x.inc = decide (n.natAbs < r.natAbs)

/-- spec/00_scope.md R16, R17: the encodings are exact: an integer of 53 (24) significant bits and
magnitude at most 2^64, encoded in binary64 (binary32), has its own value. -/
def Obligations.IntegerEncodingsAreExact : Prop :=
  ∀ r : Int, r.natAbs ≤ 2 ^ 64 →
    (FitsIn 53 r → bfpConvertFromBfp64 (bfp64ConvertFromBfp (BfpFinite.ofInt r)) =
      .fin (BfpFinite.ofInt r)) ∧
    (FitsIn 24 r → bfpConvertFromBfp32 (bfp32ConvertFromBfp (BfpFinite.ofInt r)) =
      .fin (BfpFinite.ofInt r))

/-! ### Convert To Floating-Point Register -/

/-- spec/41_convert_to_fpr.md R141, R142, the 32-bit types: the exact encoding of the integer in the low
word; `FPSCR` is untouched and no exception occurs, whatever `FE_MODE` and the enables are. `CR1`
receives the four bits as they are (the spec's decision D8). -/
def Obligations.CtfprOfThirtyTwoBitsIsExact : Prop :=
  ∀ (frt : FprNum) (rb : GprNum) (it : IntType) (s : State), s.params.fpAvailable = true →
    it = .w ∨ it = .uw →
    let v := bfp64ConvertFromBfp (BfpFinite.ofInt (operandInt it s.gpr[rb]))
    exec (.ctfpr frt rb it) s = .next { s with fpr := s.fpr.set frt v, cia := s.cia + 4 } ∧
    exec (.ctfprDot frt rb it) s =
      .next { s with fpr := s.fpr.set frt v, cr := { s.cr with cr1 := cr1Of s.fpscr }, cia := s.cia + 4 } ∧
    bfpConvertFromBfp64 v = .fin (BfpFinite.ofInt (operandInt it s.gpr[rb]))

/-- spec/41_convert_to_fpr.md R141, R142, the 64-bit types: the rounded integer is encoded, `FPRF` is its
class, `FR` and `FI` are the flags of the rounding, `XX` and `FX` record an inexact result. -/
def Obligations.CtfprOfSixtyFourBitsRounds : Prop :=
  ∀ (frt : FprNum) (rb : GprNum) (it : IntType) (s : State), s.params.fpAvailable = true →
    it = .d ∨ it = .ud →
    let n := operandInt it s.gpr[rb]
    let x := roundToPrecision 53 (RoundMode.ofRN s.fpscr.rn) (BfpFinite.ofInt n)
    let f := { s.fpscr.withExceptions false false x.xx with
      fprf := integerClass n, fr := x.inc, fi := x.xx }
    let t := { s with fpr := s.fpr.set frt (bfp64ConvertFromBfp x.value), fpscr := f }
    let u := { t with cr := { s.cr with cr1 := cr1Of f } }
    (s.params.feMode = .ignored ∨ x.xx = false ∨ s.fpscr.xe = false →
      exec (.ctfpr frt rb it) s = .next { t with cia := s.cia + 4 } ∧
      exec (.ctfprDot frt rb it) s = .next { u with cia := s.cia + 4 }) ∧
    (s.params.feMode = .trap ∧ x.xx = true ∧ s.fpscr.xe = true →
      exec (.ctfpr frt rb it) s = .fault (.fpEnabledException s.cia t) ∧
      exec (.ctfprDot frt rb it) s = .fault (.fpEnabledException s.cia u))

/-- spec/41_convert_to_fpr.md R143, R144: every integer type is rounded to 24 bits; the register receives
the binary64 encoding of the rounded integer. -/
def Obligations.CtfprsRoundsEveryType : Prop :=
  ∀ (frt : FprNum) (rb : GprNum) (it : IntType) (s : State), s.params.fpAvailable = true →
    let n := operandInt it s.gpr[rb]
    let x := roundToPrecision 24 (RoundMode.ofRN s.fpscr.rn) (BfpFinite.ofInt n)
    let f := { s.fpscr.withExceptions false false x.xx with
      fprf := integerClass n, fr := x.inc, fi := x.xx }
    let t := { s with fpr := s.fpr.set frt (bfp64ConvertFromBfp x.value), fpscr := f }
    let u := { t with cr := { s.cr with cr1 := cr1Of f } }
    (s.params.feMode = .ignored ∨ x.xx = false ∨ s.fpscr.xe = false →
      exec (.ctfprs frt rb it) s = .next { t with cia := s.cia + 4 } ∧
      exec (.ctfprsDot frt rb it) s = .next { u with cia := s.cia + 4 }) ∧
    (s.params.feMode = .trap ∧ x.xx = true ∧ s.fpscr.xe = true →
      exec (.ctfprs frt rb it) s = .fault (.fpEnabledException s.cia t) ∧
      exec (.ctfprsDot frt rb it) s = .fault (.fpEnabledException s.cia u))

/-- spec/41_convert_to_fpr.md R141, R143, spec/10_state.md R43, R50: what the FPR holds afterwards is, as a
number, the source integer rounded as IEEE 754 says in the mode `FPSCR.RN` encodes. -/
def Obligations.ConvertedIntegersAreCorrectlyRounded : Prop :=
  ∀ (frt : FprNum) (rb : GprNum) (it : IntType) (s t : State),
    let n := operandInt it (s.readGpr rb)
    let holds (p : Nat) := ∃ r : Int, bfpConvertFromBfp64 (t.readFpr frt) = .fin (BfpFinite.ofInt r) ∧
      RoundsTo p (RoundMode.ofRN s.fpscr.rn) n r ∧ t.fpscr.fi = decide (r ≠ n) ∧
      t.fpscr.fr = decide (n.natAbs < r.natAbs) ∧ t.fpscr.fprf = integerClass r
    (it = .d ∨ it = .ud → exec (.ctfpr frt rb it) s = .next t ∨ exec (.ctfprDot frt rb it) s = .next t →
      holds 53) ∧
    (exec (.ctfprs frt rb it) s = .next t ∨ exec (.ctfprsDot frt rb it) s = .next t → holds 24)

/-! ### Convert From Floating-Point Register -/

/-- spec/42_convert_from_fpr.md R177 (the spec's summary, derived there from R163 to R170): the result and
`overflow` for every source, by the integer it rounds to. -/
def Obligations.CffprResultFollowsTheSummary : Prop :=
  ∀ (cvm : Cvm) (it : IntType) (rn : BitVec 2) (frb : Dword), cvm.toNat ≤ 5 →
    let c := convertFromBfp64 cvm it rn frb
    let pType := cvm.toNat / 2 = 0
    let eType := cvm.toNat / 2 = 2
    let nan := c.overflow = true ∧ c.result = if pType then typePattern it (typeMin it) else 0
    match bfpConvertFromBfp64 frb with
    | .qnan => nan
    | .snan => nan
    | .inf neg => c.overflow = true ∧
        c.result = if eType then 0 else typePattern it (if neg then typeMin it else typeMax it)
    | .fin x => ∀ v : Int, NearestInteger (conversionMode cvm rn) x.signedUnits v →
        (typeMin it ≤ v ∧ v ≤ typeMax it → c.overflow = false ∧ c.result = typePattern it v) ∧
        (typeMax it < v → c.overflow = true ∧
          c.result = typePattern it (if eType then v else typeMax it)) ∧
        (v < typeMin it → c.overflow = true ∧
          c.result = typePattern it (if eType then v else typeMin it))

/-- spec/42_convert_from_fpr.md R169 and its closed form (derived there), R170: the transient flags by the
integer the source rounds to; they do not depend on the conversion type. -/
def Obligations.CffprFlagsInClosedForm : Prop :=
  ∀ (cvm : Cvm) (it : IntType) (rn : BitVec 2) (frb : Dword), cvm.toNat ≤ 5 →
    let c := convertFromBfp64 cvm it rn frb
    c.vxcvi = c.overflow ∧ (c.vxsnan = true ↔ bfpConvertFromBfp64 frb = .snan) ∧
    (c.overflow = true → c.xx = false ∧ c.inc = false) ∧
    ∀ (x : BfpFinite) (v : Int), bfpConvertFromBfp64 frb = .fin x →
      NearestInteger (conversionMode cvm rn) x.signedUnits v →
      c.overflow = decide (v < typeMin it ∨ typeMax it < v) ∧
      (c.overflow = false → c.xx = decide (x.signedUnits ≠ v * unitsPerOne) ∧
        c.inc = decide (x.units < v.natAbs * unitsPerOne))

/-- spec/42_convert_from_fpr.md R170 to R176, no enabled invalid operation and no trap: the four mnemonics
write the result, draw `FPRF` (nothing is assumed of it), set the flags, and with `OE` and `Rc` also
`XER` and `CR0` (the spec's decisions D7, D9, D17). Nothing else changes. -/
def Obligations.CffprWritesTheResult : Prop :=
  ∀ (rt : GprNum) (frb : FprNum) (cvm : Cvm) (it : IntType) (s : State),
    s.params.fpAvailable = true → cvm.toNat ≤ 5 →
    let c := convertFromBfp64 cvm it s.fpscr.rn s.fpr[frb]
    s.fpscr.ve = false ∨ c.overflow = false →
    s.params.feMode = .ignored ∨ c.xx = false ∨ s.fpscr.xe = false →
    let f := { s.fpscr.withExceptions c.vxsnan c.overflow c.xx with
      fprf := Config.draw 5 s.draws, fr := c.inc, fi := c.xx }
    let t := { s with
      gpr := s.gpr.set rt c.result, fpscr := f, cia := s.cia + 4, draws := s.draws + 1 }
    let so := s.xer.so || c.overflow
    let x := { s.xer with ov := c.overflow, ov32 := c.overflow, so := so }
    exec (.cffpr rt frb cvm it) s = .next t ∧
    exec (.cffprDot rt frb cvm it) s =
      .next { t with cr := { s.cr with cr0 := signCr0 c.result s.xer.so } } ∧
    exec (.cffpro rt frb cvm it) s = .next { t with xer := x } ∧
    exec (.cffproDot rt frb cvm it) s =
      .next { t with xer := x, cr := { s.cr with cr0 := signCr0 c.result so } }

/-- spec/42_convert_from_fpr.md R170 to R172, spec/60_exceptions.md R195, `VE` set and the conversion
invalid, no trap: `RT` and `FPRF` are kept, `FR` and `FI` cleared, `XER` still updated, and `CR0` is
three drawn bits and `SO` (the spec's decisions D10, D18). Nothing else changes. -/
def Obligations.CffprWithholdsTheResult : Prop :=
  ∀ (rt : GprNum) (frb : FprNum) (cvm : Cvm) (it : IntType) (s : State),
    s.params.fpAvailable = true → cvm.toNat ≤ 5 → s.params.feMode = .ignored →
    let c := convertFromBfp64 cvm it s.fpscr.rn s.fpr[frb]
    s.fpscr.ve = true → c.overflow = true →
    let f := { s.fpscr.withExceptions c.vxsnan true false with fr := false, fi := false }
    let t := { s with fpscr := f, cia := s.cia + 4 }
    let x := { s.xer with ov := true, ov32 := true, so := true }
    let drawn := Config.draw 3 s.draws
    exec (.cffpr rt frb cvm it) s = .next t ∧
    exec (.cffprDot rt frb cvm it) s =
      .next { t with cr := { s.cr with cr0 := drawn ++ BitVec.ofBool s.xer.so }, draws := s.draws + 1 } ∧
    exec (.cffpro rt frb cvm it) s = .next { t with xer := x } ∧
    exec (.cffproDot rt frb cvm it) s =
      .next { t with xer := x, cr := { s.cr with cr0 := drawn ++ 1#1 }, draws := s.draws + 1 }

/-- spec/60_exceptions.md R194, R195 (the spec's decision D12): with `FE_MODE` = `trap` an enabled invalid
operation of `cffpr` ends in `FPEnabledException` with `RT` unchanged and the bits set. -/
def Obligations.CffprTrapsOnEnabledInvalid : Prop :=
  ∀ (rt : GprNum) (frb : FprNum) (cvm : Cvm) (it : IntType) (s : State),
    s.params.fpAvailable = true → cvm.toNat ≤ 5 → s.params.feMode = .trap → s.fpscr.ve = true →
    (convertFromBfp64 cvm it s.fpscr.rn s.fpr[frb]).overflow = true →
    ∀ i ∈ [Instr.cffpr rt frb cvm it, .cffprDot rt frb cvm it, .cffpro rt frb cvm it,
        .cffproDot rt frb cvm it],
      ∃ after, exec i s = .fault (.fpEnabledException s.cia after) ∧ after.gpr = s.gpr ∧
        after.fpscr.fprf = s.fpscr.fprf ∧ after.fpscr.vxcvi = true ∧ after.fpscr.fr = false ∧
        after.fpscr.fi = false ∧ after.fpscr.fex = true ∧ after.cia = s.cia

/-- spec/42_convert_from_fpr.md R164, spec/10_state.md R50: the rounding by `CVM` and `FPSCR.RN`; a NaN or
an Infinity is passed through; the integer type plays no part. -/
def Obligations.CvmAndRnSelectTheRounding : Prop :=
  (RoundMode.ofRN 0b00 = .nearestEven ∧ RoundMode.ofRN 0b01 = .towardZero ∧
    RoundMode.ofRN 0b10 = .towardPosInf ∧ RoundMode.ofRN 0b11 = .towardNegInf) ∧
  ∀ (cvm : Cvm) (src : Bfp),
    (cvm.toNat % 2 = 1 → ∀ rn, roundSource cvm rn src = bfpRoundToIntegerTrunc src) ∧
    (cvm.toNat % 2 = 0 →
      roundSource cvm 0b00 src = bfpRoundToIntegerNearEven src ∧
      roundSource cvm 0b01 src = bfpRoundToIntegerTrunc src ∧
      roundSource cvm 0b10 src = bfpRoundToIntegerCeil src ∧
      roundSource cvm 0b11 src = bfpRoundToIntegerFloor src) ∧
    ((isNaN src = true ∨ isInf src = true) → ∀ rn, roundSource cvm rn src = src)

/-- spec/42_convert_from_fpr.md R165, R166: the `result` of P-Type (`CVM` 0, 1) and S-Type (`CVM` 2, 3)
before narrowing, for an integral `rnd` of magnitude `m`. -/
def Obligations.SaturatingResultTables : Prop :=
  ∀ (it : IntType),
    let least : Dword := match it with
      | .w => 0xFFFFFFFF80000000
      | .uw => 0
      | .d => 0x8000000000000000
      | .ud => 0
    let greatest : Dword := match it with
      | .w => 0x000000007FFFFFFF
      | .uw => 0x00000000FFFFFFFF
      | .d => 0x7FFFFFFFFFFFFFFF
      | .ud => 0xFFFFFFFFFFFFFFFF
    (∀ rnd, convertedResult 0 it rnd = pTypeResult it rnd ∧ convertedResult 1 it rnd = pTypeResult it rnd ∧
      convertedResult 2 it rnd = sTypeResult it rnd ∧ convertedResult 3 it rnd = sTypeResult it rnd) ∧
    (∀ rnd, isNaN rnd = true → pTypeResult it rnd = least ∧ sTypeResult it rnd = 0) ∧
    (∀ rnd, isNaN rnd = false → sTypeResult it rnd = pTypeResult it rnd) ∧
    pTypeResult it (.inf false) = greatest ∧ pTypeResult it (.inf true) = least ∧
    ∀ (neg : Bool) (m : Nat),
      let v : Int := if neg then -(m : Int) else m
      let rnd : Bfp := .fin ⟨neg, m * unitsPerOne⟩
      (typeMax it < v → pTypeResult it rnd = greatest) ∧
      (v < typeMin it → pTypeResult it rnd = least) ∧
      (typeMin it ≤ v → v ≤ typeMax it → pTypeResult it rnd = BitVec.ofInt 64 v)

/-- spec/42_convert_from_fpr.md R168: the final result and the integer it denotes, by `IT`; after P-Type and
S-Type the narrowing changes nothing; E-Type's wrapped 2^31 becomes -2^31. -/
def Obligations.NarrowingTable : Prop :=
  (∀ r : Dword,
    narrowResult .w r = (r.setWidth 32).signExtend 64 ∧
    narrowResult .uw r = (r.setWidth 32).zeroExtend 64 ∧
    narrowResult .d r = r ∧ narrowResult .ud r = r ∧
    resultBfp .w r = BfpFinite.ofInt (r.setWidth 32).toInt ∧
    resultBfp .uw r = BfpFinite.ofInt (r.setWidth 32).toNat ∧
    resultBfp .d r = BfpFinite.ofInt r.toInt ∧ resultBfp .ud r = BfpFinite.ofInt r.toNat) ∧
  ∀ (it : IntType) (mode : RoundMode) (src : Bfp),
    narrowResult it (pTypeResult it (roundToInteger mode src)) =
      pTypeResult it (roundToInteger mode src) ∧
    narrowResult it (sTypeResult it (roundToInteger mode src)) =
      sTypeResult it (roundToInteger mode src) ∧
    narrowResult .w (eTypeResult .w (.fin (BfpFinite.ofInt (2 ^ 31)))) = 0xFFFFFFFF80000000

/-- spec/41_convert_to_fpr.md section 4: a 32-bit integer converted to the FPR by `ctfpr` and back by
`cffpr` with the same `IT` and any legal `CVM` returns, and no flag is raised. -/
def Obligations.ThirtyTwoBitIntegersRoundTrip : Prop :=
  ∀ (f : FprNum) (rb rt : GprNum) (cvm : Cvm) (it : IntType) (s : State),
    s.params.fpAvailable = true → cvm.toNat ≤ 5 → it = .w ∨ it = .uw →
    ∃ t u, exec (.ctfpr f rb it) s = .next t ∧ exec (.cffpr rt f cvm it) t = .next u ∧
      u.readGpr rt = typePattern it (operandInt it (s.readGpr rb)) ∧
      u.fpscr.fr = false ∧ u.fpscr.fi = false ∧ u.fpscr.fx = s.fpscr.fx ∧
      u.fpscr.xx = s.fpscr.xx ∧ u.fpscr.vxsnan = s.fpscr.vxsnan ∧ u.fpscr.vxcvi = s.fpscr.vxcvi

/-- spec/42_convert_from_fpr.md R160 (6), R170, R178 (i), spec/60_exceptions.md R194 (the spec's decision
D12): with `FE_MODE` = `trap` an inexact in-range conversion with `XE` set ends in
`FPEnabledException` after every update: `RT` is written, `FPRF` drawn (nothing is assumed of it), the
bits set, `XER` and `CR0` recorded; `CIA` is not advanced. -/
def Obligations.CffprTrapsOnEnabledInexact : Prop :=
  ∀ (rt : GprNum) (frb : FprNum) (cvm : Cvm) (it : IntType) (s : State),
    s.params.fpAvailable = true → cvm.toNat ≤ 5 → s.params.feMode = .trap → s.fpscr.xe = true →
    let c := convertFromBfp64 cvm it s.fpscr.rn s.fpr[frb]
    c.overflow = false → c.xx = true →
    let f := { s.fpscr.withExceptions false false true with
      fprf := Config.draw 5 s.draws, fr := c.inc, fi := true }
    let t := { s with gpr := s.gpr.set rt c.result, fpscr := f, draws := s.draws + 1 }
    let x := { s.xer with ov := false, ov32 := false }
    let cr := { s.cr with cr0 := signCr0 c.result s.xer.so }
    f.fex = true ∧
    exec (.cffpr rt frb cvm it) s = .fault (.fpEnabledException s.cia t) ∧
    exec (.cffprDot rt frb cvm it) s = .fault (.fpEnabledException s.cia { t with cr := cr }) ∧
    exec (.cffpro rt frb cvm it) s = .fault (.fpEnabledException s.cia { t with xer := x }) ∧
    exec (.cffproDot rt frb cvm it) s =
      .fault (.fpEnabledException s.cia { t with xer := x, cr := cr })
end

