-- ==== Sys2Proof/Laws/Bfp.lean ====
section
/-! SUPPORT. The working format: its unit, integers in it, comparisons of integral values, and the
rounding modes. -/

namespace Sys2Proof.Laws

open Sys2Proof.Machine

/-! ### The unit -/

theorem unitsPerOne_eq : unitsPerOne = 2 ^ 1074 := by unfold unitsPerOne; rfl

theorem unitsPerOne_pos : 0 < unitsPerOne := by rw [unitsPerOne_eq]; positivity

theorem unitsPerOne_int_pos : (0 : Int) < unitsPerOne := by exact_mod_cast unitsPerOne_pos

theorem unitsPerOne_even : unitsPerOne % 2 = 0 := by
  rw [unitsPerOne_eq, show (1074 : Nat) = 1073 + 1 from rfl, pow_succ]; omega

/-! ### Integers -/

/-- The value of an integer, in units. -/
@[simp] theorem ofInt_signedUnits (n : Int) :
    (BfpFinite.ofInt n).signedUnits = n * (unitsPerOne : Int) := by
  simp only [BfpFinite.ofInt, BfpFinite.signedUnits, decide_eq_true_eq]
  split
  · rw [Nat.cast_mul, Int.ofNat_natAbs_of_nonpos (by omega)]; ring
  · rw [Nat.cast_mul, Int.natAbs_of_nonneg (by omega)]

/-- An integer read back. -/
@[simp] theorem ofInt_toInt (n : Int) : (BfpFinite.ofInt n).toInt = n := by
  rw [BfpFinite.toInt, ofInt_signedUnits, Int.mul_tdiv_cancel _ unitsPerOne_int_pos.ne']

/-- The value of a sign and an integral magnitude, in units. -/
theorem mk_signedUnits (neg : Bool) (m : Nat) :
    (BfpFinite.mk neg (m * unitsPerOne)).signedUnits = (if neg then -(m : Int) else m) * unitsPerOne := by
  cases neg <;> simp [BfpFinite.signedUnits]

/-- The integer that a sign and an integral magnitude are. -/
theorem mk_toInt (neg : Bool) (m : Nat) :
    (BfpFinite.mk neg (m * unitsPerOne)).toInt = if neg then -(m : Int) else m := by
  rw [BfpFinite.toInt, mk_signedUnits, Int.mul_tdiv_cancel _ unitsPerOne_int_pos.ne']

/-! ### Comparisons (spec/00_scope.md R19) -/

@[simp] theorem compareLt_fin (x y : BfpFinite) :
    bfpCompareLt (.fin x) (.fin y) = decide (x.signedUnits < y.signedUnits) := rfl

@[simp] theorem compareGt_fin (x y : BfpFinite) :
    bfpCompareGt (.fin x) (.fin y) = decide (y.signedUnits < x.signedUnits) := rfl

@[simp] theorem compareEq_fin (x y : BfpFinite) :
    bfpCompareEq (.fin x) (.fin y) = decide (x.signedUnits = y.signedUnits) := rfl

/-- Integral values compare as their integers. -/
theorem mul_unitsPerOne_lt (a b : Int) :
    a * (unitsPerOne : Int) < b * unitsPerOne ↔ a < b :=
  Int.mul_lt_mul_right unitsPerOne_int_pos

theorem mul_unitsPerOne_inj (a b : Int) : a * (unitsPerOne : Int) = b * unitsPerOne ↔ a = b :=
  Int.mul_eq_mul_right_iff unitsPerOne_int_pos.ne'

/-! ### The range of a type (spec/42_convert_from_fpr.md R163) -/

theorem rangeMin_eq (it : IntType) : rangeMin it = BfpFinite.ofInt (typeMin it) := by cases it <;> rfl

theorem rangeMax_eq (it : IntType) : rangeMax it = BfpFinite.ofInt (typeMax it) := by cases it <;> rfl

/-! ### Rounding to an integral value (spec/00_scope.md R20) -/

/-- `roundSource` is one rounding, in the mode of spec/42_convert_from_fpr.md R164. -/
theorem roundSource_eq (cvm : Cvm) (rn : BitVec 2) (src : Bfp) :
    roundSource cvm rn src = roundToInteger (conversionMode cvm rn) src := by
  have hc : cvmTruncates cvm = decide (cvm.toNat % 2 = 1) := by revert cvm; decide
  unfold roundSource conversionMode RoundMode.ofRN
  rw [hc]
  by_cases h : cvm.toNat % 2 = 1
  · simp [h, bfpRoundToIntegerTrunc]
  · simp only [h, decide_false, Bool.false_eq_true, false_or, if_false]
    have hr : rn = 0 ∨ rn = 1 ∨ rn = 2 ∨ rn = 3 := by revert rn; decide
    rcases hr with rfl | rfl | rfl | rfl <;> rfl

end Sys2Proof.Laws
end

