-- ==== Sys2Proof/Laws/Decode.lean ====
section
/-! SUPPORT. The fields of the X-Form word, and the fields of a word that agrees with another one outside
the reserved bits. -/

namespace Sys2Proof.Laws

/-! ### Fields of `xForm` (spec/30_encoding.md R91 to R93) -/

/-- A bit of a field. -/
theorem fieldAt_getLsbD {n : Nat} (v : BitVec n) (start width i : Nat) :
    (fieldAt v start width).getLsbD i = (decide (i < width) && v.getLsbD (n - start - width + i)) := by
  simp [fieldAt]

/-- A bit of the X-Form word. -/
theorem xForm_getLsbD (po : BitVec 6) (t : Fin 32) (m : BitVec 5) (b : Fin 32) (xo : BitVec 10)
    (l : BitVec 1) (i : Nat) :
    (xForm po t m b xo l).getLsbD i =
      if i < 1 then l.getLsbD i
      else if i < 11 then xo.getLsbD (i - 1)
      else if i < 16 then (regBits b).getLsbD (i - 11)
      else if i < 21 then m.getLsbD (i - 16)
      else if i < 26 then (regBits t).getLsbD (i - 21)
      else po.getLsbD (i - 26) := by
  simp only [xForm, BitVec.getLsbD_append]
  repeat' split
  all_goals first | rfl | omega

theorem fieldAt_xForm_po (po : BitVec 6) (t : Fin 32) (m : BitVec 5) (b : Fin 32) (xo : BitVec 10)
    (l : BitVec 1) : fieldAt (xForm po t m b xo l) 0 6 = po := by
  apply BitVec.eq_of_getLsbD_eq
  intro i hi
  simp only [fieldAt_getLsbD, xForm_getLsbD, hi, decide_true, Bool.true_and]
  repeat' split
  all_goals first | omega | (congr 1; omega)

theorem fieldAt_xForm_target (po : BitVec 6) (t : Fin 32) (m : BitVec 5) (b : Fin 32)
    (xo : BitVec 10) (l : BitVec 1) : fieldAt (xForm po t m b xo l) 6 5 = regBits t := by
  apply BitVec.eq_of_getLsbD_eq
  intro i hi
  simp only [fieldAt_getLsbD, xForm_getLsbD, hi, decide_true, Bool.true_and]
  repeat' split
  all_goals first | omega | (congr 1; omega)

theorem fieldAt_xForm_middle (po : BitVec 6) (t : Fin 32) (m : BitVec 5) (b : Fin 32)
    (xo : BitVec 10) (l : BitVec 1) : fieldAt (xForm po t m b xo l) 11 5 = m := by
  apply BitVec.eq_of_getLsbD_eq
  intro i hi
  simp only [fieldAt_getLsbD, xForm_getLsbD, hi, decide_true, Bool.true_and]
  repeat' split
  all_goals first | omega | (congr 1; omega)

theorem fieldAt_xForm_source (po : BitVec 6) (t : Fin 32) (m : BitVec 5) (b : Fin 32)
    (xo : BitVec 10) (l : BitVec 1) : fieldAt (xForm po t m b xo l) 16 5 = regBits b := by
  apply BitVec.eq_of_getLsbD_eq
  intro i hi
  simp only [fieldAt_getLsbD, xForm_getLsbD, hi, decide_true, Bool.true_and]
  repeat' split
  all_goals first | omega | (congr 1; omega)

theorem fieldAt_xForm_xo (po : BitVec 6) (t : Fin 32) (m : BitVec 5) (b : Fin 32) (xo : BitVec 10)
    (l : BitVec 1) : fieldAt (xForm po t m b xo l) 21 10 = xo := by
  apply BitVec.eq_of_getLsbD_eq
  intro i hi
  simp only [fieldAt_getLsbD, xForm_getLsbD, hi, decide_true, Bool.true_and]
  repeat' split
  all_goals first | omega | (congr 1; omega)

theorem xForm_rc (po : BitVec 6) (t : Fin 32) (m : BitVec 5) (b : Fin 32) (xo : BitVec 10)
    (l : BitVec 1) : (xForm po t m b xo l).getMsbD 31 = l.getLsbD 0 := by
  rw [BitVec.getMsbD_eq_getLsbD, xForm_getLsbD]; rfl

/-- The key of the X-Form word (spec/30_encoding.md R101). -/
theorem keyOf_xForm (po : BitVec 6) (t : Fin 32) (m : BitVec 5) (b : Fin 32) (xo : BitVec 10)
    (l : BitVec 1) : keyOf (xForm po t m b xo l) = (po, xo) := by
  rw [keyOf, fieldAt_xForm_po, fieldAt_xForm_xo]

/-- A register number read back (spec/30_encoding.md R95). -/
@[simp] theorem regBits_toFin (r : Fin 32) : (regBits r).toFin = r := rfl

/-- `IT` read back (spec/30_encoding.md R97). -/
@[simp] theorem ofBits_toBits (it : IntType) : IntType.ofBits it.toBits = it := by cases it <;> rfl

/-! ### The reserved bits are outside every other field -/

/-- A word masked to its reserved bits has no bit where the mask has none. -/
theorem and_eq_zero_of_bits (w mask : Word)
    (h : ∀ i, i < 32 → mask.getLsbD i = true → w.getLsbD i = false) : w &&& mask = 0 := by
  apply BitVec.eq_of_getLsbD_eq
  intro i hi
  rw [BitVec.getLsbD_and]
  cases hm : mask.getLsbD i
  · simp
  · simp [h i hi hm]

end Sys2Proof.Laws
end

