-- ==== Sys2Proof/Laws/Flags.lean ====
section
/-! SUPPORT. What the flag computations do: `SetFX` and its conditional form, `CR0` by cases, the overflow
bits of `XER`. -/

namespace Sys2Proof.Laws

open Sys2Proof.Machine

/-! ### `SetFX` (spec/00_scope.md R28) -/

@[simp] theorem setFXIf_false (f : FPSCR) (b : FpException) : f.setFXIf false b = f := rfl

@[simp] theorem setFXIf_true (f : FPSCR) (b : FpException) : f.setFXIf true b = f.setFX b := rfl

theorem raiseException_exception (f : FPSCR) (b c : FpException) :
    (f.raiseException b).exception c = (f.exception c || decide (c = b)) := by
  cases b <;> cases c <;> simp [FPSCR.raiseException, FPSCR.exception]

@[simp] theorem raiseException_fx (f : FPSCR) (b : FpException) : (f.raiseException b).fx = f.fx := by
  cases b <;> rfl

/-- `SetFX(b)` sets the bit `b` and no other exception bit. -/
theorem setFX_exception (f : FPSCR) (b c : FpException) :
    (f.setFX b).exception c = (f.exception c || decide (c = b)) := by
  rw [FPSCR.setFX, raiseException_exception]; cases c <;> rfl

/-- `SetFX(b)` sets `FX` when the bit was 0. -/
@[simp] theorem setFX_fx (f : FPSCR) (b : FpException) : (f.setFX b).fx = (f.fx || !f.exception b) := by
  simp [FPSCR.setFX]

theorem setFXIf_exception (f : FPSCR) (flag : Bool) (b c : FpException) :
    (f.setFXIf flag b).exception c = (f.exception c || (flag && decide (c = b))) := by
  cases flag <;> simp [setFX_exception]

theorem setFXIf_fx (f : FPSCR) (flag : Bool) (b : FpException) :
    (f.setFXIf flag b).fx = (f.fx || (flag && !f.exception b)) := by
  cases flag <;> simp

/-- `SetFX` touches no control bit, no reserved bit and none of `FPRF`, `FR`, `FI`. -/
theorem setFXIf_frame (f : FPSCR) (flag : Bool) (b : FpException) :
    FPSCR.SameControl f (f.setFXIf flag b) ∧ (f.setFXIf flag b).fprf = f.fprf ∧
      (f.setFXIf flag b).fr = f.fr ∧ (f.setFXIf flag b).fi = f.fi := by
  cases flag <;> cases b <;>
    simp [FPSCR.SameControl, FPSCR.setFXIf, FPSCR.setFX, FPSCR.raiseException]

/-- `SetFX` clears no sticky bit. -/
theorem setFXIf_sticky (f : FPSCR) (flag : Bool) (b : FpException) :
    FPSCR.StickyLe f (f.setFXIf flag b) :=
  ⟨fun h => by simp [setFXIf_fx, h], fun c h => by simp [setFXIf_exception, h]⟩

/-- The three conditional calls of spec/42_convert_from_fpr.md R170, in closed form. -/
theorem setExceptions_eq (f : FPSCR) (c : FromFpr) :
    c.setExceptions f = f.withExceptions c.vxsnan c.vxcvi c.xx := by
  rcases c with ⟨r, o, a, b, x, i⟩
  cases a <;> cases b <;> cases x <;>
    simp [FromFpr.setExceptions, FPSCR.withExceptions, FPSCR.setFX, FPSCR.raiseException,
      FPSCR.exception, Bool.or_assoc]

/-- The one conditional call of spec/41_convert_to_fpr.md R141, in closed form. -/
theorem setFXIf_xx_eq (f : FPSCR) (xx : Bool) :
    f.setFXIf xx .xx = f.withExceptions false false xx := by
  cases xx <;> simp [FPSCR.withExceptions, FPSCR.setFX, FPSCR.raiseException, FPSCR.exception]

/-! ### `CR0` (spec/10_state.md R46) -/

/-- The four bits of a record form, by the sign of the value. -/
theorem cr0Of_eq (v : Dword) (so : Bool) : cr0Of v so = signCr0 v so := by
  unfold cr0Of signCr0
  rcases lt_trichotomy v.toInt 0 with h | h | h
  · have h1 : ¬ 0 < v.toInt := by omega
    have h2 : v.toInt ≠ 0 := by omega
    simp only [h, h1, h2, decide_true, decide_false, if_true]
    cases so <;> decide
  · simp only [h, lt_irrefl, decide_true, decide_false, if_true, if_false]
    cases so <;> decide
  · have h1 : ¬ v.toInt < 0 := by omega
    have h2 : v.toInt ≠ 0 := by omega
    simp only [h, h1, h2, decide_true, decide_false, if_false]
    cases so <;> decide

/-! ### `XER` (spec/10_state.md R48) -/

/-- `OE` = 1 changes `SO`, `OV` and `OV32` only, and never clears `SO`. -/
theorem withOverflow_frame (x : XER) (o : Bool) :
    XER.SameOther x (x.withOverflow o) ∧ (x.so = true → (x.withOverflow o).so = true) := by
  simp [XER.SameOther, XER.withOverflow]
  intro h; simp [h]

end Sys2Proof.Laws
end

