-- ==== Sys2Proof/Laws/State.lean ====
section
/-! SUPPORT. One lemma per field per update of the state, true by `rfl`, and reading a register after a
write, so that no later proof unfolds a record update. -/

namespace Sys2Proof.Laws

open Sys2Proof.Machine

/-! ### `writeGpr` -/

@[simp] theorem writeGpr_gpr (s : State) (r : GprNum) (v : Dword) :
    (s.writeGpr r v).gpr = s.gpr.set r v := rfl
@[simp] theorem writeGpr_fpr (s : State) (r : GprNum) (v : Dword) :
    (s.writeGpr r v).fpr = s.fpr := rfl
@[simp] theorem writeGpr_cia (s : State) (r : GprNum) (v : Dword) :
    (s.writeGpr r v).cia = s.cia := rfl
@[simp] theorem writeGpr_cr (s : State) (r : GprNum) (v : Dword) : (s.writeGpr r v).cr = s.cr := rfl
@[simp] theorem writeGpr_xer (s : State) (r : GprNum) (v : Dword) :
    (s.writeGpr r v).xer = s.xer := rfl
@[simp] theorem writeGpr_fpscr (s : State) (r : GprNum) (v : Dword) :
    (s.writeGpr r v).fpscr = s.fpscr := rfl
@[simp] theorem writeGpr_imem (s : State) (r : GprNum) (v : Dword) :
    (s.writeGpr r v).imem = s.imem := rfl
@[simp] theorem writeGpr_params (s : State) (r : GprNum) (v : Dword) :
    (s.writeGpr r v).params = s.params := rfl
@[simp] theorem writeGpr_draws (s : State) (r : GprNum) (v : Dword) :
    (s.writeGpr r v).draws = s.draws := rfl

/-! ### `writeFpr` -/

@[simp] theorem writeFpr_gpr (s : State) (r : FprNum) (v : Dword) :
    (s.writeFpr r v).gpr = s.gpr := rfl
@[simp] theorem writeFpr_fpr (s : State) (r : FprNum) (v : Dword) :
    (s.writeFpr r v).fpr = s.fpr.set r v := rfl
@[simp] theorem writeFpr_cia (s : State) (r : FprNum) (v : Dword) :
    (s.writeFpr r v).cia = s.cia := rfl
@[simp] theorem writeFpr_cr (s : State) (r : FprNum) (v : Dword) : (s.writeFpr r v).cr = s.cr := rfl
@[simp] theorem writeFpr_xer (s : State) (r : FprNum) (v : Dword) :
    (s.writeFpr r v).xer = s.xer := rfl
@[simp] theorem writeFpr_fpscr (s : State) (r : FprNum) (v : Dword) :
    (s.writeFpr r v).fpscr = s.fpscr := rfl
@[simp] theorem writeFpr_imem (s : State) (r : FprNum) (v : Dword) :
    (s.writeFpr r v).imem = s.imem := rfl
@[simp] theorem writeFpr_params (s : State) (r : FprNum) (v : Dword) :
    (s.writeFpr r v).params = s.params := rfl
@[simp] theorem writeFpr_draws (s : State) (r : FprNum) (v : Dword) :
    (s.writeFpr r v).draws = s.draws := rfl

/-! ### `writeFpscr` -/

@[simp] theorem writeFpscr_gpr (s : State) (f : FPSCR) : (s.writeFpscr f).gpr = s.gpr := rfl
@[simp] theorem writeFpscr_fpr (s : State) (f : FPSCR) : (s.writeFpscr f).fpr = s.fpr := rfl
@[simp] theorem writeFpscr_cia (s : State) (f : FPSCR) : (s.writeFpscr f).cia = s.cia := rfl
@[simp] theorem writeFpscr_cr (s : State) (f : FPSCR) : (s.writeFpscr f).cr = s.cr := rfl
@[simp] theorem writeFpscr_xer (s : State) (f : FPSCR) : (s.writeFpscr f).xer = s.xer := rfl
@[simp] theorem writeFpscr_fpscr (s : State) (f : FPSCR) : (s.writeFpscr f).fpscr = f := rfl
@[simp] theorem writeFpscr_imem (s : State) (f : FPSCR) : (s.writeFpscr f).imem = s.imem := rfl
@[simp] theorem writeFpscr_params (s : State) (f : FPSCR) :
    (s.writeFpscr f).params = s.params := rfl
@[simp] theorem writeFpscr_draws (s : State) (f : FPSCR) : (s.writeFpscr f).draws = s.draws := rfl

/-! ### `writeXer` -/

@[simp] theorem writeXer_gpr (s : State) (x : XER) : (s.writeXer x).gpr = s.gpr := rfl
@[simp] theorem writeXer_fpr (s : State) (x : XER) : (s.writeXer x).fpr = s.fpr := rfl
@[simp] theorem writeXer_cia (s : State) (x : XER) : (s.writeXer x).cia = s.cia := rfl
@[simp] theorem writeXer_cr (s : State) (x : XER) : (s.writeXer x).cr = s.cr := rfl
@[simp] theorem writeXer_xer (s : State) (x : XER) : (s.writeXer x).xer = x := rfl
@[simp] theorem writeXer_fpscr (s : State) (x : XER) : (s.writeXer x).fpscr = s.fpscr := rfl
@[simp] theorem writeXer_imem (s : State) (x : XER) : (s.writeXer x).imem = s.imem := rfl
@[simp] theorem writeXer_params (s : State) (x : XER) : (s.writeXer x).params = s.params := rfl
@[simp] theorem writeXer_draws (s : State) (x : XER) : (s.writeXer x).draws = s.draws := rfl

/-! ### `writeCr0` -/

@[simp] theorem writeCr0_gpr (s : State) (v : BitVec 4) : (s.writeCr0 v).gpr = s.gpr := rfl
@[simp] theorem writeCr0_fpr (s : State) (v : BitVec 4) : (s.writeCr0 v).fpr = s.fpr := rfl
@[simp] theorem writeCr0_cia (s : State) (v : BitVec 4) : (s.writeCr0 v).cia = s.cia := rfl
@[simp] theorem writeCr0_cr (s : State) (v : BitVec 4) :
    (s.writeCr0 v).cr = { s.cr with cr0 := v } := rfl
@[simp] theorem writeCr0_xer (s : State) (v : BitVec 4) : (s.writeCr0 v).xer = s.xer := rfl
@[simp] theorem writeCr0_fpscr (s : State) (v : BitVec 4) : (s.writeCr0 v).fpscr = s.fpscr := rfl
@[simp] theorem writeCr0_imem (s : State) (v : BitVec 4) : (s.writeCr0 v).imem = s.imem := rfl
@[simp] theorem writeCr0_params (s : State) (v : BitVec 4) : (s.writeCr0 v).params = s.params := rfl
@[simp] theorem writeCr0_draws (s : State) (v : BitVec 4) : (s.writeCr0 v).draws = s.draws := rfl

/-! ### `writeCr1` -/

@[simp] theorem writeCr1_gpr (s : State) (v : BitVec 4) : (s.writeCr1 v).gpr = s.gpr := rfl
@[simp] theorem writeCr1_fpr (s : State) (v : BitVec 4) : (s.writeCr1 v).fpr = s.fpr := rfl
@[simp] theorem writeCr1_cia (s : State) (v : BitVec 4) : (s.writeCr1 v).cia = s.cia := rfl
@[simp] theorem writeCr1_cr (s : State) (v : BitVec 4) :
    (s.writeCr1 v).cr = { s.cr with cr1 := v } := rfl
@[simp] theorem writeCr1_xer (s : State) (v : BitVec 4) : (s.writeCr1 v).xer = s.xer := rfl
@[simp] theorem writeCr1_fpscr (s : State) (v : BitVec 4) : (s.writeCr1 v).fpscr = s.fpscr := rfl
@[simp] theorem writeCr1_imem (s : State) (v : BitVec 4) : (s.writeCr1 v).imem = s.imem := rfl
@[simp] theorem writeCr1_params (s : State) (v : BitVec 4) : (s.writeCr1 v).params = s.params := rfl
@[simp] theorem writeCr1_draws (s : State) (v : BitVec 4) : (s.writeCr1 v).draws = s.draws := rfl

/-! ### `advance` -/

@[simp] theorem advance_gpr (s : State) : (s.advance).gpr = s.gpr := rfl
@[simp] theorem advance_fpr (s : State) : (s.advance).fpr = s.fpr := rfl
@[simp] theorem advance_cia (s : State) : (s.advance).cia = s.cia + 4 := rfl
@[simp] theorem advance_cr (s : State) : (s.advance).cr = s.cr := rfl
@[simp] theorem advance_xer (s : State) : (s.advance).xer = s.xer := rfl
@[simp] theorem advance_fpscr (s : State) : (s.advance).fpscr = s.fpscr := rfl
@[simp] theorem advance_imem (s : State) : (s.advance).imem = s.imem := rfl
@[simp] theorem advance_params (s : State) : (s.advance).params = s.params := rfl
@[simp] theorem advance_draws (s : State) : (s.advance).draws = s.draws := rfl

/-! ### `afterDraw` -/

@[simp] theorem afterDraw_gpr (s : State) : (s.afterDraw).gpr = s.gpr := rfl
@[simp] theorem afterDraw_fpr (s : State) : (s.afterDraw).fpr = s.fpr := rfl
@[simp] theorem afterDraw_cia (s : State) : (s.afterDraw).cia = s.cia := rfl
@[simp] theorem afterDraw_cr (s : State) : (s.afterDraw).cr = s.cr := rfl
@[simp] theorem afterDraw_xer (s : State) : (s.afterDraw).xer = s.xer := rfl
@[simp] theorem afterDraw_fpscr (s : State) : (s.afterDraw).fpscr = s.fpscr := rfl
@[simp] theorem afterDraw_imem (s : State) : (s.afterDraw).imem = s.imem := rfl
@[simp] theorem afterDraw_params (s : State) : (s.afterDraw).params = s.params := rfl
@[simp] theorem afterDraw_draws (s : State) : (s.afterDraw).draws = s.draws + 1 := rfl

/-! ### `recordCr0` -/

@[simp] theorem recordCr0_gpr (s : State) (v : Dword) : (s.recordCr0 v).gpr = s.gpr := rfl
@[simp] theorem recordCr0_fpr (s : State) (v : Dword) : (s.recordCr0 v).fpr = s.fpr := rfl
@[simp] theorem recordCr0_cia (s : State) (v : Dword) : (s.recordCr0 v).cia = s.cia := rfl
@[simp] theorem recordCr0_cr (s : State) (v : Dword) :
    (s.recordCr0 v).cr = { s.cr with cr0 := cr0Of v s.xer.so } := rfl
@[simp] theorem recordCr0_xer (s : State) (v : Dword) : (s.recordCr0 v).xer = s.xer := rfl
@[simp] theorem recordCr0_fpscr (s : State) (v : Dword) : (s.recordCr0 v).fpscr = s.fpscr := rfl
@[simp] theorem recordCr0_imem (s : State) (v : Dword) : (s.recordCr0 v).imem = s.imem := rfl
@[simp] theorem recordCr0_params (s : State) (v : Dword) : (s.recordCr0 v).params = s.params := rfl
@[simp] theorem recordCr0_draws (s : State) (v : Dword) : (s.recordCr0 v).draws = s.draws := rfl

/-! ### `recordCr1` -/

@[simp] theorem recordCr1_gpr (s : State) : (s.recordCr1).gpr = s.gpr := rfl
@[simp] theorem recordCr1_fpr (s : State) : (s.recordCr1).fpr = s.fpr := rfl
@[simp] theorem recordCr1_cia (s : State) : (s.recordCr1).cia = s.cia := rfl
@[simp] theorem recordCr1_cr (s : State) :
    (s.recordCr1).cr = { s.cr with cr1 := cr1Of s.fpscr } := rfl
@[simp] theorem recordCr1_xer (s : State) : (s.recordCr1).xer = s.xer := rfl
@[simp] theorem recordCr1_fpscr (s : State) : (s.recordCr1).fpscr = s.fpscr := rfl
@[simp] theorem recordCr1_imem (s : State) : (s.recordCr1).imem = s.imem := rfl
@[simp] theorem recordCr1_params (s : State) : (s.recordCr1).params = s.params := rfl
@[simp] theorem recordCr1_draws (s : State) : (s.recordCr1).draws = s.draws := rfl

/-! ### `recordOverflow` -/

@[simp] theorem recordOverflow_gpr (s : State) (overflow : Bool) :
    (s.recordOverflow overflow).gpr = s.gpr := rfl
@[simp] theorem recordOverflow_fpr (s : State) (overflow : Bool) :
    (s.recordOverflow overflow).fpr = s.fpr := rfl
@[simp] theorem recordOverflow_cia (s : State) (overflow : Bool) :
    (s.recordOverflow overflow).cia = s.cia := rfl
@[simp] theorem recordOverflow_cr (s : State) (overflow : Bool) :
    (s.recordOverflow overflow).cr = s.cr := rfl
@[simp] theorem recordOverflow_xer (s : State) (overflow : Bool) :
    (s.recordOverflow overflow).xer = s.xer.withOverflow overflow := rfl
@[simp] theorem recordOverflow_fpscr (s : State) (overflow : Bool) :
    (s.recordOverflow overflow).fpscr = s.fpscr := rfl
@[simp] theorem recordOverflow_imem (s : State) (overflow : Bool) :
    (s.recordOverflow overflow).imem = s.imem := rfl
@[simp] theorem recordOverflow_params (s : State) (overflow : Bool) :
    (s.recordOverflow overflow).params = s.params := rfl
@[simp] theorem recordOverflow_draws (s : State) (overflow : Bool) :
    (s.recordOverflow overflow).draws = s.draws := rfl

/-! ### `applyToFpr` -/

@[simp] theorem applyToFpr_gpr (s : State) (frt : FprNum) (c : ToFpr) :
    (s.applyToFpr frt c).gpr = s.gpr := rfl
@[simp] theorem applyToFpr_fpr (s : State) (frt : FprNum) (c : ToFpr) :
    (s.applyToFpr frt c).fpr = s.fpr.set frt c.result := rfl
@[simp] theorem applyToFpr_cia (s : State) (frt : FprNum) (c : ToFpr) :
    (s.applyToFpr frt c).cia = s.cia := rfl
@[simp] theorem applyToFpr_cr (s : State) (frt : FprNum) (c : ToFpr) :
    (s.applyToFpr frt c).cr = s.cr := rfl
@[simp] theorem applyToFpr_xer (s : State) (frt : FprNum) (c : ToFpr) :
    (s.applyToFpr frt c).xer = s.xer := rfl
@[simp] theorem applyToFpr_fpscr (s : State) (frt : FprNum) (c : ToFpr) :
    (s.applyToFpr frt c).fpscr = c.fpscr := rfl
@[simp] theorem applyToFpr_imem (s : State) (frt : FprNum) (c : ToFpr) :
    (s.applyToFpr frt c).imem = s.imem := rfl
@[simp] theorem applyToFpr_params (s : State) (frt : FprNum) (c : ToFpr) :
    (s.applyToFpr frt c).params = s.params := rfl
@[simp] theorem applyToFpr_draws (s : State) (frt : FprNum) (c : ToFpr) :
    (s.applyToFpr frt c).draws = s.draws := rfl

/-! ### `withFeMode` -/

@[simp] theorem withFeMode_gpr (s : State) (m : FeMode) : (s.withFeMode m).gpr = s.gpr := rfl
@[simp] theorem withFeMode_fpr (s : State) (m : FeMode) : (s.withFeMode m).fpr = s.fpr := rfl
@[simp] theorem withFeMode_cia (s : State) (m : FeMode) : (s.withFeMode m).cia = s.cia := rfl
@[simp] theorem withFeMode_cr (s : State) (m : FeMode) : (s.withFeMode m).cr = s.cr := rfl
@[simp] theorem withFeMode_xer (s : State) (m : FeMode) : (s.withFeMode m).xer = s.xer := rfl
@[simp] theorem withFeMode_fpscr (s : State) (m : FeMode) : (s.withFeMode m).fpscr = s.fpscr := rfl
@[simp] theorem withFeMode_imem (s : State) (m : FeMode) : (s.withFeMode m).imem = s.imem := rfl
@[simp] theorem withFeMode_params (s : State) (m : FeMode) :
    (s.withFeMode m).params = { s.params with feMode := m } := rfl
@[simp] theorem withFeMode_draws (s : State) (m : FeMode) : (s.withFeMode m).draws = s.draws := rfl

/-! ### Reading a register after a write -/

@[simp] theorem readGpr_writeGpr_same (s : State) (r : GprNum) (v : Dword) :
    (s.writeGpr r v).readGpr r = v := by
  simp [State.readGpr, State.writeGpr]

theorem readGpr_writeGpr_of_ne (s : State) (r q : GprNum) (v : Dword) (h : q ≠ r) :
    (s.writeGpr r v).readGpr q = s.readGpr q := by
  have hv : (r : Nat) ≠ q := fun e => h (Fin.ext e.symm)
  simp [State.readGpr, State.writeGpr, Vector.getElem_set_ne _ _ hv]

theorem readGpr_congr {s t : State} (h : t.gpr = s.gpr) (r : GprNum) :
    t.readGpr r = s.readGpr r := by
  simp [State.readGpr, h]

@[simp] theorem readFpr_writeFpr_same (s : State) (r : FprNum) (v : Dword) :
    (s.writeFpr r v).readFpr r = v := by
  simp [State.readFpr, State.writeFpr]

theorem readFpr_writeFpr_of_ne (s : State) (r q : FprNum) (v : Dword) (h : q ≠ r) :
    (s.writeFpr r v).readFpr q = s.readFpr q := by
  have hv : (r : Nat) ≠ q := fun e => h (Fin.ext e.symm)
  simp [State.readFpr, State.writeFpr, Vector.getElem_set_ne _ _ hv]

theorem readFpr_congr {s t : State} (h : t.fpr = s.fpr) (r : FprNum) :
    t.readFpr r = s.readFpr r := by
  simp [State.readFpr, h]

end Sys2Proof.Laws
end

