-- ==== Sys2Proof/Laws/Memory.lean ====
section
/-! SUPPORT. Instruction memory: reading after a write, and every operation keeps the canonical form. -/

namespace Sys2Proof.Laws

open Sys2Proof.Machine

/-! ### Reading after a write -/

/-- Reading an address after a write: the byte written, or what stood there. -/
theorem read_write (m : List Host.Cell) (low a c : Nat) (b : Byte) (h : Memory.wfFrom low m = true) :
    Memory.read (Memory.write m a b) c = if c = a then some b else Memory.read m c := by
  induction m generalizing low with
  | nil => simp [Memory.write, Memory.read]
  | cons cell rest ih =>
    obtain ⟨a', b'⟩ := cell
    simp only [Memory.wfFrom, Bool.and_eq_true, decide_eq_true_eq] at h
    simp only [Memory.write]
    split
    · subst a'
      simp only [Memory.read]
      split <;> simp_all
    · split
      · simp only [Memory.read]
        repeat' split
        all_goals first | rfl | omega
      · simp only [Memory.read, ih _ h.2]
        repeat' split
        all_goals first | rfl | omega

theorem read_write_same (m : List Host.Cell) (a : Nat) (b : Byte) (h : Memory.wf m = true) :
    Memory.read (Memory.write m a b) a = some b := by
  simp [read_write m 0 a a b h]

theorem read_write_of_ne (m : List Host.Cell) {a c : Nat} (b : Byte) (h : Memory.wf m = true)
    (hc : c ≠ a) : Memory.read (Memory.write m a b) c = Memory.read m c := by
  simp [read_write m 0 a c b h, hc]

/-! ### The canonical form -/

theorem wfFrom_write (m : List Host.Cell) (low a : Nat) (b : Byte) (hl : low ≤ a) (ha : a < 2 ^ 64)
    (h : Memory.wfFrom low m = true) : Memory.wfFrom low (Memory.write m a b) = true := by
  induction m generalizing low with
  | nil => simp [Memory.write, Memory.wfFrom]; omega
  | cons cell rest ih =>
    obtain ⟨a', b'⟩ := cell
    simp only [Memory.wfFrom, Bool.and_eq_true, decide_eq_true_eq] at h
    simp only [Memory.write]
    split
    · subst a'
      simp only [Memory.wfFrom, Bool.and_eq_true, decide_eq_true_eq]
      exact ⟨⟨hl, ha⟩, h.2⟩
    · split <;> simp only [Memory.wfFrom, Bool.and_eq_true, decide_eq_true_eq]
      · exact ⟨⟨hl, ha⟩, ⟨by omega, h.1.2⟩, h.2⟩
      · exact ⟨h.1, ih _ (by omega) h.2⟩

/-- A write to a 64-bit address keeps the canonical form. -/
theorem wf_write (m : List Host.Cell) (a : Nat) (b : Byte) (ha : a < 2 ^ 64)
    (h : Memory.wf m = true) : Memory.wf (Memory.write m a b) = true :=
  wfFrom_write m 0 a b (Nat.zero_le a) ha h

/-- Loading a word at an aligned `CIA` keeps the canonical form. -/
theorem wf_loadWord (s : State) (w : Word) (hc : s.cia.toNat % 4 = 0) (h : Memory.wf s.imem = true) :
    Memory.wf (s.loadWord w).imem = true := by
  have := s.cia.isLt
  refine wf_write _ _ _ (by omega) (wf_write _ _ _ (by omega) (wf_write _ _ _ (by omega)
    (wf_write _ _ _ (by omega) h)))

/-- `withFetchWord` keeps the canonical form. -/
theorem wf_withFetchWord (s : State) (nbits w : Nat) (hc : s.cia.toNat % 4 = 0)
    (h : Memory.wf s.imem = true) : Memory.wf (s.withFetchWord nbits w).imem = true :=
  wf_loadWord s _ hc h

/-- Memory at reset has the canonical form. -/
theorem wf_reset : Memory.wf State.reset.imem = true := rfl

/-! ### Loading a word -/

/-- `loadWord` changes memory alone. -/
theorem loadWord_eq (s : State) (w : Word) : s.loadWord w = { s with imem := (s.loadWord w).imem } := rfl

@[simp] theorem loadWord_cia (s : State) (w : Word) : (s.loadWord w).cia = s.cia := rfl

@[simp] theorem loadWord_params (s : State) (w : Word) : (s.loadWord w).params = s.params := rfl

/-- Every byte after loading a word at an aligned `CIA`. -/
theorem read_loadWord (s : State) (w : Word) (c : Nat) (hc : s.cia.toNat % 4 = 0)
    (h : Memory.wf s.imem = true) :
    Memory.read (s.loadWord w).imem c =
      if c = s.cia.toNat + 3 then some (byteOfWord s.params.insnByteOrder w 3)
      else if c = s.cia.toNat + 2 then some (byteOfWord s.params.insnByteOrder w 2)
      else if c = s.cia.toNat + 1 then some (byteOfWord s.params.insnByteOrder w 1)
      else if c = s.cia.toNat then some (byteOfWord s.params.insnByteOrder w 0)
      else Memory.read s.imem c := by
  have := s.cia.isLt
  have h0 := wf_write s.imem s.cia.toNat (byteOfWord s.params.insnByteOrder w 0) (by omega) h
  have h1 := wf_write _ (s.cia.toNat + 1) (byteOfWord s.params.insnByteOrder w 1) (by omega) h0
  have h2 := wf_write _ (s.cia.toNat + 2) (byteOfWord s.params.insnByteOrder w 2) (by omega) h1
  simp only [State.loadWord]
  rw [read_write _ 0 _ _ _ h2, read_write _ 0 _ _ _ h1, read_write _ 0 _ _ _ h0, read_write _ 0 _ _ _ h]

end Sys2Proof.Laws
end

