-- ==== Sys2Proof/Laws/Ops.lean ====
section
/-! SUPPORT. What the shared operations can answer, and one normal form of `exec`: the updates an
instruction makes, and whether it ends with `fp_enabled`. -/

namespace Sys2Proof.Laws

open Sys2Proof.Machine

/-! ### Outcomes (spec/60_exceptions.md R193, R194) -/

theorem whenFpAvailable_eq_next {s t : State} {run : Outcome} :
    whenFpAvailable s run = .next t ↔ s.params.fpAvailable = true ∧ run = .next t := by
  unfold whenFpAvailable raise; split <;> simp_all

theorem whenFpAvailable_eq_fault {s : State} {run : Outcome} {f : Fault} :
    whenFpAvailable s run = .fault f ↔
      s.params.fpAvailable = true ∧ run = .fault f ∨
        s.params.fpAvailable = false ∧ f = .fpUnavailable s.cia := by
  unfold whenFpAvailable raise
  cases h : s.params.fpAvailable <;> simp [eq_comm (a := f)]

theorem whenFpAvailable_of_available {s : State} {run : Outcome} (h : s.params.fpAvailable = true) :
    whenFpAvailable s run = run := by
  simp [whenFpAvailable, h]

theorem complete_eq_next {e : Bool} {s t : State} :
    complete e s = .next t ↔ ¬(e = true ∧ s.params.feMode = .trap) ∧ t = s.advance := by
  unfold complete raise; split <;> simp_all [eq_comm]

theorem complete_eq_fault {e : Bool} {s : State} {f : Fault} :
    complete e s = .fault f ↔
      (e = true ∧ s.params.feMode = .trap) ∧ f = .fpEnabledException s.cia s := by
  unfold complete raise; split <;> simp_all [eq_comm]

@[simp] theorem complete_false (s : State) : complete false s = .next s.advance := by
  simp [complete]

/-! ### The updates of one instruction -/

/-- The state with every update of the instruction made, `CIA` not advanced. -/
def updated (i : Instr) (s : State) : State :=
  match i with
  | .mffpr rt frb => s.writeGpr rt (s.readFpr frb)
  | .mffprDot rt frb => (s.writeGpr rt (s.readFpr frb)).recordCr0 (s.readFpr frb)
  | .mffprs rt frb =>
    (afterSingle s (s.readFpr frb)).writeGpr rt (0#32 ++ singleOrDrawn s (s.readFpr frb))
  | .mffprsDot rt frb =>
    ((afterSingle s (s.readFpr frb)).writeGpr rt (0#32 ++ singleOrDrawn s (s.readFpr frb))).recordCr0
      (0#32 ++ singleOrDrawn s (s.readFpr frb))
  | .mtfpr frt rb => s.writeFpr frt (s.readGpr rb)
  | .mtfprs frt rb => s.writeFpr frt (double (fieldAt (s.readGpr rb) 32 32))
  | .ctfpr frt rb it => s.applyToFpr frt (convertToBfp64 it (s.readGpr rb) s.fpscr)
  | .ctfprDot frt rb it => (s.applyToFpr frt (convertToBfp64 it (s.readGpr rb) s.fpscr)).recordCr1
  | .ctfprs frt rb it => s.applyToFpr frt (convertToBfp32 it (s.readGpr rb) s.fpscr)
  | .ctfprsDot frt rb it => (s.applyToFpr frt (convertToBfp32 it (s.readGpr rb) s.fpscr)).recordCr1
  | .cffpr rt frb cvm it => cffprUpdated false false rt frb cvm it s
  | .cffprDot rt frb cvm it => cffprUpdated false true rt frb cvm it s
  | .cffpro rt frb cvm it => cffprUpdated true false rt frb cvm it s
  | .cffproDot rt frb cvm it => cffprUpdated true true rt frb cvm it s

/-- `fp_enabled` of the instruction (spec/60_exceptions.md R194). -/
def enabledBy (i : Instr) (s : State) : Bool :=
  match i with
  | .mffpr _ _ => false
  | .mffprDot _ _ => false
  | .mffprs _ _ => false
  | .mffprsDot _ _ => false
  | .mtfpr _ _ => false
  | .mtfprs _ _ => false
  | .ctfpr _ rb it => (convertToBfp64 it (s.readGpr rb) s.fpscr).fpEnabled
  | .ctfprDot _ rb it => (convertToBfp64 it (s.readGpr rb) s.fpscr).fpEnabled
  | .ctfprs _ rb it => (convertToBfp32 it (s.readGpr rb) s.fpscr).fpEnabled
  | .ctfprsDot _ rb it => (convertToBfp32 it (s.readGpr rb) s.fpscr).fpEnabled
  | .cffpr _ frb cvm it => (fromFprOf s frb cvm it).fpEnabled s.fpscr
  | .cffprDot _ frb cvm it => (fromFprOf s frb cvm it).fpEnabled s.fpscr
  | .cffpro _ frb cvm it => (fromFprOf s frb cvm it).fpEnabled s.fpscr
  | .cffproDot _ frb cvm it => (fromFprOf s frb cvm it).fpEnabled s.fpscr

/-- The checks of `cffpr[o][.]` in their order (spec/42_convert_from_fpr.md R160). -/
theorem cffprForms_eq (oe rc : Bool) (rt : GprNum) (frb : FprNum) (cvm : Cvm) (it : IntType)
    (s : State) :
    cffprForms oe rc rt frb cvm it s =
      if Cvm.legal cvm = true then
        whenFpAvailable s
          (complete ((fromFprOf s frb cvm it).fpEnabled s.fpscr) (cffprUpdated oe rc rt frb cvm it s))
      else .fault (.illegalInstruction (cffprForm s.params.opcodes oe rc rt frb cvm it)) := by
  unfold cffprForms raise; split <;> simp_all

/-- What any instruction does: the `CVM` check, the availability check, the updates, the trap or the
advance. -/
theorem exec_eq (i : Instr) (s : State) :
    exec i s =
      if i.wf = true then whenFpAvailable s (complete (enabledBy i s) (updated i s))
      else .fault (.illegalInstruction (encode s.params.opcodes i)) := by
  cases i <;>
    simp only [exec, execMffpr, execMffprDot, execMffprs, execMffprsDot, execMtfpr, execMtfprs,
      execCtfpr, execCtfprDot, execCtfprs, execCtfprsDot, Instr.wf, enabledBy, updated, if_true]
  all_goals
    simp only [execCffpr, execCffprDot, execCffpro, execCffproDot, cffprForms_eq, encode]
    rfl

/-- When an instruction answers a next state, and which. -/
theorem exec_eq_next {i : Instr} {s t : State} :
    exec i s = .next t ↔ i.wf = true ∧ s.params.fpAvailable = true ∧
      ¬(enabledBy i s = true ∧ (updated i s).params.feMode = .trap) ∧ t = (updated i s).advance := by
  rw [exec_eq]; split <;> simp_all [whenFpAvailable_eq_next, complete_eq_next]

/-- The three ways an instruction faults. -/
theorem exec_eq_fault {i : Instr} {s : State} {f : Fault} (h : exec i s = .fault f) :
    f = .illegalInstruction (encode s.params.opcodes i) ∧ i.wf = false ∨
      f = .fpUnavailable s.cia ∧ s.params.fpAvailable = false ∧ i.wf = true ∨
      f = .fpEnabledException (updated i s).cia (updated i s) ∧ i.wf = true ∧
        s.params.fpAvailable = true ∧ enabledBy i s = true ∧
        (updated i s).params.feMode = .trap := by
  rw [exec_eq] at h
  split at h
  · rcases whenFpAvailable_eq_fault.1 h with ⟨ha, hc⟩ | ⟨ha, hf⟩
    · obtain ⟨he, rfl⟩ := complete_eq_fault.1 hc
      exact .inr (.inr ⟨rfl, ‹_›, ha, he⟩)
    · exact .inr (.inl ⟨hf, ha, ‹_›⟩)
  · exact .inl ⟨by simpa using h.symm, by simp_all⟩

/-- No instruction is refused. -/
theorem exec_ne_refused (i : Instr) (s : State) (r : Refusal) : exec i s ≠ .refused r := by
  rw [exec_eq]; unfold whenFpAvailable complete raise
  split
  · split
    · split <;> simp
    · simp
  · simp

/-! ### What the updates leave alone -/

theorem afterSingle_eq (s : State) (f : Dword) :
    afterSingle s f = { s with draws := if single f = none then s.draws + 1 else s.draws } := by
  unfold afterSingle; cases single f <;> rfl

theorem applyFromFpr_frame (s : State) (rt : GprNum) (c : FromFpr) :
    (s.applyFromFpr rt c).fpr = s.fpr ∧ (s.applyFromFpr rt c).cia = s.cia ∧
      (s.applyFromFpr rt c).cr = s.cr ∧ (s.applyFromFpr rt c).xer = s.xer ∧
      (s.applyFromFpr rt c).imem = s.imem ∧ (s.applyFromFpr rt c).params = s.params := by
  unfold State.applyFromFpr; dsimp only; split <;> simp

theorem recordFromFpr_frame (s : State) (vex : Bool) (v : Dword) :
    (s.recordFromFpr vex v).gpr = s.gpr ∧ (s.recordFromFpr vex v).fpr = s.fpr ∧
      (s.recordFromFpr vex v).cia = s.cia ∧ (s.recordFromFpr vex v).xer = s.xer ∧
      (s.recordFromFpr vex v).fpscr = s.fpscr ∧ (s.recordFromFpr vex v).imem = s.imem ∧
      (s.recordFromFpr vex v).params = s.params := by
  cases vex <;> simp [State.recordFromFpr]

theorem cffprUpdated_frame (oe rc : Bool) (rt : GprNum) (frb : FprNum) (cvm : Cvm) (it : IntType)
    (s : State) :
    (cffprUpdated oe rc rt frb cvm it s).fpr = s.fpr ∧
      (cffprUpdated oe rc rt frb cvm it s).cia = s.cia ∧
      (cffprUpdated oe rc rt frb cvm it s).imem = s.imem ∧
      (cffprUpdated oe rc rt frb cvm it s).params = s.params ∧
      (cffprUpdated oe rc rt frb cvm it s).gpr = (s.applyFromFpr rt (fromFprOf s frb cvm it)).gpr ∧
      (cffprUpdated oe rc rt frb cvm it s).fpscr =
        (s.applyFromFpr rt (fromFprOf s frb cvm it)).fpscr := by
  cases oe <;> cases rc <;> simp [cffprUpdated, recordFromFpr_frame, applyFromFpr_frame]

/-- No instruction updates memory, the parameters or `CIA` (which `advance` does). -/
theorem updated_frame (i : Instr) (s : State) :
    (updated i s).imem = s.imem ∧ (updated i s).params = s.params ∧ (updated i s).cia = s.cia := by
  cases i <;> simp [updated, cffprUpdated_frame, afterSingle_eq]

@[simp] theorem updated_imem (i : Instr) (s : State) : (updated i s).imem = s.imem :=
  (updated_frame i s).1

@[simp] theorem updated_params (i : Instr) (s : State) : (updated i s).params = s.params :=
  (updated_frame i s).2.1

@[simp] theorem updated_cia (i : Instr) (s : State) : (updated i s).cia = s.cia :=
  (updated_frame i s).2.2

/-! ### The step (spec/60_exceptions.md R198) -/

theorem rejected_eq_next {s t : State} {e : DecodeReject} : rejected s e ≠ .next t := by
  cases e <;> simp [rejected, raise]

/-- A step that answers a next state ran a decoded instruction. -/
theorem step_eq_next {s t : State} (h : step s = .next t) :
    s.cia.toNat % 4 = 0 ∧ ∃ w i, s.fetchWord = some w ∧
      decodeWord s.params.opcodes s.params.reservedPolicy w = .ok i ∧ exec i s = .next t := by
  unfold step at h
  split at h
  · simp [raise] at h
  · refine ⟨by omega, ?_⟩
    split at h
    · simp [raise] at h
    · split at h
      · exact absurd h rejected_eq_next
      · exact ⟨_, _, by assumption, by assumption, h⟩

/-- Every outcome of a step: a fault before the instruction, in the state it started in, or the
instruction's own. -/
theorem step_cases (s : State) :
    (∃ f, step s = .fault f ∧ f.stateAt s = s) ∨
      ∃ w i, s.cia.toNat % 4 = 0 ∧ s.fetchWord = some w ∧
        decodeWord s.params.opcodes s.params.reservedPolicy w = .ok i ∧ step s = exec i s := by
  unfold step
  split
  · exact .inl ⟨_, rfl, rfl⟩
  · split
    · exact .inl ⟨_, rfl, rfl⟩
    · rename_i w hw
      split
      · rename_i e _
        cases e <;> exact .inl ⟨_, rfl, rfl⟩
      · exact .inr ⟨w, _, by omega, hw, by assumption, rfl⟩

end Sys2Proof.Laws
end

