-- ==== Sys2Proof/Laws/PerInstr.lean ====
section
/-! SUPPORT. Statements made for each instruction as syntax: the key of its encoding stands in the table
with its base instruction, and its reserved bits are zero (spec/30_encoding.md R96, R101, R109). -/

namespace Sys2Proof.Laws

/-- The encoding of `i` has a key of `i`'s base instruction, and no reserved bit. -/
def EncodedKey.Statement (i : Instr) : Prop :=
  ∀ o : Opcodes, (keyOf (encode o i), i.base) ∈ o.table ∧ encode o i &&& i.base.reservedMask = 0

/-- A word whose reserved bits 11:15 are zero. -/
theorem EncodedKey.middle_zero (po : BitVec 6) (t : Fin 32) (b : Fin 32) (xo : BitVec 10)
    (l : BitVec 1) : xForm po t 0 b xo l &&& 0x001F0000 = 0 := by
  apply and_eq_zero_of_bits
  intro i hi hm
  have : 16 ≤ i ∧ i < 21 := by revert hm; revert i; decide
  rw [xForm_getLsbD]
  repeat' split
  all_goals first | omega | simp

/-- A word whose reserved bits 11:15 and 31 are zero. -/
theorem EncodedKey.middle_last_zero (po : BitVec 6) (t : Fin 32) (b : Fin 32) (xo : BitVec 10) :
    xForm po t 0 b xo 0 &&& 0x001F0001 = 0 := by
  apply and_eq_zero_of_bits
  intro i hi hm
  have : i = 0 ∨ 16 ≤ i ∧ i < 21 := by revert hm; revert i; decide
  rw [xForm_getLsbD]
  repeat' split
  all_goals first | omega | simp

/-- A word whose reserved bits 13:15 are zero. -/
theorem EncodedKey.low_middle_zero (po : BitVec 6) (t : Fin 32) (m : BitVec 2) (b : Fin 32)
    (xo : BitVec 10) (l : BitVec 1) : xForm po t (m ++ 0#3) b xo l &&& 0x00070000 = 0 := by
  apply and_eq_zero_of_bits
  intro i hi hm
  have : 16 ≤ i ∧ i < 19 := by revert hm; revert i; decide
  rw [xForm_getLsbD]
  repeat' split
  all_goals first | omega | skip
  rw [BitVec.getLsbD_append]
  simp; omega

theorem EncodedKey.mffpr (rt : GprNum) (frb : FprNum) : EncodedKey.Statement (.mffpr rt frb) :=
  fun _ => ⟨by simp [encode, keyOf_xForm, Opcodes.table, Instr.base], EncodedKey.middle_zero ..⟩

theorem EncodedKey.mffprDot (rt : GprNum) (frb : FprNum) : EncodedKey.Statement (.mffprDot rt frb) :=
  fun _ => ⟨by simp [encode, keyOf_xForm, Opcodes.table, Instr.base], EncodedKey.middle_zero ..⟩

theorem EncodedKey.mffprs (rt : GprNum) (frb : FprNum) : EncodedKey.Statement (.mffprs rt frb) :=
  fun _ => ⟨by simp [encode, keyOf_xForm, Opcodes.table, Instr.base], EncodedKey.middle_zero ..⟩

theorem EncodedKey.mffprsDot (rt : GprNum) (frb : FprNum) :
    EncodedKey.Statement (.mffprsDot rt frb) :=
  fun _ => ⟨by simp [encode, keyOf_xForm, Opcodes.table, Instr.base], EncodedKey.middle_zero ..⟩

theorem EncodedKey.mtfpr (frt : FprNum) (rb : GprNum) : EncodedKey.Statement (.mtfpr frt rb) :=
  fun _ => ⟨by simp [encode, keyOf_xForm, Opcodes.table, Instr.base], EncodedKey.middle_last_zero ..⟩

theorem EncodedKey.mtfprs (frt : FprNum) (rb : GprNum) : EncodedKey.Statement (.mtfprs frt rb) :=
  fun _ => ⟨by simp [encode, keyOf_xForm, Opcodes.table, Instr.base], EncodedKey.middle_last_zero ..⟩

theorem EncodedKey.ctfpr (frt : FprNum) (rb : GprNum) (it : IntType) :
    EncodedKey.Statement (.ctfpr frt rb it) :=
  fun _ => ⟨by simp [encode, keyOf_xForm, Opcodes.table, Instr.base], EncodedKey.low_middle_zero ..⟩

theorem EncodedKey.ctfprDot (frt : FprNum) (rb : GprNum) (it : IntType) :
    EncodedKey.Statement (.ctfprDot frt rb it) :=
  fun _ => ⟨by simp [encode, keyOf_xForm, Opcodes.table, Instr.base], EncodedKey.low_middle_zero ..⟩

theorem EncodedKey.ctfprs (frt : FprNum) (rb : GprNum) (it : IntType) :
    EncodedKey.Statement (.ctfprs frt rb it) :=
  fun _ => ⟨by simp [encode, keyOf_xForm, Opcodes.table, Instr.base], EncodedKey.low_middle_zero ..⟩

theorem EncodedKey.ctfprsDot (frt : FprNum) (rb : GprNum) (it : IntType) :
    EncodedKey.Statement (.ctfprsDot frt rb it) :=
  fun _ => ⟨by simp [encode, keyOf_xForm, Opcodes.table, Instr.base], EncodedKey.low_middle_zero ..⟩

theorem EncodedKey.cffpr (rt : GprNum) (frb : FprNum) (cvm : Cvm) (it : IntType) :
    EncodedKey.Statement (.cffpr rt frb cvm it) :=
  fun _ => ⟨by simp [encode, cffprForm, keyOf_xForm, Opcodes.table, Instr.base], BitVec.and_zero⟩

theorem EncodedKey.cffprDot (rt : GprNum) (frb : FprNum) (cvm : Cvm) (it : IntType) :
    EncodedKey.Statement (.cffprDot rt frb cvm it) :=
  fun _ => ⟨by simp [encode, cffprForm, keyOf_xForm, Opcodes.table, Instr.base], BitVec.and_zero⟩

theorem EncodedKey.cffpro (rt : GprNum) (frb : FprNum) (cvm : Cvm) (it : IntType) :
    EncodedKey.Statement (.cffpro rt frb cvm it) :=
  fun _ => ⟨by simp [encode, cffprForm, keyOf_xForm, Opcodes.table, Instr.base], BitVec.and_zero⟩

theorem EncodedKey.cffproDot (rt : GprNum) (frb : FprNum) (cvm : Cvm) (it : IntType) :
    EncodedKey.Statement (.cffproDot rt frb cvm it) :=
  fun _ => ⟨by simp [encode, cffprForm, keyOf_xForm, Opcodes.table, Instr.base], BitVec.and_zero⟩

end Sys2Proof.Laws
end

