-- ==== Sys2Proof/Tests/Slice0.lean ====
section
/-! SUPPORT. Tests: ill-formed instructions refused, words decoded, one step of each instruction on values
of spec/95_test_vectors.md, and for each statement with hypotheses a state and operands that meet them. -/

namespace Sys2Proof.Tests

open Sys2Proof.Machine

-- one thread: every `decide +kernel` waits for the kernel, and a waiting task takes a thread of its own
set_option Elab.async false

/-! ### Helpers -/

/-- The next state of an outcome. -/
def after : Outcome → Option State
  | .next s => some s
  | .fault _ => none
  | .refused _ => none

/-- The fault of an outcome. -/
def faulted : Outcome → Option Fault
  | .next _ => none
  | .fault f => some f
  | .refused _ => none

/-- The reset state with one GPR and one FPR set, and the `FPSCR` of the vector. -/
def given (gpr : GprNum) (g : Dword) (fpr : FprNum) (f : Dword) (c : FPSCR) : State :=
  ((State.reset.writeGpr gpr g).writeFpr fpr f).writeFpscr c

/-- `FPSCR` with every bit 0 (spec/95_test_vectors.md, conventions). -/
def clear : FPSCR := State.reset.fpscr

/-- The state with `XER.SO` set. -/
def withSO (s : State) : State := s.writeXer { s.xer with so := true }

/-- The state with `FE_MODE` = `trap`. -/
def trapping (s : State) : State := s.withFeMode .trap

/-- The state with `RESERVED_POLICY` = `must_be_zero`. -/
def strict (s : State) : State := { s with params := { s.params with reservedPolicy := .mustBeZero } }

/-- The state with `FP_AVAILABLE` false. -/
def withoutFp (s : State) : State := { s with params := { s.params with fpAvailable := false } }

/-- The reset state with a word loaded. -/
def loaded (w : Nat) : State := State.reset.withFetchWord 32 w

/-- An outcome that is a next state. -/
theorem next_of {o : Outcome} (h : (after o).isSome = true) : ∃ t, o = .next t := by
  cases o with
  | next t => exact ⟨t, rfl⟩
  | fault f => cases h
  | refused r => cases h

/-- An outcome that is an `FPEnabledException`. -/
def isTrap : Outcome → Bool
  | .fault (.fpEnabledException _ _) => true
  | _ => false

theorem trap_of {o : Outcome} (h : isTrap o = true) :
    ∃ c t, o = .fault (.fpEnabledException c t) := by
  unfold isTrap at h
  split at h
  · exact ⟨_, _, rfl⟩
  · cases h

/-- The state at another `CIA`. -/
def atCia (s : State) (c : Dword) : State := { s with cia := c }

/-! ### Ill-formed instructions (spec/30_encoding.md R102 (a)) -/

theorem test_wf_refuses_cffpr : Instr.wf (.cffpr 5 1 6 .d) = false := by decide

theorem test_wf_refuses_cffprDot : Instr.wf (.cffprDot 5 1 7 .w) = false := by decide

theorem test_wf_refuses_cffpro : Instr.wf (.cffpro 5 1 6 .uw) = false := by decide

theorem test_wf_refuses_cffproDot : Instr.wf (.cffproDot 5 1 7 .ud) = false := by decide

theorem test_wf_accepts_cvm_five : Instr.wf (.cffproDot 5 1 5 .ud) = true := by decide

/-! ### Words (spec/95_test_vectors.md 2.1, under the test assignment T) -/

theorem test_word_mffpr : decodeTableWord 32 0x04800802 = some (.mffpr 4 1) := by decide

theorem test_word_mffprDot : decodeTableWord 32 0x04800803 = some (.mffprDot 4 1) := by decide

theorem test_word_mffprs : decodeTableWord 32 0x07E0F804 = some (.mffprs 31 31) := by decide

theorem test_word_mffprsDot : decodeTableWord 32 0x04801005 = some (.mffprsDot 4 2) := by decide

theorem test_word_mtfpr : decodeTableWord 32 0x04201806 = some (.mtfpr 1 3) := by decide

theorem test_word_mtfprs : decodeTableWord 32 0x04401808 = some (.mtfprs 2 3) := by decide

theorem test_word_ctfpr : decodeTableWord 32 0x0468380A = some (.ctfpr 3 7 .uw) := by decide

theorem test_word_ctfprDot : decodeTableWord 32 0x0468380B = some (.ctfprDot 3 7 .uw) := by decide

theorem test_word_ctfprs : decodeTableWord 32 0x0418000C = some (.ctfprs 0 0 .ud) := by decide

theorem test_word_ctfprsDot : decodeTableWord 32 0x0420180D = some (.ctfprsDot 1 3 .w) := by decide

theorem test_word_cffpr : decodeTableWord 32 0x04B0080E = some (.cffpr 5 1 0 .d) := by decide

theorem test_word_cffprDot : decodeTableWord 32 0x04BD080F = some (.cffprDot 5 1 5 .ud) := by decide

theorem test_word_cffpro : decodeTableWord 32 0x05110C0E = some (.cffpro 8 1 1 .d) := by decide

theorem test_word_cffproDot : decodeTableWord 32 0x04E4140F = some (.cffproDot 7 2 4 .w) := by decide

/-- The field split of spec/95_test_vectors.md 2.1, put together again by the encoder. -/
theorem test_encode_cffproDot : encode Config.assignmentT (.cffproDot 7 2 4 .w) = 0x04E4140F := by decide

theorem test_reserved_ignored :
    decodeWord Config.assignmentT .ignore 0x04201807 = .ok (.mtfpr 1 3) := by decide

theorem test_reserved_refused :
    decodeWord Config.assignmentT .mustBeZero 0x04201807 = .error (.illegal 0x04201807) := by decide

theorem test_key_outside :
    decodeWord Config.assignmentT .ignore 0x04000010 = .error (.outOfScope 0x04000010) := by decide

/-- spec/95_test_vectors.md part 3: the byte image of a word under `LE`. -/
theorem test_word_le : wordOfBytes .le 0x06 0x18 0x20 0x04 = 0x04201806 := by decide

/-! ### One step of each instruction -/

/-- 2.3: the pattern of -1.0 is copied. -/
theorem test_mffpr :
    (after (exec (.mffpr 4 2) (given 0 0 2 0xBFF0000000000000 clear))).map (·.readGpr 4) =
      some 0xBFF0000000000000 := by decide +kernel

/-- 2.3: -0.0 is negative as an integer. -/
theorem test_mffprDot :
    (after (exec (.mffprDot 4 2) (given 0 0 2 0x8000000000000000 clear))).map (·.cr.cr0) =
      some 0b1000 := by decide +kernel

/-- 2.2: 2^-130 is a single denormal. -/
theorem test_mffprs_denormal :
    (after (exec (.mffprs 4 2) (given 0 0 2 0x37D0000000000000 clear))).map (·.readGpr 4) =
      some 0x00080000 := by decide +kernel

/-- 2.2: truncated, not rounded. -/
theorem test_mffprs_truncates :
    (after (exec (.mffprs 4 2) (given 0 0 2 0x380FFFFFFFFFFFFF clear))).map (·.readGpr 4) =
      some 0x007FFFFF := by decide +kernel

/-- 40_move_fpr.md R125: -1.0 with `SO` = 1 records `GT` and `SO`. -/
theorem test_mffprsDot :
    (after (exec (.mffprsDot 3 1) (withSO (given 0 0 1 0xBFF0000000000000 clear)))).map
      (fun s => (s.readGpr 3, s.cr.cr0)) = some (0xBF800000, 0b0101) := by decide +kernel

/-- 40_move_fpr.md R126. -/
theorem test_mtfpr :
    (after (exec (.mtfpr 1 3) (given 3 0x400921FB54442D18 0 0 clear))).map (·.readFpr 1) =
      some 0x400921FB54442D18 := by decide +kernel

/-- 40_move_fpr.md R127: the upper half is ignored. -/
theorem test_mtfprs :
    (after (exec (.mtfprs 1 3) (given 3 0xFFFFFFFF3FC00000 0 0 clear))).map (·.readFpr 1) =
      some 0x3FF8000000000000 := by decide +kernel

/-- 2.2: the smallest single denormal is normalised. -/
theorem test_mtfprs_denormal :
    (after (exec (.mtfprs 1 3) (given 3 0x00000001 0 0 clear))).map (·.readFpr 1) =
      some 0x36A0000000000000 := by decide +kernel

/-- 2.4: signed 32-bit, the upper half ignored. -/
theorem test_ctfpr_w :
    (after (exec (.ctfpr 1 3 .w) (given 3 0xDEADBEEF80000000 0 0 clear))).map
      (fun s => (s.readFpr 1, s.fpscr)) = some (0xC1E0000000000000, clear) := by decide +kernel

/-- 2.4: 2^53 + 3 under nearest-even is rounded up to an even significand. -/
theorem test_ctfpr_d :
    (after (exec (.ctfpr 1 3 .d) (given 3 0x0020000000000003 0 0 clear))).map
      (fun s => (s.readFpr 1, s.fpscr.fprf, s.fpscr.fr, s.fpscr.fi)) =
      some (0x4340000000000002, 0b00100, true, true) := by decide +kernel

/-- 2.4: `CR1` of a form that leaves `FPSCR` alone. -/
theorem test_ctfprDot_w :
    (after (exec (.ctfprDot 1 3 .w) (given 3 1 0 0 { clear with fx := true, ox := true }))).map
      (·.cr.cr1) = some 0b1001 := by decide +kernel

/-- 2.4: an inexact result with `XE` set sets `FX` and `FEX` in `CR1`. -/
theorem test_ctfprDot_d :
    (after (exec (.ctfprDot 1 3 .d) (given 3 0x0020000000000001 0 0 { clear with xe := true }))).map
      (fun s => (s.readFpr 1, s.cr.cr1)) = some (0x4340000000000000, 0b1100) := by decide +kernel

/-- 2.5: -(2^24 + 1) under round toward -Infinity. -/
theorem test_ctfprs_w :
    (after (exec (.ctfprs 1 3 .w) (given 3 0xFFFFFFFFFEFFFFFF 0 0 { clear with rn := 3 }))).map
      (fun s => (s.readFpr 1, s.fpscr.fr)) = some (0xC170000020000000, true) := by decide +kernel

/-- 2.5: 2^64 - 1 truncated. -/
theorem test_ctfprs_ud :
    (after (exec (.ctfprs 1 3 .ud) (given 3 0xFFFFFFFFFFFFFFFF 0 0 { clear with rn := 1 }))).map
      (fun s => (s.readFpr 1, s.fpscr.fr, s.fpscr.fi)) =
      some (0x43EFFFFFE0000000, false, true) := by decide +kernel

/-- Part 3, P3 step 1. -/
theorem test_ctfprsDot :
    (after (exec (.ctfprsDot 1 3 .w) (given 3 0x0000000001000001 0 0 clear))).map
      (fun s => (s.readFpr 1, s.cr.cr1)) = some (0x4170000000000000, 0b1000) := by decide +kernel

/-- 2.8: 1.5 truncated: inexact, not incremented. -/
theorem test_cffpr_truncates :
    (after (exec (.cffpr 3 1 1 .w) (given 3 0 1 0x3FF8000000000000 clear))).map
      (fun s => (s.readGpr 3, s.fpscr.xx, s.fpscr.fr, s.fpscr.fi)) =
      some (1, true, false, true) := by decide +kernel

/-- 2.8: a QNaN with `VXCVI` already set leaves `FX` 0. -/
theorem test_cffpr_nan :
    (after (exec (.cffpr 3 1 0 .w) (given 3 0 1 0x7FF8000000000000 { clear with vxcvi := true }))).map
      (fun s => (s.readGpr 3, s.fpscr.fx, s.fpscr.vxcvi)) =
      some (0xFFFFFFFF80000000, false, true) := by decide +kernel

/-- 2.8: -2.5 to nearest even. -/
theorem test_cffprDot :
    (after (exec (.cffprDot 3 1 0 .d) (given 3 0 1 0xC004000000000000 clear))).map
      (fun s => (s.readGpr 3, s.cr.cr0)) = some (0xFFFFFFFFFFFFFFFE, 0b1000) := by decide +kernel

/-- 2.8: with `VE` set the target keeps its value and `SO` is the only bit of `CR0` the spec gives. -/
theorem test_cffprDot_withheld :
    (after (exec (.cffprDot 3 1 2 .d)
      (given 3 0x1111111111111111 1 0x7FF8000000000000 { clear with ve := true }))).map
      (fun s => (s.readGpr 3, s.fpscr.vxcvi, s.fpscr.fprf)) =
      some (0x1111111111111111, true, 0) := by decide +kernel

/-- 2.8: `XER` is written although `RT` is not. -/
theorem test_cffpro :
    (after (exec (.cffpro 3 1 4 .w)
      (given 3 0x1111111111111111 1 0x41E65A0BC0000000 { clear with ve := true }))).map
      (fun s => (s.readGpr 3, s.xer.so, s.xer.ov, s.xer.ov32)) =
      some (0x1111111111111111, true, true, true) := by decide +kernel

/-- 2.8: E-Type wraps 3e9 and `CR0` sees the new `SO`. -/
theorem test_cffproDot_wraps :
    (after (exec (.cffproDot 3 1 4 .w) (given 3 0 1 0x41E65A0BC0000000 clear))).map
      (fun s => (s.readGpr 3, s.cr.cr0)) = some (0xFFFFFFFFB2D05E00, 0b1001) := by decide +kernel

/-- 2.8: `OV` is 0 after an exact conversion, `SO` stays. -/
theorem test_cffproDot_sticky :
    (after (exec (.cffproDot 3 1 1 .w) (withSO (given 3 0 1 0x3FF8000000000000 clear)))).map
      (fun s => (s.xer.so, s.xer.ov, s.cr.cr0)) = some (true, false, 0b0101) := by decide +kernel

/-- 2.4: with `FE_MODE` = `trap` the step ends in the fault after the updates. -/
theorem test_ctfprDot_traps :
    (faulted (exec (.ctfprDot 1 3 .d)
      (trapping (given 3 0x0020000000000001 0 0 { clear with xe := true })))).map
      (fun f => match f with
        | .fpEnabledException c t => (c, t.cia, t.readFpr 1)
        | _ => (0, 0, 0)) = some (0x1000, 0x1000, 0x4340000000000000) := by decide +kernel

/-- 2.9: a step at 2^64 - 4 wraps. -/
theorem test_step_wraps :
    (after (step ((atCia (given 3 7 0 0 clear) 0xFFFFFFFFFFFFFFFC).withFetchWord 32 0x04201806))).map
      (fun s => (s.readFpr 1, s.cia)) = some (7, 0) := by decide +kernel

/-- The instruction loaded at reset is the one the next step runs. -/
theorem test_step_first :
    (after (step (State.reset.withFetchWord 32 0x04B0080E))).map (·.cia) = some 0x1004 := by
  decide +kernel

/-! ### Witnesses: encoding and decoding -/

theorem witness_DecodeOfEncodeIsIdentity :
    Config.assignmentT.Distinct ∧ (Instr.cffproDot 31 31 5 .ud).WellFormed := by decide

theorem witness_MustBeZeroDecodesExactlyTheEncodings :
    Config.assignmentT.Distinct ∧
      decodeWord Config.assignmentT .mustBeZero 0x04E4140F = .ok (.cffproDot 7 2 4 .w) ∧
      (Instr.cffproDot 7 2 4 .w).WellFormed ∧
      encode Config.assignmentT (.cffproDot 7 2 4 .w) = 0x04E4140F := by decide

theorem witness_DecodedWordIsEncodingUpToReservedBits :
    decodeWord Config.assignmentT .ignore 0x04810802 = .ok (.mffpr 4 1) := by decide

theorem witness_IgnoredReservedBitsHaveNoEffect :
    Config.assignmentT.baseOf (keyOf 0x04201806) = some .mtfpr ∧
      decodeWord Config.assignmentT .ignore 0x04201806 = .ok (.mtfpr 1 3) := by decide

/-! ### Witnesses: the step -/

theorem witness_StepRunsTheDecodedInstruction :
    (loaded 0x04800802).cia.toNat % 4 = 0 ∧ (loaded 0x04800802).fetchWord = some 0x04800802 ∧
      decodeWord (loaded 0x04800802).params.opcodes (loaded 0x04800802).params.reservedPolicy
        0x04800802 = .ok (.mffpr 4 1) := by
  decide +kernel

theorem witness_FetchFaultThenStop :
    (atCia State.reset 0x1001).cia.toNat % 4 ≠ 0 ∧ (atCia State.reset 0x1003).cia.toNat % 4 ≠ 0 ∧
      State.reset.cia.toNat % 4 = 0 ∧
      ∃ k, k < 4 ∧ Memory.read State.reset.imem (State.reset.cia.toNat + k) = none :=
  ⟨by decide, by decide, by decide, 3, by decide, by decide⟩

theorem witness_UndecodedWordsFaultByName :
    ((loaded 0x04000010).cia.toNat % 4 = 0 ∧ (loaded 0x04000010).fetchWord = some 0x04000010 ∧
      ∀ row ∈ (loaded 0x04000010).params.opcodes.table, row.1 ≠ keyOf 0x04000010) ∧
    ((strict (loaded 0x04201807)).cia.toNat % 4 = 0 ∧
      (strict (loaded 0x04201807)).fetchWord = some 0x04201807 ∧
      (strict (loaded 0x04201807)).params.opcodes.baseOf (keyOf 0x04201807) = some .mtfpr ∧
      (strict (loaded 0x04201807)).params.reservedPolicy = .mustBeZero ∧
      0x04201807 &&& Base.reservedMask .mtfpr ≠ 0) := by
  decide +kernel

theorem witness_CvmSixAndSevenAreIllegal :
    ((loaded 0x04B6080E).cia.toNat % 4 = 0 ∧ (loaded 0x04B6080E).fetchWord = some 0x04B6080E ∧
      (loaded 0x04B6080E).params.opcodes.baseOf (keyOf 0x04B6080E) = some .cffpr ∧
      6 ≤ (fieldAt (0x04B6080E : Word) 13 3).toNat) ∧
    ((loaded 0x04B70C0F).cia.toNat % 4 = 0 ∧ (loaded 0x04B70C0F).fetchWord = some 0x04B70C0F ∧
      (loaded 0x04B70C0F).params.opcodes.baseOf (keyOf 0x04B70C0F) = some .cffpr ∧
      6 ≤ (fieldAt (0x04B70C0F : Word) 13 3).toNat) ∧ Cvm.legal 5 = true := by
  decide +kernel

theorem witness_IllegalCvmFaultsInTheMeanings : 6 ≤ (6 : Cvm).toNat ∧ 6 ≤ (7 : Cvm).toNat := by decide

theorem witness_EveryInstructionNeedsFloatingPoint :
    (Instr.cffpr 5 1 5 .d).WellFormed ∧ (withoutFp State.reset).params.fpAvailable = false := by decide

theorem witness_LoadedWordIsExecuted :
    (atCia State.reset 0xFFFFFFFFFFFFFFFC).cia.toNat % 4 = 0 ∧
      Memory.wf (atCia State.reset 0xFFFFFFFFFFFFFFFC).imem = true ∧
      decodeWord (atCia State.reset 0xFFFFFFFFFFFFFFFC).params.opcodes
        (atCia State.reset 0xFFFFFFFFFFFFFFFC).params.reservedPolicy 0x04201806 = .ok (.mtfpr 1 3) ∧
      ∀ k, k < 4 → 0xFFFFFFFFFFFFFFFB ≠ (atCia State.reset 0xFFFFFFFFFFFFFFFC).cia.toNat + k := by
  decide

/-! ### Witnesses: the whole machine -/

/-- `ctfpr. 1, 3, 2` of spec/95_test_vectors.md 2.4 with `XE` set: inexact. -/
def inexact : State := given 3 0x0020000000000001 0 0 { clear with xe := true }

/-- An SNaN in `FPR[1]` with `VE` set (spec/95_test_vectors.md part 3, P4). -/
def enabledSNaN : State := given 3 0x1111111111111111 1 0x7FF4000000000000 { clear with ve := true }

theorem witness_ResetEstablishesTheInvariant : Config.params.WellFormed := by decide

theorem witness_EveryStepKeepsTheInvariant :
    ((atCia State.reset 0xFFFFFFFFFFFFFFFC).withFetchWord 32 0x04800802).Inv ∧
      ∃ t, step ((atCia State.reset 0xFFFFFFFFFFFFFFFC).withFetchWord 32 0x04800802) = .next t :=
  ⟨by decide +kernel, next_of (by decide +kernel)⟩

theorem witness_NoInstructionChangesMemoryOrParameters :
    (∃ t, exec (.cffpro 3 1 0 .w) enabledSNaN = .next t) ∧
      ∃ f, exec (.cffpro 3 1 0 .w) (trapping enabledSNaN) = .fault f :=
  ⟨next_of (by decide +kernel), have ⟨_, _, h⟩ := trap_of (by decide +kernel); ⟨_, h⟩⟩

theorem witness_CiaAdvancesByFourOrStays :
    (∃ t, step (atCia (loaded 0x04800802) 0x1000) = .next t) ∧ ∃ f, step State.reset = .fault f :=
  ⟨next_of (by decide +kernel), ⟨_, rfl⟩⟩

theorem witness_RunsAreStraightLines :
    ∃ t, Sys2Proof.core.run 2 (atCia ((atCia (loaded 0x04800802) 0x1004).withFetchWord 32 0x04201806)
      0x1000) = .next t :=
  next_of (by decide +kernel)

theorem witness_NoInstructionWritesControlState :
    (∃ t, exec (.cffproDot 3 1 0 .w) enabledSNaN = .next t) ∧
      ∃ f, exec (.cffproDot 3 1 0 .w) (trapping enabledSNaN) = .fault f :=
  ⟨next_of (by decide +kernel), have ⟨_, _, h⟩ := trap_of (by decide +kernel); ⟨_, h⟩⟩

theorem witness_StickyBitsAreNeverCleared :
    (∃ t, exec (.cffpro 3 1 1 .w) (withSO (given 3 0 1 0x3FF8000000000000 { clear with ox := true })) =
      .next t) ∧
      (withSO (given 3 0 1 0x3FF8000000000000 { clear with ox := true })).xer.so = true ∧
      (withSO (given 3 0 1 0x3FF8000000000000 { clear with ox := true })).fpscr.exception .ox = true :=
  ⟨next_of (by decide +kernel), by decide +kernel, by decide +kernel⟩

theorem witness_FxRecordsNewExceptions :
    (∃ t, exec (.ctfpr 1 3 .d) inexact = .next t) ∧
      ∃ f, exec (.ctfpr 1 3 .d) (trapping inexact) = .fault f :=
  ⟨next_of (by decide +kernel), have ⟨_, _, h⟩ := trap_of (by decide +kernel); ⟨_, h⟩⟩

theorem witness_OnlyThreeExceptionsCanOccur :
    (after (exec (.ctfpr 1 3 .d) inexact)).map
      (fun t => decide (t.fpscr.exception .xx ≠ inexact.fpscr.exception .xx)) = some true := by
  decide +kernel

theorem witness_OnlyTheTargetRegisterChanges :
    (∃ t, exec (.cffpr 3 1 1 .w) enabledSNaN = .next t) ∧ ∃ t, exec (.ctfpr 1 3 .d) inexact = .next t :=
  ⟨next_of (by decide +kernel), next_of (by decide +kernel)⟩

theorem witness_LegalInstructionsComplete :
    (Instr.cffprDot 3 1 5 .ud).WellFormed ∧ enabledSNaN.params.fpAvailable = true ∧
      enabledSNaN.params.feMode = .ignored := by decide +kernel

theorem witness_TrapStateIsTheCompletedStateAtTheSameCia :
    (∃ c t, exec (.ctfprsDot 1 3 .d) (trapping inexact) = .fault (.fpEnabledException c t)) ∧
      ∃ c t, exec (.cffpro 3 1 0 .w) (trapping enabledSNaN) = .fault (.fpEnabledException c t) :=
  ⟨trap_of (by decide +kernel), trap_of (by decide +kernel)⟩

theorem witness_TrapsComeFromOwnEnabledExceptions :
    (∃ c t, exec (.ctfpr 1 3 .ud) (trapping inexact) = .fault (.fpEnabledException c t)) ∧
      (∃ c t, exec (.ctfprs 1 3 .d) (trapping inexact) = .fault (.fpEnabledException c t)) ∧
      (∃ c t, exec (.cffproDot 3 1 0 .w) (trapping enabledSNaN) = .fault (.fpEnabledException c t)) ∧
      ∃ c t, exec (.cffpr 3 1 1 .w)
        (trapping (given 3 0 1 0x3FF8000000000000 { clear with xe := true })) =
        .fault (.fpEnabledException c t) :=
  ⟨trap_of (by decide +kernel), trap_of (by decide +kernel), trap_of (by decide +kernel),
    trap_of (by decide +kernel)⟩

/-! ### Witnesses: moves, `SINGLE` and `DOUBLE` -/

theorem witness_MffprCopiesTheFpr :
    State.reset.params.fpAvailable = true ∧ (withoutFp State.reset).params.fpAvailable = false := by
  decide

theorem witness_MffprDotRecordsTheSign : State.reset.params.fpAvailable = true := by decide

/-- `SINGLE` is defined at the biased exponent 874 and undefined at 873. -/
theorem witness_MffprsWritesTheSingle :
    State.reset.params.fpAvailable = true ∧
      single (given 0 0 2 0x36A0000000000000 clear).fpr[(2 : FprNum)] = some 1 ∧
      single (given 0 0 2 0x369FFFFFFFFFFFFF clear).fpr[(2 : FprNum)] = none := by decide +kernel

theorem witness_MffprsDotNeverRecordsLessThan :
    State.reset.params.fpAvailable = true ∧
      single (given 0 0 2 0xBFF0000000000000 clear).fpr[(2 : FprNum)] = some 0xBF800000 := by
  decide +kernel

theorem witness_MtfprCopiesTheGpr :
    State.reset.params.fpAvailable = true ∧ (withoutFp State.reset).params.fpAvailable = false := by
  decide

theorem witness_MtfprsWritesTheDouble : State.reset.params.fpAvailable = true := by decide

theorem witness_MovesThereAndBack :
    (∃ t u, exec (.mtfprs 1 3) State.reset = .next t ∧ exec (.mffprs 4 1) t = .next u) ∧
      ∃ t u, exec (.mtfpr 1 3) State.reset = .next t ∧ exec (.mffpr 4 1) t = .next u :=
  ⟨⟨_, _, rfl, rfl⟩, ⟨_, _, rfl, rfl⟩⟩

theorem witness_DoubleKeepsTheValue : fieldAt (0xFFC00001 : Word) 1 8 = 255 := by decide

theorem witness_DoubleOfDenormalInClosedForm :
    (fieldAt (0x00000001 : Word) 1 8 = 0 ∧ fieldAt (0x00000001 : Word) 9 23 ≠ 0) ∧
      fieldAt (0x807FFFFF : Word) 1 8 = 0 ∧ fieldAt (0x807FFFFF : Word) 9 23 ≠ 0 := by decide

/-- The boundaries of the arms: 874, 896 and 897. -/
theorem witness_SingleInClosedForm :
    (fieldAt (0x36A0000000000000 : Dword) 1 11).toNat = 874 ∧
      (fieldAt (0x380FFFFFFFFFFFFF : Dword) 1 11).toNat = 896 ∧
      (fieldAt (0x3810000000000000 : Dword) 1 11).toNat = 897 := by decide

/-! ### Witnesses: comparison and rounding -/

theorem witness_ComparisonsOrderTheExtendedReals :
    isNaN .snan = true ∧ isNaN (.inf true) = false ∧ isNaN (.fin ⟨true, 1⟩) = false ∧
      bfpCompareLt (.inf true) (.fin ⟨true, 1⟩) = true ∧
      bfpCompareLt (.fin ⟨true, 1⟩) (.inf false) = true := by decide

theorem witness_IntegerRoundingIsCorrect :
    ((53 : Nat) = 53 ∨ (53 : Nat) = 24) ∧ (-(2 ^ 64 - 1) : Int).natAbs < 2 ^ 64 := by decide

theorem witness_IntegerEncodingsAreExact :
    (2 ^ 64 : Int).natAbs ≤ 2 ^ 64 ∧ FitsIn 53 (2 ^ 64) ∧ FitsIn 24 (2 ^ 64) :=
  ⟨by decide, ⟨1, 64, by decide, by decide⟩, ⟨1, 64, by decide, by decide⟩⟩

/-! ### Witnesses: conversion to the FPR -/

theorem witness_CtfprOfThirtyTwoBitsIsExact :
    (trapping inexact).params.fpAvailable = true ∧ (IntType.uw = .w ∨ IntType.uw = .uw) := by
  decide +kernel

theorem witness_CtfprOfSixtyFourBitsRounds :
    (IntType.d = .d ∨ IntType.d = .ud) ∧ inexact.params.fpAvailable = true ∧
      inexact.params.feMode = .ignored ∧ (trapping inexact).params.feMode = .trap ∧
      (trapping inexact).fpscr.xe = true ∧
      (roundToPrecision 53 (RoundMode.ofRN inexact.fpscr.rn)
        (BfpFinite.ofInt (operandInt .d inexact.gpr[(3 : GprNum)]))).xx = true := by
  decide +kernel

theorem witness_CtfprsRoundsEveryType :
    inexact.params.fpAvailable = true ∧ inexact.params.feMode = .ignored ∧
      (trapping inexact).params.feMode = .trap ∧ (trapping inexact).fpscr.xe = true ∧
      (roundToPrecision 24 (RoundMode.ofRN inexact.fpscr.rn)
        (BfpFinite.ofInt (operandInt .ud inexact.gpr[(3 : GprNum)]))).xx = true := by
  decide +kernel

theorem witness_ConvertedIntegersAreCorrectlyRounded :
    (∃ t, exec (.ctfpr 1 3 .d) inexact = .next t) ∧ ∃ t, exec (.ctfprsDot 1 3 .w) inexact = .next t :=
  ⟨next_of (by decide +kernel), next_of (by decide +kernel)⟩

/-! ### Witnesses: conversion from the FPR -/

/-- An integral value rounds to itself in every mode. -/
theorem nearestInteger_exact (mode : RoundMode) (v : Int) :
    NearestInteger mode (v * (unitsPerOne : Int)) v := by
  have h := Laws.unitsPerOne_int_pos
  have hn := Laws.unitsPerOne_pos
  cases mode <;> simp only [NearestInteger]
  · simp; omega
  · refine ⟨le_refl _, by omega, ?_⟩
    have : v * (v * (unitsPerOne : Int)) = (v * v) * unitsPerOne := by ring
    rw [this]; exact mul_nonneg (mul_self_nonneg v) (by omega)
  · omega
  · omega

/-- 2^31 - 1, 2^31, -2^31 and -2^31 - 1 stand on the two sides of the ends of the signed 32-bit range. -/
theorem witness_CffprResultFollowsTheSummary :
    (5 : Cvm).toNat ≤ 5 ∧
      bfpConvertFromBfp64 0x41DFFFFFFFC00000 = .fin (BfpFinite.ofInt (typeMax .w)) ∧
      bfpConvertFromBfp64 0x41E0000000000000 = .fin (BfpFinite.ofInt (typeMax .w + 1)) ∧
      bfpConvertFromBfp64 0xC1E0000000000000 = .fin (BfpFinite.ofInt (typeMin .w)) ∧
      bfpConvertFromBfp64 0xC1E0000000200000 = .fin (BfpFinite.ofInt (typeMin .w - 1)) ∧
      ∀ v, NearestInteger (conversionMode 5 0) (BfpFinite.ofInt v).signedUnits v :=
  ⟨by decide, by decide +kernel, by decide +kernel, by decide +kernel, by decide +kernel,
    fun v => by rw [Laws.ofInt_signedUnits]; exact nearestInteger_exact _ v⟩

theorem witness_CffprFlagsInClosedForm :
    (0 : Cvm).toNat ≤ 5 ∧ (convertFromBfp64 0 .w 0 0x7FF4000000000000).overflow = true ∧
      (convertFromBfp64 0 .w 0 0x4045000000000000).overflow = false ∧
      bfpConvertFromBfp64 0x4045000000000000 = .fin (BfpFinite.ofInt 42) ∧
      NearestInteger (conversionMode 0 0) (BfpFinite.ofInt 42).signedUnits 42 :=
  ⟨by decide, by decide +kernel, by decide +kernel, by decide +kernel,
    by rw [Laws.ofInt_signedUnits]; exact nearestInteger_exact _ 42⟩

theorem witness_CffprWritesTheResult :
    enabledSNaN.params.fpAvailable = true ∧ (5 : Cvm).toNat ≤ 5 ∧
      (convertFromBfp64 5 .w enabledSNaN.fpscr.rn enabledSNaN.fpr[(0 : FprNum)]).overflow = false ∧
      enabledSNaN.params.feMode = .ignored := by decide +kernel

theorem witness_CffprWithholdsTheResult :
    enabledSNaN.params.fpAvailable = true ∧ (5 : Cvm).toNat ≤ 5 ∧
      enabledSNaN.params.feMode = .ignored ∧ enabledSNaN.fpscr.ve = true ∧
      (convertFromBfp64 5 .w enabledSNaN.fpscr.rn enabledSNaN.fpr[(1 : FprNum)]).overflow = true := by
  decide +kernel

theorem witness_CffprTrapsOnEnabledInvalid :
    (trapping enabledSNaN).params.fpAvailable = true ∧ (5 : Cvm).toNat ≤ 5 ∧
      (trapping enabledSNaN).params.feMode = .trap ∧ (trapping enabledSNaN).fpscr.ve = true ∧
      (convertFromBfp64 5 .w (trapping enabledSNaN).fpscr.rn
        (trapping enabledSNaN).fpr[(1 : FprNum)]).overflow = true := by
  decide +kernel

theorem witness_CvmAndRnSelectTheRounding :
    (5 : Cvm).toNat % 2 = 1 ∧ (4 : Cvm).toNat % 2 = 0 ∧ isNaN .qnan = true ∧ isInf (.inf true) = true := by
  decide

theorem witness_SaturatingResultTables :
    isNaN .snan = true ∧ isNaN (.inf true) = false ∧ typeMax .w < ((2 ^ 31 : Nat) : Int) ∧
      -((2 ^ 31 + 1 : Nat) : Int) < typeMin .w ∧ typeMin .w ≤ -((2 ^ 31 : Nat) : Int) ∧
      -((2 ^ 31 : Nat) : Int) ≤ typeMax .w := by decide

theorem witness_ThirtyTwoBitIntegersRoundTrip :
    (trapping inexact).params.fpAvailable = true ∧ (5 : Cvm).toNat ≤ 5 ∧
      (IntType.w = .w ∨ IntType.w = .uw) := by decide +kernel

/-- 1.5 with `XE` set (spec/95_test_vectors.md 2.8), `FE_MODE` = `trap`. -/
theorem witness_CffprTrapsOnEnabledInexact :
    let s := trapping (given 3 0 1 0x3FF8000000000000 { clear with xe := true })
    s.params.fpAvailable = true ∧ (5 : Cvm).toNat ≤ 5 ∧ s.params.feMode = .trap ∧
      s.fpscr.xe = true ∧
      (convertFromBfp64 5 .w s.fpscr.rn s.fpr[(1 : FprNum)]).overflow = false ∧
      (convertFromBfp64 5 .w s.fpscr.rn s.fpr[(1 : FprNum)]).xx = true := by
  decide +kernel

end Sys2Proof.Tests
end

namespace Sys2Proof.Proofs

open Sys2Proof.Machine

/-! ### Fields and concatenations as numbers (spec/00_scope.md R7) -/

section Fields

theorem toNat_append_eq {m n : Nat} (x : BitVec m) (y : BitVec n) :
    (x ++ y).toNat = x.toNat * 2 ^ n + y.toNat := by
  rw [BitVec.toNat_append, ← Nat.shiftLeft_add_eq_or_of_lt y.isLt, Nat.shiftLeft_eq]

theorem toNat_fieldAt {n : Nat} (v : BitVec n) (start width : Nat) :
    (fieldAt v start width).toNat = v.toNat / 2 ^ (n - start - width) % 2 ^ width := by
  rw [fieldAt, BitVec.extractLsb'_toNat, Nat.shiftRight_eq_div_pow]

theorem getMsbD_eq_decide {n : Nat} (v : BitVec n) {i : Nat} (h : i < n) :
    v.getMsbD i = decide (v.toNat / 2 ^ (n - 1 - i) % 2 = 1) := by
  rw [BitVec.getMsbD_eq_getLsbD, ← BitVec.testBit_toNat, Nat.testBit_eq_decide_div_mod_eq]
  simp [h]

/-! A floating-point pattern is the concatenation of a sign, an exponent field and a fraction. -/

theorem fieldAt_first {a b c : Nat} (x : BitVec a) (y : BitVec b) (z : BitVec c) :
    fieldAt (x ++ y ++ z) 0 a = x := by
  apply BitVec.eq_of_toNat_eq
  rw [toNat_fieldAt, toNat_append_eq, toNat_append_eq, Nat.add_mul, Nat.mul_assoc, ← Nat.pow_add,
    Nat.add_assoc, show a + b + c - 0 - a = b + c by omega, Nat.mul_comm,
    Nat.mul_add_div (by positivity), Nat.div_eq_of_lt, Nat.add_zero, Nat.mod_eq_of_lt x.isLt]
  rw [← toNat_append_eq]
  exact (y ++ z).isLt

theorem fieldAt_middle {a b c : Nat} (x : BitVec a) (y : BitVec b) (z : BitVec c) :
    fieldAt (x ++ y ++ z) a b = y := by
  apply BitVec.eq_of_toNat_eq
  rw [toNat_fieldAt, toNat_append_eq, toNat_append_eq, show a + b + c - a - b = c by omega,
    Nat.mul_comm, Nat.mul_add_div (by positivity), Nat.div_eq_of_lt z.isLt, Nat.add_zero,
    Nat.mul_comm, Nat.mul_add_mod, Nat.mod_eq_of_lt y.isLt]

theorem fieldAt_last {a b c : Nat} (x : BitVec a) (y : BitVec b) (z : BitVec c) :
    fieldAt (x ++ y ++ z) (a + b) c = z := by
  apply BitVec.eq_of_toNat_eq
  rw [toNat_fieldAt, toNat_append_eq, show a + b + c - (a + b) - c = 0 by omega, Nat.pow_zero,
    Nat.div_one, Nat.mul_comm, Nat.mul_add_mod, Nat.mod_eq_of_lt z.isLt]

theorem getMsbD_first {a b c : Nat} (x : BitVec (a + 1)) (y : BitVec b) (z : BitVec c) :
    (x ++ y ++ z).getMsbD 0 = x.getMsbD 0 := by
  simp [BitVec.getMsbD_append]

theorem getMsbD_last {a b c : Nat} (x : BitVec a) (y : BitVec b) (z : BitVec c) :
    (x ++ y ++ z).getMsbD (a + b) = z.getMsbD 0 := by
  simp [BitVec.getMsbD_append]

@[simp] theorem getMsbD_ofBool_zero (b : Bool) : (BitVec.ofBool b).getMsbD 0 = b := by
  cases b <;> rfl

/-- The low word of a register (spec/00_scope.md R7). -/
theorem fieldAt_low_word (v : Dword) : fieldAt v 32 32 = v.setWidth 32 := by
  apply BitVec.eq_of_toNat_eq
  rw [toNat_fieldAt, BitVec.toNat_setWidth]
  omega

/-- A word is its sign, its exponent field and its fraction. -/
theorem word_eq_fields (w : Word) : w = fieldAt w 0 1 ++ fieldAt w 1 8 ++ fieldAt w 9 23 := by
  apply BitVec.eq_of_toNat_eq
  rw [toNat_append_eq, toNat_append_eq]
  simp only [toNat_fieldAt]
  omega

end Fields

/-! ### Reading a pattern (spec/00_scope.md R16, R17, R24) -/

section Patterns

variable (s : BitVec 1)

theorem bfp64_of_normal (e : BitVec 11) (m : BitVec 52) (h0 : e.toNat ≠ 0)
    (h1 : e.toNat ≠ 2047) :
    bfpConvertFromBfp64 (s ++ e ++ m) =
      .fin ⟨s.getMsbD 0, (2 ^ 52 + m.toNat) * 2 ^ (e.toNat - 1)⟩ := by
  simp only [bfpConvertFromBfp64, fieldAt_middle s e m, fieldAt_last s e m, getMsbD_first s e m, h0,
    h1, if_false]

theorem bfp64_of_denormal (m : BitVec 52) :
    bfpConvertFromBfp64 (s ++ 0#11 ++ m) = .fin ⟨s.getMsbD 0, m.toNat⟩ := by
  simp only [bfpConvertFromBfp64, fieldAt_middle s 0#11 m, fieldAt_last s 0#11 m,
    getMsbD_first s 0#11 m]
  rw [if_neg (by decide), if_pos (by decide)]

theorem bfp64_of_special (m : BitVec 52) :
    bfpConvertFromBfp64 (s ++ 2047#11 ++ m) =
      if m.toNat = 0 then .inf (s.getMsbD 0) else if m.getMsbD 0 then .qnan else .snan := by
  simp only [bfpConvertFromBfp64, fieldAt_middle s 2047#11 m, fieldAt_last s 2047#11 m,
    getMsbD_first s 2047#11 m, getMsbD_last s 2047#11 m]
  simp

theorem bfp32_of_normal (e : BitVec 8) (m : BitVec 23) (h0 : e.toNat ≠ 0) (h1 : e.toNat ≠ 255) :
    bfpConvertFromBfp32 (s ++ e ++ m) =
      .fin ⟨s.getMsbD 0, (2 ^ 23 + m.toNat) * 2 ^ (e.toNat + 924)⟩ := by
  simp only [bfpConvertFromBfp32, fieldAt_middle s e m, fieldAt_last s e m, getMsbD_first s e m, h0,
    h1, if_false]

theorem bfp32_of_denormal (m : BitVec 23) :
    bfpConvertFromBfp32 (s ++ 0#8 ++ m) = .fin ⟨s.getMsbD 0, m.toNat * 2 ^ 925⟩ := by
  simp only [bfpConvertFromBfp32, fieldAt_middle s 0#8 m, fieldAt_last s 0#8 m,
    getMsbD_first s 0#8 m]
  rw [if_neg (by decide), if_pos (by decide)]

theorem bfp32_of_special (m : BitVec 23) :
    bfpConvertFromBfp32 (s ++ 255#8 ++ m) =
      if m.toNat = 0 then .inf (s.getMsbD 0) else if m.getMsbD 0 then .qnan else .snan := by
  simp only [bfpConvertFromBfp32, fieldAt_middle s 255#8 m, fieldAt_last s 255#8 m,
    getMsbD_first s 255#8 m, getMsbD_last s 255#8 m]
  simp

theorem class64_of_normal (e : BitVec 11) (m : BitVec 52) (h0 : e.toNat ≠ 0)
    (h1 : e.toNat ≠ 2047) :
    fprfClassBfp64 (s ++ e ++ m) = fprfCode (s.getMsbD 0) .normal := by
  have hones : e ≠ 2047 := fun h => h1 (by rw [h]; rfl)
  have hzeros : e ≠ 0 := fun h => h0 (by rw [h]; rfl)
  simp only [fprfClassBfp64, fieldAt_middle s e m, getMsbD_first s e m, hones, hzeros, if_false]

theorem class32_of_normal (e : BitVec 8) (m : BitVec 23) (h0 : e.toNat ≠ 0) (h1 : e.toNat ≠ 255) :
    fprfClassBfp32 (s ++ e ++ m) = fprfCode (s.getMsbD 0) .normal := by
  have hones : e ≠ 255 := fun h => h1 (by rw [h]; rfl)
  have hzeros : e ≠ 0 := fun h => h0 (by rw [h]; rfl)
  simp only [fprfClassBfp32, fieldAt_middle s e m, getMsbD_first s e m, hones, hzeros, if_false]

end Patterns

/-! ### `DOUBLE` (spec/00_scope.md R29) -/

section Significands

/-- A magnitude shifted left until its highest bit is bit `t`. -/
theorem shifted_bounds {n t : Nat} (hn : n ≠ 0) (ht : n.log2 ≤ t) :
    2 ^ t ≤ n * 2 ^ (t - n.log2) ∧ n * 2 ^ (t - n.log2) < 2 ^ (t + 1) := by
  constructor
  · calc 2 ^ t = 2 ^ n.log2 * 2 ^ (t - n.log2) := (pow_mul_pow_sub 2 ht).symm
      _ ≤ n * 2 ^ (t - n.log2) := Nat.mul_le_mul_right _ (Nat.log2_self_le hn)
  · calc n * 2 ^ (t - n.log2) < 2 ^ (n.log2 + 1) * 2 ^ (t - n.log2) :=
          Nat.mul_lt_mul_of_pos_right Nat.lt_log2_self (by positivity)
      _ = 2 ^ (t + 1) := by rw [pow_succ, Nat.mul_right_comm, pow_mul_pow_sub 2 ht, pow_succ]

end Significands

section Double

/-- The four kinds of word (spec/00_scope.md R17): zero, denormal, normal, and Infinity or NaN. -/
theorem word_kinds (w : Word) :
    (fieldAt w 1 8 = 0#8 ∧ fieldAt w 9 23 = 0#23) ∨
      (fieldAt w 1 8 = 0#8 ∧ (fieldAt w 9 23).toNat ≠ 0) ∨
      (0 < (fieldAt w 1 8).toNat ∧ (fieldAt w 1 8).toNat < 255) ∨ fieldAt w 1 8 = 255#8 := by
  have hlt := (fieldAt w 1 8).isLt
  simp only [BitVec.toNat_eq, BitVec.toNat_ofNat]
  omega

theorem double_of_normal (w : Word) (h0 : 0 < (fieldAt w 1 8).toNat)
    (h1 : (fieldAt w 1 8).toNat < 255) :
    double w = fieldAt w 0 1 ++ BitVec.ofNat 11 ((fieldAt w 1 8).toNat + 896) ++
      (fieldAt w 9 23 ++ 0#29) := by
  have hw := w.isLt
  have hb := getMsbD_eq_decide w (show 1 < 32 by decide)
  simp only [double, and_self, if_true, h0, h1]
  apply BitVec.eq_of_toNat_eq
  rcases Nat.mod_two_eq_zero_or_one (w.toNat / 2 ^ (32 - 1 - 1)) with hr | hr
  all_goals
    simp only [hb, hr, toNat_append_eq, toNat_fieldAt, BitVec.toNat_ofNat]
    simp
    omega

theorem double_of_special (w : Word) (he : fieldAt w 1 8 = 255#8) :
    double w = fieldAt w 0 1 ++ 2047#11 ++ (fieldAt w 9 23 ++ 0#29) := by
  have hexp : w.toNat / 2 ^ (32 - 1 - 8) % 2 ^ 8 = 255 := by rw [← toNat_fieldAt, he]; rfl
  rw [double, if_neg (by simp [he]), if_neg (by simp [he])]
  apply BitVec.eq_of_toNat_eq
  simp only [toNat_append_eq, toNat_fieldAt, BitVec.toNat_ofNat]
  omega

theorem double_of_zero (w : Word) (he : fieldAt w 1 8 = 0#8) (hf : fieldAt w 9 23 = 0#23) :
    double w = fieldAt w 0 1 ++ 0#11 ++ 0#52 := by
  have hexp : w.toNat / 2 ^ (32 - 1 - 8) % 2 ^ 8 = 0 := by rw [← toNat_fieldAt, he]; rfl
  have hfrac : w.toNat / 2 ^ (32 - 9 - 23) % 2 ^ 23 = 0 := by rw [← toNat_fieldAt, hf]; rfl
  rw [double, if_neg (by simp [he]), if_neg (by simp [hf])]
  apply BitVec.eq_of_toNat_eq
  simp only [toNat_append_eq, toNat_fieldAt, BitVec.toNat_ofNat]
  omega

/-- The loop of `DOUBLE` shifts the highest bit of the significand to the front. -/
theorem normalize_eq (n extra : Nat) (frac : BitVec 53) (exp : Int)
    (lo : 2 ^ 52 ≤ frac.toNat * 2 ^ n) (hi : frac.toNat * 2 ^ n < 2 ^ 53) :
    (Machine.normalize (n + extra) frac exp).1.toNat = frac.toNat * 2 ^ n ∧
      (Machine.normalize (n + extra) frac exp).2 = exp - n := by
  have hb := getMsbD_eq_decide frac (show 0 < 53 by decide)
  induction n generalizing frac exp with
  | zero =>
    have hset : frac.getMsbD 0 = true := by rw [hb]; exact decide_eq_true (by omega)
    cases extra <;> simp [Machine.normalize, hset]
  | succ n ih =>
    have hpow : 0 < 2 ^ n := by positivity
    have hsmall : frac.toNat < 2 ^ 52 := by
      rw [pow_succ, ← Nat.mul_assoc] at hi
      have := Nat.le_mul_of_pos_right frac.toNat hpow
      omega
    have hclear : frac.getMsbD 0 = false := by rw [hb]; exact decide_eq_false (by omega)
    have hshift : (fieldAt frac 1 52 ++ 0#1).toNat = frac.toNat * 2 := by
      rw [toNat_append_eq, toNat_fieldAt, BitVec.toNat_ofNat]; omega
    have hmul : (fieldAt frac 1 52 ++ 0#1).toNat * 2 ^ n = frac.toNat * 2 ^ (n + 1) := by
      rw [hshift, pow_succ]; ring
    obtain ⟨hfrac, hexp⟩ := ih (fieldAt frac 1 52 ++ 0#1) (exp - 1) (hmul ▸ lo) (hmul ▸ hi)
      (getMsbD_eq_decide _ (by decide))
    rw [show n + 1 + extra = (n + extra) + 1 by omega, Machine.normalize, hclear]
    refine ⟨hfrac.trans hmul, hexp.trans ?_⟩
    push_cast
    ring

/-- The fraction of the normalised denormal fits its field. -/
theorem fraction_of_denormal {F : Nat} (hF : F ≠ 0) (hk : F.log2 ≤ 52) :
    (BitVec.ofNat 52 ((F - 2 ^ F.log2) * 2 ^ (52 - F.log2))).toNat =
      (F - 2 ^ F.log2) * 2 ^ (52 - F.log2) := by
  obtain ⟨hge, hlt⟩ := shifted_bounds hF hk
  rw [BitVec.toNat_ofNat, Nat.sub_mul, pow_mul_pow_sub 2 hk, Nat.mod_eq_of_lt (by omega)]

/-- The significand `1.fraction` of the normalised denormal, as an integer. -/
theorem significand_of_denormal {F : Nat} (hF : F ≠ 0) (hk : F.log2 ≤ 52) :
    2 ^ 52 + (BitVec.ofNat 52 ((F - 2 ^ F.log2) * 2 ^ (52 - F.log2))).toNat =
      F * 2 ^ (52 - F.log2) := by
  rw [fraction_of_denormal hF hk, Nat.sub_mul, pow_mul_pow_sub 2 hk]
  exact Nat.add_sub_cancel' (shifted_bounds hF hk).1

/-- A denormal word with the fraction `F`, whose highest bit is bit `F.log2`. -/
theorem double_of_denormal (w : Word) {F : Nat} (he : fieldAt w 1 8 = 0#8)
    (hF : (fieldAt w 9 23).toNat = F) (hne : F ≠ 0) :
    double w = fieldAt w 0 1 ++ BitVec.ofNat 11 (F.log2 + 874) ++
      BitVec.ofNat 52 ((F - 2 ^ F.log2) * 2 ^ (52 - F.log2)) := by
  have hf : fieldAt w 9 23 ≠ 0#23 := fun h => hne (by rw [← hF, h]; rfl)
  have hk : F.log2 < 23 := (Nat.log2_lt hne).2 (hF ▸ (fieldAt w 9 23).isLt)
  have hstart : (0#1 ++ fieldAt w 9 23 ++ 0#29).toNat * 2 ^ (23 - F.log2) =
      F * 2 ^ (52 - F.log2) := by
    rw [show 52 - F.log2 = 29 + (23 - F.log2) by omega, Nat.pow_add, ← Nat.mul_assoc,
      toNat_append_eq, toNat_append_eq, hF]
    simp
  have hbounds := shifted_bounds hne (show F.log2 ≤ 52 by omega)
  have hloop := normalize_eq (23 - F.log2) (30 + F.log2) (0#1 ++ fieldAt w 9 23 ++ 0#29) (-126)
    (hstart ▸ hbounds.1) (hstart ▸ hbounds.2)
  rw [hstart, show 23 - F.log2 + (30 + F.log2) = 53 by omega] at hloop
  obtain ⟨hfrac, hexp⟩ := hloop
  have hexponent : BitVec.ofInt 11
      ((Machine.normalize 53 (0#1 ++ fieldAt w 9 23 ++ 0#29) (-126)).2 + 1023) =
      BitVec.ofNat 11 (F.log2 + 874) := by
    rw [hexp, ← BitVec.ofInt_natCast]; congr 1; omega
  have hfraction : fieldAt (Machine.normalize 53 (0#1 ++ fieldAt w 9 23 ++ 0#29) (-126)).1 1 52 =
      BitVec.ofNat 52 ((F - 2 ^ F.log2) * 2 ^ (52 - F.log2)) := by
    have hsig := significand_of_denormal hne (show F.log2 ≤ 52 by omega)
    apply BitVec.eq_of_toNat_eq
    rw [toNat_fieldAt, hfrac]
    omega
  rw [double, if_neg (by simp [he]), if_pos ⟨by simp [he], hf⟩]
  dsimp only
  rw [hexponent, hfraction]

end Double

section DoubleValue

/-- The value of a word whose exponent field is known. -/
theorem bfp32_eq_of_exponent (w : Word) {e : BitVec 8} (he : fieldAt w 1 8 = e) :
    bfpConvertFromBfp32 w = bfpConvertFromBfp32 (fieldAt w 0 1 ++ e ++ fieldAt w 9 23) := by
  rw [← he, ← word_eq_fields]

theorem double_value_of_normal (w : Word) (h0 : 0 < (fieldAt w 1 8).toNat)
    (h1 : (fieldAt w 1 8).toNat < 255) :
    bfpConvertFromBfp64 (double w) = bfpConvertFromBfp32 w := by
  have hunits (E M : Nat) : (2 ^ 52 + M * 2 ^ 29) * 2 ^ (E + 896 - 1) =
      (2 ^ 23 + M) * 2 ^ (E + 924) := by
    rw [show E + 924 = 29 + (E + 896 - 1) by omega, Nat.pow_add, ← Nat.mul_assoc]
    ring
  have he : (BitVec.ofNat 11 ((fieldAt w 1 8).toNat + 896)).toNat =
      (fieldAt w 1 8).toNat + 896 := by
    rw [BitVec.toNat_ofNat, Nat.mod_eq_of_lt (by omega)]
  rw [double_of_normal w h0 h1, bfp64_of_normal _ _ _ (by omega) (by omega),
    bfp32_eq_of_exponent w rfl, bfp32_of_normal _ _ _ (by omega) (by omega), he, toNat_append_eq,
    BitVec.toNat_ofNat, Nat.zero_mod, Nat.add_zero, hunits]

theorem double_value_of_denormal (w : Word) {F : Nat} (he : fieldAt w 1 8 = 0#8)
    (hF : (fieldAt w 9 23).toNat = F) (hne : F ≠ 0) :
    bfpConvertFromBfp64 (double w) = bfpConvertFromBfp32 w := by
  have hk : F.log2 < 23 := (Nat.log2_lt hne).2 (hF ▸ (fieldAt w 9 23).isLt)
  have hexp : (BitVec.ofNat 11 (F.log2 + 874)).toNat = F.log2 + 874 := by
    rw [BitVec.toNat_ofNat, Nat.mod_eq_of_lt (by omega)]
  have hunits : F * 2 ^ (52 - F.log2) * 2 ^ (F.log2 + 874 - 1) = F * 2 ^ 925 := by
    rw [Nat.mul_assoc, ← Nat.pow_add]
    exact congrArg (fun e => F * 2 ^ e) (show _ = 925 by omega)
  rw [double_of_denormal w he hF hne, bfp64_of_normal _ _ _ (by omega) (by omega), hexp,
    significand_of_denormal hne (by omega), bfp32_eq_of_exponent w he, bfp32_of_denormal, hF,
    hunits]

theorem double_value_of_special (w : Word) (he : fieldAt w 1 8 = 255#8) :
    bfpConvertFromBfp64 (double w) = bfpConvertFromBfp32 w := by
  have hzero : (fieldAt w 9 23 ++ 0#29).toNat = 0 ↔ (fieldAt w 9 23).toNat = 0 := by
    rw [toNat_append_eq]; simp
  have hquiet : (fieldAt w 9 23 ++ 0#29).getMsbD 0 = (fieldAt w 9 23).getMsbD 0 := by
    rw [BitVec.getMsbD_append]; rfl
  rw [double_of_special w he, bfp32_eq_of_exponent w he, bfp32_of_special]
  refine (bfp64_of_special _ _).trans ?_
  simp only [hzero, hquiet]

theorem double_value_of_zero (w : Word) (he : fieldAt w 1 8 = 0#8) (hf : fieldAt w 9 23 = 0#23) :
    bfpConvertFromBfp64 (double w) = bfpConvertFromBfp32 w := by
  rw [double_of_zero w he hf, bfp32_eq_of_exponent w he, bfp32_of_denormal, hf]
  exact (bfp64_of_denormal _ _).trans (by rw [BitVec.toNat_zero, BitVec.toNat_zero, Nat.zero_mul])

/-- `DOUBLE` keeps the value of every word. -/
theorem double_value (w : Word) : bfpConvertFromBfp64 (double w) = bfpConvertFromBfp32 w := by
  rcases word_kinds w with ⟨he, hf⟩ | ⟨he, hne⟩ | ⟨h0, h1⟩ | he
  · exact double_value_of_zero w he hf
  · exact double_value_of_denormal w he rfl hne
  · exact double_value_of_normal w h0 h1
  · exact double_value_of_special w he

/-- Settles O39: by the four kinds of word; the payload stands in the pattern of a NaN. -/
theorem doubleKeepsTheValue : Obligations.DoubleKeepsTheValue := by
  intro w
  refine ⟨double_value w, fun he => ?_⟩
  rw [double_of_special w he]
  exact fieldAt_last (fieldAt w 0 1) 2047#11 (fieldAt w 9 23 ++ 0#29)

/-- Settles O40: the three fields of `double_of_denormal`. -/
theorem doubleOfDenormalInClosedForm : Obligations.DoubleOfDenormalInClosedForm := by
  intro w he hf
  have hne : (fieldAt w 9 23).toNat ≠ 0 := fun h => hf (BitVec.eq_of_toNat_eq h)
  have hk : (fieldAt w 9 23).toNat.log2 < 23 := (Nat.log2_lt hne).2 (fieldAt w 9 23).isLt
  dsimp only
  rw [double_of_denormal w he rfl hne]
  refine ⟨?_, ?_, fieldAt_first _ _ _⟩
  · refine (congrArg BitVec.toNat (fieldAt_middle _ _ _)).trans ?_
    rw [BitVec.toNat_ofNat, Nat.mod_eq_of_lt (by omega)]
  · refine (congrArg BitVec.toNat (fieldAt_last _ _ _)).trans ?_
    exact fraction_of_denormal hne (by omega)

end DoubleValue

/-! ### `SINGLE` (spec/00_scope.md R30) -/

section Single

/-- The loop of `SINGLE` shifts the significand right until the exponent is -126. -/
theorem denormalize_eq (n extra : Nat) (frac : BitVec 53) :
    (denormalize (n + extra) frac (-126 - n)).toNat = frac.toNat / 2 ^ n := by
  induction n generalizing frac with
  | zero => cases extra <;> simp [denormalize]
  | succ n ih =>
    have hshift : (0#1 ++ fieldAt frac 0 52).toNat = frac.toNat / 2 := by
      have := frac.isLt
      rw [toNat_append_eq, toNat_fieldAt, BitVec.toNat_ofNat]
      omega
    rw [show n + 1 + extra = (n + extra) + 1 by omega, denormalize, if_pos (by omega),
      show (-126 - (n + 1 : Nat) + 1 : Int) = -126 - n by omega, ih, hshift, Nat.div_div_eq_div_mul,
      Nat.pow_succ, Nat.mul_comm]

theorem single_of_high (f : Dword) (h : 896 < (fieldAt f 1 11).toNat) :
    single f = some (fieldAt f 0 2 ++ fieldAt f 5 30) := by
  simp only [single, h, true_or, if_true]

theorem single_of_zero (f : Dword) (h : fieldAt f 1 63 = 0) :
    single f = some (fieldAt f 0 2 ++ fieldAt f 5 30) := by
  simp only [single, h, or_true, if_true]

/-- A zero magnitude has the exponent field 0. -/
theorem exponent_of_zero {f : Dword} (h : fieldAt f 1 63 = 0) : (fieldAt f 1 11).toNat = 0 := by
  have hn := congrArg BitVec.toNat h
  rw [toNat_fieldAt] at hn ⊢
  simp at hn
  omega

theorem single_of_low (f : Dword) (h0 : 874 ≤ (fieldAt f 1 11).toNat)
    (h1 : (fieldAt f 1 11).toNat ≤ 896) :
    single f = some (fieldAt f 0 1 ++ 0#8 ++ BitVec.ofNat 23
      ((2 ^ 52 + (fieldAt f 12 52).toNat) / 2 ^ (897 - (fieldAt f 1 11).toNat + 29))) := by
  have hnz : fieldAt f 1 63 ≠ 0 := fun h => by have := exponent_of_zero h; omega
  have hfrac :
      fieldAt (denormalize 23 (1#1 ++ fieldAt f 12 52) ((fieldAt f 1 11).toNat - 1023)) 1 23 =
      BitVec.ofNat 23
        ((2 ^ 52 + (fieldAt f 12 52).toNat) / 2 ^ (897 - (fieldAt f 1 11).toNat + 29)) := by
    apply BitVec.eq_of_toNat_eq
    have hloop := denormalize_eq (897 - (fieldAt f 1 11).toNat) ((fieldAt f 1 11).toNat - 874)
      (1#1 ++ fieldAt f 12 52)
    rw [show 897 - (fieldAt f 1 11).toNat + ((fieldAt f 1 11).toNat - 874) = 23 by omega,
      show (-126 - (897 - (fieldAt f 1 11).toNat : Nat) : Int) = (fieldAt f 1 11).toNat - 1023 by
        omega,
      toNat_append_eq] at hloop
    rw [toNat_fieldAt, hloop, BitVec.toNat_ofNat, Nat.div_div_eq_div_mul, ← Nat.pow_add]
    rfl
  rw [single, if_neg (not_or.2 ⟨by omega, hnz⟩), if_pos ⟨h0, h1⟩, hfrac]

theorem single_eq_none (f : Dword) :
    single f = none ↔ fieldAt f 1 63 ≠ 0 ∧ (fieldAt f 1 11).toNat < 874 := by
  by_cases hz : fieldAt f 1 63 = 0
  · simp [single_of_zero f hz, hz]
  · rcases lt_or_ge (fieldAt f 1 11).toNat 874 with he | he
    · have hn : single f = none := by
        rw [single, if_neg (not_or.2 ⟨by omega, hz⟩), if_neg (by omega)]
      exact iff_of_true hn ⟨hz, he⟩
    · rcases le_or_gt (fieldAt f 1 11).toNat 896 with he' | he'
      · simp only [single_of_low f he he', reduceCtorEq, false_iff]; omega
      · simp only [single_of_high f he', reduceCtorEq, false_iff]; omega

/-- Settles O41: the three arms of `SINGLE`, read back field by field. -/
theorem singleInClosedForm : Obligations.SingleInClosedForm := by
  intro f e
  refine ⟨single_eq_none f, fun h0 h1 => ⟨_, single_of_low f h0 h1, fieldAt_first _ _ _,
    fieldAt_middle _ _ _, ?_⟩, fun h => ⟨_, single_of_high f h, ?_, ?_⟩⟩
  · exact (congrArg BitVec.toNat (fieldAt_last _ _ _)).trans (BitVec.toNat_ofNat _ _)
  all_goals
    apply BitVec.eq_of_toNat_eq
    simp only [toNat_fieldAt, toNat_append_eq]
    omega

/-- The first arm of `SINGLE` drops the three copies and the 29 zeros that `DOUBLE` inserts. -/
theorem drop_copies (a : BitVec 2) (n : BitVec 1) (b : BitVec 30) :
    fieldAt (a ++ n ++ n ++ n ++ b ++ 0#29 : Dword) 0 2 = a ∧
      fieldAt (a ++ n ++ n ++ n ++ b ++ 0#29 : Dword) 5 30 = b := by
  have hn : n.toNat = 0 ∨ n.toNat = 1 := by omega
  constructor
  all_goals
    apply BitVec.eq_of_toNat_eq
    simp only [toNat_append_eq, toNat_fieldAt, BitVec.toNat_ofNat]
    rcases hn with hn | hn <;> rw [hn] <;> omega

/-- But for the denormals, `DOUBLE` inserts three copies of a bit after the second bit, and puts 29
zeros at the end. -/
theorem double_inserts_copies (w : Word) (h : fieldAt w 1 8 = 0#8 → fieldAt w 9 23 = 0#23) :
    ∃ n : BitVec 1, double w = fieldAt w 0 2 ++ n ++ n ++ n ++ fieldAt w 2 30 ++ 0#29 := by
  simp only [double]
  split
  · exact ⟨_, rfl⟩
  · rw [if_neg fun hc => hc.2 (h (BitVec.eq_of_toNat_eq hc.1))]
    exact ⟨_, rfl⟩

theorem double_drops_to_word (w : Word) (h : fieldAt w 1 8 = 0#8 → fieldAt w 9 23 = 0#23) :
    fieldAt (double w) 0 2 ++ fieldAt (double w) 5 30 = w := by
  obtain ⟨n, hn⟩ := double_inserts_copies w h
  obtain ⟨hfirst, hlast⟩ := drop_copies (fieldAt w 0 2) n (fieldAt w 2 30)
  rw [hn, hfirst, hlast]
  apply BitVec.eq_of_toNat_eq
  simp only [toNat_append_eq, toNat_fieldAt]
  omega

theorem single_double_of_normal (w : Word) (h0 : 0 < (fieldAt w 1 8).toNat)
    (h1 : (fieldAt w 1 8).toNat < 255) : single (double w) = some w := by
  have hexp : fieldAt (double w) 1 11 = BitVec.ofNat 11 ((fieldAt w 1 8).toNat + 896) := by
    rw [double_of_normal w h0 h1]; exact fieldAt_middle _ _ _
  rw [single_of_high _ (by rw [hexp, BitVec.toNat_ofNat]; omega),
    double_drops_to_word w fun h => by simp [h] at h0]

theorem single_double_of_special (w : Word) (he : fieldAt w 1 8 = 255#8) :
    single (double w) = some w := by
  have hexp : fieldAt (double w) 1 11 = 2047#11 := by
    rw [double_of_special w he]; exact fieldAt_middle _ _ _
  rw [single_of_high _ (by rw [hexp]; decide), double_drops_to_word w fun h => by simp [h] at he]

theorem single_double_of_zero (w : Word) (he : fieldAt w 1 8 = 0#8) (hf : fieldAt w 9 23 = 0#23) :
    single (double w) = some w := by
  have hzero : fieldAt (double w) 1 63 = 0 := by
    rw [double_of_zero w he hf]
    apply BitVec.eq_of_toNat_eq
    rw [toNat_fieldAt, toNat_append_eq, toNat_append_eq]
    simp
    omega
  rw [single_of_zero _ hzero, double_drops_to_word w fun _ => hf]

/-- The low arm of `SINGLE` undoes the normalisation of `DOUBLE`. -/
theorem single_double_of_denormal (w : Word) {F : Nat} (he : fieldAt w 1 8 = 0#8)
    (hF : (fieldAt w 9 23).toNat = F) (hne : F ≠ 0) : single (double w) = some w := by
  have hd := double_of_denormal w he hF hne
  have hk : F.log2 < 23 := (Nat.log2_lt hne).2 (hF ▸ (fieldAt w 9 23).isLt)
  have hsign : fieldAt (double w) 0 1 = fieldAt w 0 1 := by rw [hd]; exact fieldAt_first _ _ _
  have hexp : (fieldAt (double w) 1 11).toNat = F.log2 + 874 := by
    rw [hd]
    refine (congrArg BitVec.toNat (fieldAt_middle _ _ _)).trans ?_
    rw [BitVec.toNat_ofNat, Nat.mod_eq_of_lt (by omega)]
  have hsig : 2 ^ 52 + (fieldAt (double w) 12 52).toNat = F * 2 ^ (52 - F.log2) := by
    rw [hd, ← significand_of_denormal hne (by omega)]
    exact congrArg (fun m : BitVec 52 => 2 ^ 52 + m.toNat) (fieldAt_last _ _ _)
  rw [single_of_low _ (by omega) (by omega), hsign, hexp, hsig,
    show 897 - (F.log2 + 874) + 29 = 52 - F.log2 by omega, Nat.mul_div_cancel _ (by positivity),
    ← hF, BitVec.ofNat_toNat, BitVec.setWidth_eq, ← he, ← word_eq_fields]

/-- `SINGLE` returns the word that `DOUBLE` was given. -/
theorem single_double (w : Word) : single (double w) = some w := by
  rcases word_kinds w with ⟨he, hf⟩ | ⟨he, hne⟩ | ⟨h0, h1⟩ | he
  · exact single_double_of_zero w he hf
  · exact single_double_of_denormal w he rfl hne
  · exact single_double_of_normal w h0 h1
  · exact single_double_of_special w he

/-- Settles O42: `single_double`, by the four kinds of word. -/
theorem singleInvertsDouble : Obligations.SingleInvertsDouble := single_double

end Single

/-! ### The moves (spec/40_move_fpr.md) -/

section Moves

open Sys2Proof.Laws

theorem zero_append_eq_setWidth (w : Word) : (0#32 ++ w : Dword) = w.setWidth 64 := by
  apply BitVec.eq_of_toNat_eq
  rw [toNat_append_eq, BitVec.toNat_setWidth]
  have := w.isLt
  simp
  omega

theorem readGpr_advance (s : State) (r : GprNum) : s.advance.readGpr r = s.readGpr r := rfl

theorem readFpr_advance (s : State) (r : FprNum) : s.advance.readFpr r = s.readFpr r := rfl

/-- Settles O37: the value is kept by `double_value`. -/
theorem mtfprsWritesTheDouble : Obligations.MtfprsWritesTheDouble := by
  intro frt rb s hfp
  refine ⟨exec_eq_next.2 ⟨rfl, hfp, by simp [enabledBy], ?_⟩, double_value _⟩
  simp only [updated, fieldAt_low_word]
  rfl

/-- Settles O38: `SINGLE` inverts `DOUBLE`, and a copied register is read as it was written. -/
theorem movesThereAndBack : Obligations.MovesThereAndBack := by
  intro f rb rt s t u
  constructor
  · intro ht hu
    obtain ⟨-, -, -, rfl⟩ := exec_eq_next.1 ht
    obtain ⟨-, -, -, rfl⟩ := exec_eq_next.1 hu
    simp only [updated, readGpr_advance, readFpr_advance, readGpr_writeGpr_same,
      readFpr_writeFpr_same, singleOrDrawn, single_double, fieldAt_low_word,
      zero_append_eq_setWidth]
  · intro ht hu
    obtain ⟨-, -, -, rfl⟩ := exec_eq_next.1 ht
    obtain ⟨-, -, -, rfl⟩ := exec_eq_next.1 hu
    simp only [updated, readGpr_advance, readFpr_advance, readGpr_writeGpr_same,
      readFpr_writeFpr_same]

/-- Settles O34: by whether `SINGLE` is defined. -/
theorem mffprsWritesTheSingle : Obligations.MffprsWritesTheSingle := by
  intro rt frb s hfp
  refine ⟨fun w hw => exec_eq_next.2 ⟨rfl, hfp, by simp [enabledBy], ?_⟩,
    fun hn => exec_eq_next.2 ⟨rfl, hfp, by simp [enabledBy], ?_⟩⟩
  · simp only [updated, afterSingle, singleOrDrawn, zero_append_eq_setWidth, State.readFpr, hw]
    rfl
  · simp only [updated, afterSingle, singleOrDrawn, zero_append_eq_setWidth, State.readFpr, hn]
    rfl

end Moves

/-! ### The step (spec/60_exceptions.md R198) -/

section Step

/-- Settles O10: an aligned `CIA` passes the first check; the word and the instruction are given. -/
theorem stepRunsTheDecodedInstruction : Obligations.StepRunsTheDecodedInstruction := by
  intro s w i haligned hword hdecode
  have hcheck : ¬s.cia.toNat % 4 ≠ 0 := fun h => h haligned
  simp only [step, if_neg hcheck, hword, hdecode]

end Step

/-! ### `FX` and the exception bits (spec/00_scope.md R28) -/

section Exceptions

open Sys2Proof.Laws

/-- `g` comes after `f`: no sticky bit is lost, and `FX` is new exactly when an exception bit is. -/
def FxFollows (f g : FPSCR) : Prop :=
  FPSCR.StickyLe f g ∧
    (g.fx = true ↔ f.fx = true ∨ ∃ b, f.exception b = false ∧ g.exception b = true)

/-- A change of bits that are neither `FX` nor exceptions. -/
theorem fxFollows_of_same {f g : FPSCR} (hfx : g.fx = f.fx)
    (h : ∀ b, g.exception b = f.exception b) : FxFollows f g := by
  refine ⟨⟨fun hf => hfx.trans hf, fun b hb => (h b).trans hb⟩, ?_⟩
  simp [hfx, h]

theorem FxFollows.refl (f : FPSCR) : FxFollows f f := fxFollows_of_same rfl fun _ => rfl

theorem FxFollows.trans {f g k : FPSCR} (hfg : FxFollows f g) (hgk : FxFollows g k) :
    FxFollows f k := by
  obtain ⟨⟨hfx, hst⟩, hiff⟩ := hfg
  obtain ⟨⟨hfx', hst'⟩, hiff'⟩ := hgk
  refine ⟨⟨fun h => hfx' (hfx h), fun b h => hst' b (hst b h)⟩, ?_⟩
  rw [hiff', hiff, or_assoc]
  refine or_congr_right ⟨?_, ?_⟩
  · rintro (⟨b, hf, hg⟩ | ⟨b, hg, hk⟩)
    · exact ⟨b, hf, hst' b hg⟩
    · exact ⟨b, Bool.eq_false_iff.2 fun hf => by simp [hst b hf] at hg, hk⟩
  · rintro ⟨b, hf, hk⟩
    cases hg : g.exception b with
    | true => exact .inl ⟨b, hf, hg⟩
    | false => exact .inr ⟨b, hg, hk⟩

/-- `SetFX` is such a change. -/
theorem fxFollows_setFXIf (f : FPSCR) (flag : Bool) (b : FpException) :
    FxFollows f (f.setFXIf flag b) := by
  refine ⟨setFXIf_sticky f flag b, ?_⟩
  simp only [setFXIf_fx, setFXIf_exception, Bool.or_eq_true, Bool.and_eq_true, Bool.not_eq_true',
    decide_eq_true_eq]
  refine or_congr_right ⟨fun ⟨hflag, hb⟩ => ⟨b, hb, .inr ⟨hflag, rfl⟩⟩, ?_⟩
  rintro ⟨c, hc, hset | ⟨hflag, rfl⟩⟩
  · simp [hc] at hset
  · exact ⟨hflag, hc⟩

theorem fxFollows_fpscrAfterRounding (f : FPSCR) (cls : BitVec 5) (inc xx : Bool) :
    FxFollows f (fpscrAfterRounding f cls inc xx) :=
  (fxFollows_setFXIf f xx .xx).trans
    (fxFollows_of_same rfl fun b => by cases b <;> rfl)

theorem fxFollows_setExceptions (f : FPSCR) (c : FromFpr) : FxFollows f (c.setExceptions f) :=
  ((fxFollows_setFXIf f _ _).trans (fxFollows_setFXIf _ _ _)).trans (fxFollows_setFXIf _ _ _)

theorem fxFollows_applyFromFpr (s : State) (rt : GprNum) (c : FromFpr) :
    FxFollows s.fpscr (s.applyFromFpr rt c).fpscr := by
  refine (fxFollows_setExceptions s.fpscr c).trans ?_
  unfold State.applyFromFpr
  dsimp only
  split <;> exact fxFollows_of_same rfl fun b => by cases b <;> rfl

theorem fxFollows_convertToBfp64 (it : IntType) (v : Dword) (f : FPSCR) :
    FxFollows f (convertToBfp64 it v f).fpscr := by
  unfold convertToBfp64
  dsimp only
  split
  · exact .refl f
  · exact fxFollows_fpscrAfterRounding ..

/-- What every instruction does to `FX`. -/
theorem fxFollows_updated (i : Instr) (s : State) : FxFollows s.fpscr (updated i s).fpscr := by
  cases i with
  | mffpr | mffprDot | mtfpr | mtfprs => exact .refl _
  | mffprs | mffprsDot => simpa [updated, afterSingle_eq] using .refl _
  | ctfpr | ctfprDot => exact fxFollows_convertToBfp64 ..
  | ctfprs | ctfprsDot => exact fxFollows_fpscrAfterRounding ..
  | cffpr | cffprDot | cffpro | cffproDot =>
    simpa [updated, cffprUpdated_frame] using fxFollows_applyFromFpr ..

/-- The state after an instruction, with its updates made or untouched. -/
theorem fxFollows_exec {i : Instr} {s t : State}
    (h : exec i s = .next t ∨ ∃ f, exec i s = .fault f ∧ t = f.stateAt s) :
    FxFollows s.fpscr t.fpscr := by
  rcases h with h | ⟨f, hf, rfl⟩
  · obtain ⟨-, -, -, rfl⟩ := exec_eq_next.1 h
    exact fxFollows_updated i s
  · rcases exec_eq_fault hf with ⟨rfl, -⟩ | ⟨rfl, -⟩ | ⟨rfl, -⟩
    · exact .refl _
    · exact .refl _
    · exact fxFollows_updated i s

/-- Settles O24: `SetFX` is the only change of `FX` and of the exception bits. -/
theorem fxRecordsNewExceptions : Obligations.FxRecordsNewExceptions :=
  fun _ _ _ h => (fxFollows_exec h).2

end Exceptions

/-! ### Comparison (spec/00_scope.md R19) -/

section Comparison

/-- The place of a value among the extended reals, in units; a NaN has none. -/
def extended : Bfp → Option (WithBot (WithTop Int))
  | .fin x => some (x.signedUnits : WithTop Int)
  | .inf neg => some (if neg then ⊥ else (⊤ : WithTop Int))
  | .qnan => none
  | .snan => none

theorem exists_extended {x : Bfp} (h : isNaN x = false) : ∃ a, extended x = some a := by
  cases x with
  | fin | inf => exact ⟨_, rfl⟩
  | qnan | snan => cases h

theorem compareLt_iff (x y : Bfp) :
    bfpCompareLt x y = true ↔ ∃ a ∈ extended x, ∃ b ∈ extended y, a < b := by
  cases x with
  | qnan | snan => simp [bfpCompareLt, extended]
  | fin x =>
    cases y with
    | fin y => simp [extended, WithBot.coe_lt_coe]
    | inf b =>
      cases b <;> simp [bfpCompareLt, extended]
      exact WithBot.coe_lt_coe.2 (WithTop.coe_lt_top _)
    | qnan | snan => simp [bfpCompareLt, extended]
  | inf a =>
    cases y with
    | fin y => cases a <;> simp [bfpCompareLt, extended, WithBot.bot_lt_coe]
    | inf b => cases a <;> cases b <;> simp [bfpCompareLt, extended]
    | qnan | snan => simp [bfpCompareLt, extended]

theorem compareEq_iff (x y : Bfp) :
    bfpCompareEq x y = true ↔ ∃ a ∈ extended x, ∃ b ∈ extended y, a = b := by
  cases x with
  | qnan | snan => simp [bfpCompareEq, extended]
  | fin x =>
    cases y with
    | fin y => simp [extended, eq_comm]
    | inf b => cases b <;> simp [bfpCompareEq, extended]
    | qnan | snan => simp [bfpCompareEq, extended]
  | inf a =>
    cases y with
    | fin y => cases a <;> simp [bfpCompareEq, extended]
    | inf b => cases a <;> cases b <;> simp [bfpCompareEq, extended]
    | qnan | snan => simp [bfpCompareEq, extended]

theorem compare_of_isNaN {x y : Bfp} (h : isNaN x = true ∨ isNaN y = true) :
    bfpCompareLt x y = false ∧ bfpCompareEq x y = false ∧ bfpCompareGt x y = false := by
  have hnone (z : Bfp) (hz : isNaN z = true) : extended z = none := by
    cases z with
    | fin | inf => cases hz
    | qnan | snan => rfl
  simp only [bfpCompareGt, Bool.eq_false_iff, ne_eq, compareLt_iff, compareEq_iff]
  rcases h with h | h <;> simp [hnone _ h]

theorem compare_trichotomy {x y : Bfp} (hx : isNaN x = false) (hy : isNaN y = false) :
    (bfpCompareLt x y = true ∧ bfpCompareEq x y = false ∧ bfpCompareGt x y = false) ∨
    (bfpCompareLt x y = false ∧ bfpCompareEq x y = true ∧ bfpCompareGt x y = false) ∨
    (bfpCompareLt x y = false ∧ bfpCompareEq x y = false ∧ bfpCompareGt x y = true) := by
  obtain ⟨a, ha⟩ := exists_extended hx
  obtain ⟨b, hb⟩ := exists_extended hy
  simp only [bfpCompareGt, Bool.eq_false_iff, ne_eq, compareLt_iff, compareEq_iff, ha, hb,
    Option.mem_some, exists_eq_left']
  rcases lt_trichotomy a b with h | h | h
  · exact .inl ⟨h, h.ne, h.not_gt⟩
  · exact .inr (.inl ⟨h.not_lt, h, h.not_gt⟩)
  · exact .inr (.inr ⟨h.not_gt, h.ne', h⟩)

theorem compareLt_trans {x y z : Bfp} (hxy : bfpCompareLt x y = true)
    (hyz : bfpCompareLt y z = true) : bfpCompareLt x z = true := by
  obtain ⟨a, ha, b, hb, hab⟩ := (compareLt_iff x y).1 hxy
  obtain ⟨b', hb', c, hc, hbc⟩ := (compareLt_iff y z).1 hyz
  obtain rfl := Option.mem_unique hb hb'
  exact (compareLt_iff x z).2 ⟨a, ha, c, hc, hab.trans hbc⟩

/-- Settles O43: the finite comparisons are those of `signedUnits`. -/
theorem comparisonsOrderTheExtendedReals : Obligations.ComparisonsOrderTheExtendedReals :=
  ⟨fun x y => by simp, fun _ => ⟨rfl, rfl, rfl, rfl⟩, ⟨rfl, rfl, by decide⟩,
    fun _ _ => compare_of_isNaN, fun _ _ => compare_trichotomy, fun _ _ _ => compareLt_trans, rfl⟩

end Comparison

/-! ### Rounding to an integral value (spec/00_scope.md R20) -/

section RoundToInteger

open Sys2Proof.Laws

/-- Truncation, by magnitudes. -/
theorem tdiv_nearest (r : Int) : NearestInteger .towardZero r (r.tdiv unitsPerOne) := by
  have hpos := unitsPerOne_int_pos
  have hdiv := Nat.div_add_mod r.natAbs unitsPerOne
  have hmod := Nat.mod_lt r.natAbs unitsPerOne_pos
  have habs : (r.tdiv unitsPerOne * unitsPerOne).natAbs =
      unitsPerOne * (r.natAbs / unitsPerOne) := by
    rw [Int.natAbs_mul, Int.natAbs_tdiv, Int.natAbs_natCast, Nat.mul_comm]; rfl
  refine ⟨by omega, by omega, ?_⟩
  rcases le_total 0 r with h | h
  · exact mul_nonneg (Int.tdiv_nonneg h hpos.le) h
  · have hneg := Int.tdiv_nonneg (Int.neg_nonneg.2 h) hpos.le
    rw [Int.neg_tdiv] at hneg
    exact mul_nonneg_of_nonpos_of_nonpos (by omega) h

/-- The integer of each mode is nearest. -/
theorem integerNear_nearest (mode : RoundMode) (r : Int) :
    NearestInteger mode r (integerNear mode r) := by
  have hpos := unitsPerOne_int_pos
  have hdiv := Int.mul_ediv_add_emod r unitsPerOne
  have hlo := Int.emod_nonneg r hpos.ne'
  have hhi := Int.emod_lt_of_pos r hpos
  cases mode with
  | towardZero => exact tdiv_nearest r
  | towardNegInf =>
    simp only [NearestInteger, integerNear]
    constructor <;> linarith
  | towardPosInf =>
    have hdiv' := Int.mul_ediv_add_emod (-r) unitsPerOne
    have hlo' := Int.emod_nonneg (-r) hpos.ne'
    have hhi' := Int.emod_lt_of_pos (-r) hpos
    simp only [NearestInteger, integerNear]
    constructor <;> linarith
  | nearestEven =>
    simp only [NearestInteger, integerNear]
    generalize r / unitsPerOne = low at *
    generalize r % unitsPerOne = rest at *
    have hbelow : low * unitsPerOne - r = -rest := by linarith
    have habove : (low + 1) * unitsPerOne - r = unitsPerOne - rest := by linarith
    split_ifs
    · rw [hbelow]; omega
    · rw [habove]; omega
    · rw [hbelow]; omega
    · rw [habove]; omega

/-- Rounding does not cross zero. -/
theorem nearest_nonneg {mode : RoundMode} {r t : Int} (h : NearestInteger mode r t) (hr : 0 ≤ r) :
    0 ≤ t := by
  by_contra ht
  have hpos := unitsPerOne_int_pos
  have hprod : t * unitsPerOne ≤ -unitsPerOne := by nlinarith
  cases mode <;> simp only [NearestInteger] at h
  case towardZero =>
    have : t * r ≤ -r := by nlinarith
    omega
  all_goals omega

theorem nearest_nonpos {mode : RoundMode} {r t : Int} (h : NearestInteger mode r t) (hr : r ≤ 0) :
    t ≤ 0 := by
  by_contra ht
  have hpos := unitsPerOne_int_pos
  have hprod : (unitsPerOne : Int) ≤ t * unitsPerOne := by nlinarith
  cases mode <;> simp only [NearestInteger] at h
  case towardZero =>
    have : t * r ≤ r := by nlinarith
    omega
  all_goals omega

/-- Settles O44: the integer is `integerNear`, whose sign is that of the source. -/
theorem roundToIntegerIsNearest : Obligations.RoundToIntegerIsNearest := by
  intro mode x
  have hnear := integerNear_nearest mode x.signedUnits
  refine ⟨_, rfl, hnear, fun h => nearest_nonpos hnear ?_, fun h => nearest_nonneg hnear ?_⟩
  all_goals simp [BfpFinite.signedUnits, h]

end RoundToInteger

/-! ### Rounding an integer to a precision (spec/00_scope.md R21 to R23) -/

section Rounding

open Sys2Proof.Laws

/-- The integer of a sign and a magnitude. -/
def signed (neg : Bool) (m : Nat) : Int := if neg then -(m : Int) else m

@[simp] theorem natAbs_signed (neg : Bool) (m : Nat) : (signed neg m).natAbs = m := by
  cases neg <;> simp [signed]

theorem signed_natAbs (n : Int) : signed (decide (n < 0)) n.natAbs = n := by
  by_cases h : n < 0
  · simp only [signed, h, decide_true, if_true]; omega
  · simp only [signed, h, decide_false, Bool.false_eq_true, if_false]; omega

theorem ofInt_signed (neg : Bool) {m : Nat} (hm : m ≠ 0) :
    BfpFinite.ofInt (signed neg m) = ⟨neg, m * unitsPerOne⟩ := by
  rw [BfpFinite.ofInt, natAbs_signed]
  cases neg
  · simp [signed]
  · simp [signed, Nat.pos_of_ne_zero hm]

/-- A magnitude of `p` significant bits, the greatest of `p` bits rounded up included. -/
theorem fitsIn_of_eq_mul {p c k : Nat} {r : Int} (hp : 1 ≤ p) (hc : c ≤ 2 ^ p)
    (hr : r.natAbs = c * 2 ^ k) : FitsIn p r := by
  rcases hc.lt_or_eq with h | rfl
  · exact ⟨c, k, h, hr⟩
  · exact ⟨1, p + k, Nat.one_lt_two_pow (by omega), by rw [hr, Nat.pow_add, Nat.one_mul]⟩

/-- The magnitude `m` lies strictly between two neighbouring magnitudes of `p` significant bits. -/
structure Between (p m c k : Nat) : Prop where
  precision : 1 ≤ p
  least : 2 ^ (p - 1) ≤ c
  most : c < 2 ^ p
  below : c * 2 ^ k < m
  above : m < (c + 1) * 2 ^ k

/-- Nothing of `p` significant bits lies strictly between the two neighbours. -/
theorem Between.gap {p m c k : Nat} (h : Between p m c k) {r : Int} (hr : FitsIn p r) :
    r.natAbs ≤ c * 2 ^ k ∨ (c + 1) * 2 ^ k ≤ r.natAbs := by
  obtain ⟨d, j, hd, hr⟩ := hr
  rw [hr]
  rcases le_or_gt k j with hkj | hjk
  · have hmul : d * 2 ^ j = d * 2 ^ (j - k) * 2 ^ k := by
      rw [Nat.mul_assoc, ← Nat.pow_add, Nat.sub_add_cancel hkj]
    rw [hmul]
    rcases Nat.lt_or_ge c (d * 2 ^ (j - k)) with hc | hc
    · exact .inr (Nat.mul_le_mul_right _ hc)
    · exact .inl (Nat.mul_le_mul_right _ hc)
  · left
    have hp := h.precision
    calc d * 2 ^ j ≤ 2 ^ p * 2 ^ j := Nat.mul_le_mul_right _ hd.le
      _ = 2 ^ (p - 1) * 2 ^ (j + 1) := by rw [← Nat.pow_add, ← Nat.pow_add]; congr 1; omega
      _ ≤ c * 2 ^ k := Nat.mul_le_mul h.least (Nat.pow_le_pow_right (by decide) hjk)

/-- The upper neighbour or the lower one. -/
def neighbour (up : Bool) (c k : Nat) : Nat := if up then c * 2 ^ k + 2 ^ k else c * 2 ^ k

theorem neighbour_eq_mul (up : Bool) (c k : Nat) :
    neighbour up c k = (if up then c + 1 else c) * 2 ^ k := by
  cases up
  · rfl
  · exact (Nat.succ_mul c (2 ^ k)).symm

theorem Between.fitsIn {p m c k : Nat} (h : Between p m c k) (neg up : Bool) :
    FitsIn p (signed neg (neighbour up c k)) := by
  refine fitsIn_of_eq_mul h.precision ?_ ((natAbs_signed _ _).trans (neighbour_eq_mul up c k))
  have := h.most
  cases up <;> simp <;> omega

/-- The choice of `RoundMag` between the two neighbours (spec/00_scope.md R21). -/
def roundsUp (mode : RoundMode) (neg : Bool) (rem q c : Nat) : Bool :=
  match mode with
  | .nearestEven =>
    if 2 * rem < q then false
    else if q < 2 * rem then true
    else decide (c % 2 ≠ 0)
  | .towardZero => false
  | .towardPosInf => !neg
  | .towardNegInf => neg

/-- On a tie the even significand is chosen. -/
theorem Between.even_of_tie {p m c k : Nat} (h : Between p m c k) (neg : Bool)
    (htie : 2 * (m - c * 2 ^ k) = 2 ^ k) :
    ∃ c' k' : Nat, c' % 2 = 0 ∧ 2 ^ (p - 1) ≤ c' ∧ c' ≤ 2 ^ p ∧
      neighbour (roundsUp .nearestEven neg (m - c * 2 ^ k) (2 ^ k) c) c k = c' * 2 ^ k' := by
  have hleast := h.least
  have hmost := h.most
  have hup : roundsUp .nearestEven neg (m - c * 2 ^ k) (2 ^ k) c = decide (c % 2 ≠ 0) := by
    simp [roundsUp, htie]
  refine ⟨_, k, ?_, ?_, ?_, neighbour_eq_mul _ c k⟩
  all_goals
    rw [hup]
    rcases Nat.mod_two_eq_zero_or_one c with hc | hc <;> simp [hc] <;> omega

/-- To nearest, the distance to the chosen neighbour is least, and only a tie has two nearest. -/
theorem Between.nearest {p m c k : Nat} (h : Between p m c k) (neg : Bool) {r : Int}
    (hr : FitsIn p r) :
    let x := signed neg (neighbour (roundsUp .nearestEven neg (m - c * 2 ^ k) (2 ^ k) c) c k)
    (x - signed neg m).natAbs ≤ (r - signed neg m).natAbs ∧
      (r ≠ x → (r - signed neg m).natAbs = (x - signed neg m).natAbs →
        2 * (m - c * 2 ^ k) = 2 ^ k) := by
  have hbelow := h.below
  have habove := h.above
  have hgap := h.gap hr
  have hwidth : 2 ^ k ≤ c * 2 ^ k := Nat.le_mul_of_pos_left _ (Nat.one_le_two_pow.trans h.least)
  rw [Nat.succ_mul] at habove hgap
  have hlow (hlt : 2 * (m - c * 2 ^ k) < 2 ^ k) :
      roundsUp .nearestEven neg (m - c * 2 ^ k) (2 ^ k) c = false := by
    simp [roundsUp, hlt]
  have hhigh (hlt : 2 ^ k < 2 * (m - c * 2 ^ k)) :
      roundsUp .nearestEven neg (m - c * 2 ^ k) (2 ^ k) c = true := by
    simp [roundsUp, hlt, hlt.not_gt]
  generalize roundsUp .nearestEven neg (m - c * 2 ^ k) (2 ^ k) c = up at *
  simp only [neighbour]
  generalize c * 2 ^ k = lo at *
  generalize 2 ^ k = q at *
  cases up <;> cases neg
  all_goals
    simp only [reduceCtorEq, imp_false, signed, if_true, if_false, Bool.false_eq_true] at *
    omega

theorem Between.roundsTo {p m c k : Nat} (h : Between p m c k) (mode : RoundMode) (neg : Bool) :
    RoundsTo p mode (signed neg m)
      (signed neg (neighbour (roundsUp mode neg (m - c * 2 ^ k) (2 ^ k) c) c k)) := by
  have hbelow := h.below
  have habove := h.above
  have hgap (r : Int) (hr : FitsIn p r) := h.gap hr
  rw [Nat.succ_mul] at habove
  simp only [Nat.succ_mul] at hgap
  refine ⟨h.fitsIn neg _, ?_⟩
  cases mode with
  | towardZero =>
    simp only [roundsUp, neighbour, natAbs_signed, Bool.false_eq_true, if_false]
    refine ⟨hbelow.le, ?_, fun r hr hle => ?_⟩
    · cases neg <;> simp [signed] <;> positivity
    · have := hgap r hr; omega
  | towardPosInf =>
    cases neg
    all_goals
      simp only [roundsUp, neighbour, signed, if_true, if_false, Bool.not_true, Bool.not_false,
        Bool.false_eq_true]
      refine ⟨by omega, fun r hr hle => ?_⟩
      have := hgap r hr
      omega
  | towardNegInf =>
    cases neg
    all_goals
      simp only [roundsUp, neighbour, signed, if_true, if_false, Bool.false_eq_true]
      refine ⟨by omega, fun r hr hle => ?_⟩
      have := hgap r hr
      omega
  | nearestEven =>
    refine ⟨fun r hr => (h.nearest neg hr).1, fun r hr hne heq => ?_⟩
    rw [natAbs_signed]
    exact h.even_of_tie neg ((h.nearest neg hr).2 hne heq)

theorem roundsTo_self {p : Nat} (mode : RoundMode) {n : Int} (h : FitsIn p n) :
    RoundsTo p mode n n := by
  refine ⟨h, ?_⟩
  cases mode with
  | towardZero => exact ⟨le_rfl, mul_self_nonneg n, fun _ _ hle => hle⟩
  | towardPosInf => exact ⟨le_rfl, fun _ _ hle => hle⟩
  | towardNegInf => exact ⟨le_rfl, fun _ _ hle => hle⟩
  | nearestEven => exact ⟨fun r _ => by simp, fun r _ hne heq => absurd heq (by omega)⟩

/-- The first `p` bits of a magnitude. -/
theorem leading_bits_bounds {p m : Nat} (hp : 1 ≤ p) (he : p ≤ m.log2) :
    2 ^ (p - 1) ≤ m / 2 ^ (m.log2 - p + 1) ∧ m / 2 ^ (m.log2 - p + 1) < 2 ^ p := by
  have hm : m ≠ 0 := fun h => by simp [h] at he; omega
  constructor
  · rw [Nat.le_div_iff_mul_le (by positivity), ← Nat.pow_add,
      show p - 1 + (m.log2 - p + 1) = m.log2 by omega]
    exact Nat.log2_self_le hm
  · rw [Nat.div_lt_iff_lt_mul (by positivity), ← Nat.pow_add,
      show p + (m.log2 - p + 1) = m.log2 + 1 by omega]
    exact Nat.lt_log2_self

/-- `RoundMag` returns a magnitude of `p` bits as it is, and else one of its two neighbours. -/
theorem roundMag_cases (m p : Nat) (mode : RoundMode) (neg : Bool) (hp : 1 ≤ p) :
    (FitsIn p (signed neg m) ∧ roundMag m p mode neg = ⟨m, false, false⟩) ∨
      ∃ c k, Between p m c k ∧ roundMag m p mode neg =
        ⟨neighbour (roundsUp mode neg (m - c * 2 ^ k) (2 ^ k) c) c k,
          roundsUp mode neg (m - c * 2 ^ k) (2 ^ k) c, true⟩ := by
  rcases Nat.lt_or_ge m.log2 p with he | he
  · refine .inl ⟨⟨m, 0, ?_, by simp⟩, by simp [roundMag, he]⟩
    exact Nat.lt_log2_self.trans_le (Nat.pow_le_pow_right (by decide) he)
  · obtain ⟨hleast, hmost⟩ := leading_bits_bounds hp he
    have hbelow := Nat.div_mul_le_self m (2 ^ (m.log2 - p + 1))
    by_cases hrem : m - m / 2 ^ (m.log2 - p + 1) * 2 ^ (m.log2 - p + 1) = 0
    · refine .inl ⟨⟨_, m.log2 - p + 1, hmost, ?_⟩, by simp [roundMag, he.not_gt, hrem]⟩
      rw [natAbs_signed]
      omega
    · have habove : m < (m / 2 ^ (m.log2 - p + 1) + 1) * 2 ^ (m.log2 - p + 1) :=
        (Nat.div_lt_iff_lt_mul (by positivity)).1 (Nat.lt_succ_self _)
      refine .inr ⟨_, _, ⟨hp, hleast, hmost, by omega, habove⟩, ?_⟩
      simp only [roundMag, he.not_gt, hrem, if_false]
      rw [Nat.mul_div_cancel _ (by positivity)]
      cases mode <;> rfl

/-- The integer that `n` is rounded to. -/
def roundedInt (p : Nat) (mode : RoundMode) (n : Int) : Int :=
  signed (decide (n < 0)) (roundMag n.natAbs p mode (decide (n < 0))).mag

theorem roundedInt_roundsTo {p : Nat} (mode : RoundMode) (n : Int) (hp : 1 ≤ p) :
    RoundsTo p mode n (roundedInt p mode n) := by
  rcases roundMag_cases n.natAbs p mode (decide (n < 0)) hp with
    ⟨hfits, heq⟩ | ⟨c, k, hbetween, heq⟩
  · rw [roundedInt, heq, signed_natAbs]
    rw [signed_natAbs] at hfits
    exact roundsTo_self mode hfits
  · have h := hbetween.roundsTo mode (decide (n < 0))
    rw [signed_natAbs] at h
    rwa [roundedInt, heq]

/-- A neighbour is another magnitude, greater than `m` if it is the upper one, and not zero. -/
theorem Between.neighbour_cmp {p m c k : Nat} (h : Between p m c k) (up : Bool) :
    neighbour up c k ≠ m ∧ (m < neighbour up c k ↔ up = true) ∧ (neighbour up c k = 0 ↔ m = 0) := by
  have hbelow := h.below
  have habove := h.above
  have hpos : 0 < c * 2 ^ k := Nat.mul_pos (Nat.one_le_two_pow.trans h.least) (by positivity)
  rw [Nat.succ_mul] at habove
  unfold neighbour
  generalize c * 2 ^ k = lo at *
  generalize 2 ^ k = q at *
  cases up
  · simp only [Bool.false_eq_true, if_false, iff_false]; omega
  · simp only [if_true, iff_true]; omega

/-- The flags of `RoundMag`, and that it keeps zero and only zero. -/
theorem roundMag_flags (m p : Nat) (mode : RoundMode) (neg : Bool) (hp : 1 ≤ p) :
    (roundMag m p mode neg).xx = decide ((roundMag m p mode neg).mag ≠ m) ∧
      (roundMag m p mode neg).inc = decide (m < (roundMag m p mode neg).mag) ∧
      ((roundMag m p mode neg).mag = 0 ↔ m = 0) := by
  rcases roundMag_cases m p mode neg hp with ⟨-, heq⟩ | ⟨c, k, hbetween, heq⟩
  · simp [heq]
  · rw [heq]
    obtain ⟨hne, hlt, hzero⟩ :=
      hbetween.neighbour_cmp (roundsUp mode neg (m - c * 2 ^ k) (2 ^ k) c)
    exact ⟨(decide_eq_true hne).symm, by simp only [hlt, Bool.decide_eq_true], hzero⟩

theorem roundedInt_sign {p : Nat} (mode : RoundMode) (n : Int) (hp : 1 ≤ p) :
    (roundedInt p mode n = 0 ↔ n = 0) ∧ (roundedInt p mode n < 0 ↔ n < 0) := by
  obtain ⟨-, -, hzero⟩ := roundMag_flags n.natAbs p mode (decide (n < 0)) hp
  unfold roundedInt
  generalize (roundMag n.natAbs p mode (decide (n < 0))).mag = r at *
  by_cases hn : n < 0
  · have hs : signed (decide (n < 0)) r = -r := by simp [signed, hn]
    rw [hs]
    omega
  · have hs : signed (decide (n < 0)) r = r := by simp [signed, hn]
    rw [hs]
    omega

/-- Rounding does not go past a power of two. -/
theorem roundedInt_natAbs_le {p t : Nat} (mode : RoundMode) {n : Int} (hp : 1 ≤ p)
    (hn : n.natAbs ≤ 2 ^ t) : (roundedInt p mode n).natAbs ≤ 2 ^ t := by
  rw [roundedInt, natAbs_signed]
  rcases roundMag_cases n.natAbs p mode (decide (n < 0)) hp with ⟨-, heq⟩ | ⟨c, k, hbetween, heq⟩
  · rwa [heq]
  · have hbelow := hbetween.below
    have hpower : FitsIn p ((2 ^ t : Nat) : Int) :=
      ⟨1, t, Nat.one_lt_two_pow (by omega), by rw [Int.natAbs_natCast, Nat.one_mul]⟩
    have hgap := hbetween.gap hpower
    rw [Int.natAbs_natCast, Nat.succ_mul] at hgap
    rw [heq]
    dsimp only [neighbour]
    split <;> omega

/-- Rounding in the working format is rounding of the integer (spec/00_scope.md R22). -/
theorem roundToPrecision_ofInt (p : Nat) (mode : RoundMode) (n : Int) (hp : 1 ≤ p) :
    roundToPrecision p mode (BfpFinite.ofInt n) =
      ⟨BfpFinite.ofInt (roundedInt p mode n), decide (n.natAbs < (roundedInt p mode n).natAbs),
        decide (roundedInt p mode n ≠ n)⟩ := by
  obtain ⟨hxx, hinc, hzero⟩ := roundMag_flags n.natAbs p mode (decide (n < 0)) hp
  by_cases hn : n = 0
  · have hr : roundedInt p mode n = 0 := ((roundedInt_sign mode n hp).1).2 hn
    subst hn
    simp [hr, roundToPrecision, BfpFinite.ofInt]
  · have hunits : (BfpFinite.ofInt n).units = n.natAbs * unitsPerOne := rfl
    have hmag : (roundMag n.natAbs p mode (decide (n < 0))).mag ≠ 0 := by omega
    have hne : roundedInt p mode n = n ↔
        (roundMag n.natAbs p mode (decide (n < 0))).mag = n.natAbs := by
      constructor
      · intro h
        rw [← natAbs_signed (decide (n < 0)) (roundMag n.natAbs p mode (decide (n < 0))).mag]
        exact congrArg Int.natAbs h
      · intro h
        rw [roundedInt, h, signed_natAbs]
    have hnonzero : (BfpFinite.ofInt n).units ≠ 0 :=
      Nat.mul_ne_zero (Int.natAbs_ne_zero.2 hn) unitsPerOne_pos.ne'
    have hquot : (BfpFinite.ofInt n).units / unitsPerOne = n.natAbs :=
      Nat.mul_div_cancel _ unitsPerOne_pos
    have hvalue := ofInt_signed (decide (n < 0)) hmag
    have hxx' : _ = decide (roundedInt p mode n ≠ n) :=
      hxx.trans (decide_eq_decide.2 (not_congr hne.symm))
    have hinc' : _ = decide (n.natAbs < (roundedInt p mode n).natAbs) :=
      hinc.trans (by rw [roundedInt, natAbs_signed])
    rw [roundToPrecision, if_neg hnonzero, hquot, ← hxx', ← hinc', roundedInt, hvalue]
    rfl

/-- Settles O45: the integer is `roundedInt`, one of the two neighbours of `n` or `n` itself. -/
theorem integerRoundingIsCorrect : Obligations.IntegerRoundingIsCorrect := by
  intro p mode n hp _
  have hp' : 1 ≤ p := by omega
  rw [roundToPrecision_ofInt p mode n hp']
  exact ⟨_, rfl, roundedInt_roundsTo mode n hp', rfl, rfl⟩

end Rounding

/-! ### Encoding an integer (spec/00_scope.md R16, R17) -/

section Encoding

open Sys2Proof.Laws

theorem log2_mul_two_pow {m : Nat} (hm : m ≠ 0) (t : Nat) : (m * 2 ^ t).log2 = m.log2 + t := by
  rw [Nat.log2_eq_iff (Nat.mul_ne_zero hm (by positivity))]
  constructor
  · rw [Nat.pow_add]
    exact Nat.mul_le_mul_right _ (Nat.log2_self_le hm)
  · rw [Nat.add_right_comm, Nat.pow_add]
    exact Nat.mul_lt_mul_of_pos_right Nat.lt_log2_self (by positivity)

/-- `S` is the integer `r`, not zero, shifted so that its highest bit is bit `t`. -/
structure Significand (t : Nat) (r : Int) (S : Nat) : Prop where
  nonzero : r ≠ 0
  least : 2 ^ t ≤ S
  most : S < 2 ^ (t + 1)
  shifted : S * 2 ^ r.natAbs.log2 = r.natAbs * 2 ^ t

theorem exists_significand {t : Nat} {r : Int} (hfits : FitsIn (t + 1) r) (hr : r ≠ 0) :
    ∃ S, Significand t r S := by
  obtain ⟨d, j, hd, heq⟩ := hfits
  have hne : r.natAbs ≠ 0 := Int.natAbs_ne_zero.2 hr
  have hd0 : d ≠ 0 := fun h => by simp [h] at heq; omega
  have hlog : d.log2 < t + 1 := (Nat.log2_lt hd0).2 hd
  obtain ⟨hge, hlt⟩ := shifted_bounds hd0 (show d.log2 ≤ t by omega)
  refine ⟨d * 2 ^ (t - d.log2), hr, hge, hlt, ?_⟩
  rw [heq, log2_mul_two_pow hd0, Nat.mul_assoc, ← Nat.pow_add, Nat.mul_assoc, ← Nat.pow_add]
  congr 2
  omega

/-- A single-precision significand in double format. -/
theorem Significand.widen {t r S} (h : Significand t r S) (d : Nat) :
    Significand (t + d) r (S * 2 ^ d) where
  nonzero := h.nonzero
  least := by rw [Nat.pow_add]; exact Nat.mul_le_mul_right _ h.least
  most := by
    rw [Nat.add_right_comm, Nat.pow_add]
    exact Nat.mul_lt_mul_of_pos_right h.most (by positivity)
  shifted := by rw [Nat.mul_right_comm, h.shifted, Nat.mul_assoc, ← Nat.pow_add]

/-- Cutting the shifted integer down to its leading bits. -/
theorem Significand.div_eq {t r S} (h : Significand t r S) (d : Nat) :
    r.natAbs * 2 ^ (t + d) / 2 ^ (r.natAbs.log2 + d) = S := by
  rw [Nat.pow_add, ← Nat.mul_assoc, ← h.shifted, Nat.mul_assoc, ← Nat.pow_add]
  exact Nat.mul_div_cancel _ (by positivity)

theorem log2_le_of_le_two_pow {m t : Nat} (h : m ≤ 2 ^ t) : m.log2 ≤ t := by
  by_cases hm : m = 0
  · simp [hm]
  · have hlt : m < 2 ^ (t + 1) := h.trans_lt (pow_lt_pow_right₀ one_lt_two t.lt_succ_self)
    exact Nat.lt_succ_iff.1 ((Nat.log2_lt hm).2 hlt)

theorem not_mul_two_pow_lt {m a b : Nat} (hm : m ≠ 0) (h : a ≤ b) : ¬m * 2 ^ b < 2 ^ a :=
  not_lt.2 ((Nat.pow_le_pow_right (by decide) h).trans
    (Nat.le_mul_of_pos_left _ (Nat.pos_of_ne_zero hm)))

theorem mul_two_pow_div (m a b : Nat) : m * 2 ^ (a + b) / 2 ^ b = m * 2 ^ a := by
  rw [Nat.pow_add, ← Nat.mul_assoc]
  exact Nat.mul_div_cancel _ (by positivity)

/-- The units of an integer (spec/00_scope.md R14). -/
theorem units_ofInt (r : Int) {t : Nat} (ht : t = 1074) :
    (BfpFinite.ofInt r).units = r.natAbs * 2 ^ t := by
  subst ht
  exact congrArg (r.natAbs * ·) unitsPerOne_eq

/-- The two encoders for a value that is a normal number. -/
theorem bfp64_of_large {x : BfpFinite} (h : ¬x.units < 2 ^ 52) :
    bfp64ConvertFromBfp x = BitVec.ofBool x.neg ++ BitVec.ofNat 11 (x.units.log2 - 51) ++
      BitVec.ofNat 52 (x.units / 2 ^ (x.units.log2 - 52) - 2 ^ 52) :=
  if_neg h

theorem bfp32_of_large {x : BfpFinite} {u : Nat} (hu : x.units / 2 ^ 925 = u) (h : ¬u < 2 ^ 23) :
    bfp32ConvertFromBfp x = BitVec.ofBool x.neg ++ BitVec.ofNat 8 (u.log2 - 22) ++
      BitVec.ofNat 23 (u / 2 ^ (u.log2 - 23) - 2 ^ 23) := by
  subst hu
  exact if_neg h

theorem bfp64_encoding {r : Int} {S : Nat} (h : Significand 52 r S) :
    bfp64ConvertFromBfp (BfpFinite.ofInt r) =
      BitVec.ofBool (decide (r < 0)) ++ BitVec.ofNat 11 (r.natAbs.log2 + 1023) ++
        BitVec.ofNat 52 (S - 2 ^ 52) := by
  have hne : r.natAbs ≠ 0 := Int.natAbs_ne_zero.2 h.nonzero
  have hunits : (BfpFinite.ofInt r).units = r.natAbs * 2 ^ (52 + 1022) := units_ofInt r rfl
  have hlog : (BfpFinite.ofInt r).units.log2 = r.natAbs.log2 + (52 + 1022) :=
    (congrArg Nat.log2 hunits).trans (log2_mul_two_pow hne _)
  have hlarge : ¬(BfpFinite.ofInt r).units < 2 ^ 52 := by
    rw [hunits]
    exact not_mul_two_pow_lt hne (by decide)
  have hS := h.div_eq 1022
  rw [bfp64_of_large hlarge, hlog, hunits,
    show r.natAbs.log2 + (52 + 1022) - 52 = r.natAbs.log2 + 1022 by omega, hS,
    show r.natAbs.log2 + (52 + 1022) - 51 = r.natAbs.log2 + 1023 by omega]
  rfl

theorem bfp32_encoding {r : Int} {S : Nat} (h : Significand 23 r S) :
    bfp32ConvertFromBfp (BfpFinite.ofInt r) =
      BitVec.ofBool (decide (r < 0)) ++ BitVec.ofNat 8 (r.natAbs.log2 + 127) ++
        BitVec.ofNat 23 (S - 2 ^ 23) := by
  have hne : r.natAbs ≠ 0 := Int.natAbs_ne_zero.2 h.nonzero
  have hunits : (BfpFinite.ofInt r).units / 2 ^ 925 = r.natAbs * 2 ^ (23 + 126) := by
    rw [units_ofInt r (t := 23 + 126 + 925) rfl]
    exact mul_two_pow_div r.natAbs (23 + 126) 925
  have hlarge : ¬r.natAbs * 2 ^ (23 + 126) < 2 ^ 23 := not_mul_two_pow_lt hne (by decide)
  have hS := h.div_eq 126
  rw [bfp32_of_large hunits hlarge, log2_mul_two_pow hne,
    show r.natAbs.log2 + (23 + 126) - 23 = r.natAbs.log2 + 126 by omega, hS,
    show r.natAbs.log2 + (23 + 126) - 22 = r.natAbs.log2 + 127 by omega]
  rfl

/-- The significand and the exponent give the units of the integer back. -/
theorem Significand.units_eq {t r S} (h : Significand t r S) (d : Nat) (hd : t + d = 1074) :
    (2 ^ t + (S - 2 ^ t)) * 2 ^ (r.natAbs.log2 + d) = (BfpFinite.ofInt r).units := by
  rw [Nat.add_sub_cancel' h.least, Nat.pow_add, ← Nat.mul_assoc, h.shifted, Nat.mul_assoc,
    ← Nat.pow_add, units_ofInt r hd]

theorem bfp64_value_of_significand {r : Int} {S : Nat} (h : Significand 52 r S)
    (hr : r.natAbs.log2 ≤ 64) :
    bfpConvertFromBfp64 (bfp64ConvertFromBfp (BfpFinite.ofInt r)) = .fin (BfpFinite.ofInt r) := by
  have hmost := h.most
  have hexp : (BitVec.ofNat 11 (r.natAbs.log2 + 1023)).toNat = r.natAbs.log2 + 1023 := by
    rw [BitVec.toNat_ofNat]; omega
  have hfrac : (BitVec.ofNat 52 (S - 2 ^ 52)).toNat = S - 2 ^ 52 := by
    rw [BitVec.toNat_ofNat]; omega
  rw [bfp64_encoding h, bfp64_of_normal _ _ _ (by omega) (by omega), hexp, hfrac,
    getMsbD_ofBool_zero, show r.natAbs.log2 + 1023 - 1 = r.natAbs.log2 + 1022 by omega,
    h.units_eq 1022 rfl]
  rfl

theorem bfp32_value_of_significand {r : Int} {S : Nat} (h : Significand 23 r S)
    (hr : r.natAbs.log2 ≤ 64) :
    bfpConvertFromBfp32 (bfp32ConvertFromBfp (BfpFinite.ofInt r)) = .fin (BfpFinite.ofInt r) := by
  have hmost := h.most
  have hexp : (BitVec.ofNat 8 (r.natAbs.log2 + 127)).toNat = r.natAbs.log2 + 127 := by
    rw [BitVec.toNat_ofNat]; omega
  have hfrac : (BitVec.ofNat 23 (S - 2 ^ 23)).toNat = S - 2 ^ 23 := by
    rw [BitVec.toNat_ofNat]; omega
  rw [bfp32_encoding h, bfp32_of_normal _ _ _ (by omega) (by omega), hexp, hfrac,
    getMsbD_ofBool_zero, show r.natAbs.log2 + 127 + 924 = r.natAbs.log2 + 1051 by omega,
    h.units_eq 1051 rfl]
  rfl

theorem ofInt_zero : BfpFinite.ofInt 0 = ⟨false, 0⟩ := by simp [BfpFinite.ofInt]

theorem bfp64_of_zero : bfp64ConvertFromBfp (BfpFinite.ofInt 0) = 0 := by
  rw [ofInt_zero]; rfl

theorem bfp32_of_zero : bfp32ConvertFromBfp (BfpFinite.ofInt 0) = 0 := by
  rw [ofInt_zero, bfp32ConvertFromBfp, Nat.zero_div]; rfl

/-- Settles O46: zero by itself, and every other integer by its significand. -/
theorem integerEncodingsAreExact : Obligations.IntegerEncodingsAreExact := by
  intro r hr
  have hlog := log2_le_of_le_two_pow hr
  by_cases h0 : r = 0
  · subst h0
    rw [bfp64_of_zero, bfp32_of_zero, ofInt_zero]
    exact ⟨fun _ => bfp64_of_denormal 0#1 0#52,
      fun _ => (bfp32_of_denormal 0#1 0#23).trans (by rw [BitVec.toNat_zero, Nat.zero_mul]; rfl)⟩
  · constructor
    · intro hfits
      obtain ⟨S, hS⟩ := exists_significand hfits h0
      exact bfp64_value_of_significand hS hlog
    · intro hfits
      obtain ⟨S, hS⟩ := exists_significand hfits h0
      exact bfp32_value_of_significand hS hlog

end Encoding

/-! ### Convert To Floating-Point Register (spec/41_convert_to_fpr.md) -/

section ConvertTo

open Sys2Proof.Laws

theorem intSource_eq (it : IntType) (v : Dword) :
    intSource it v = BfpFinite.ofInt (operandInt it v) := by
  cases it with
  | w | uw => simp only [intSource, fieldAt_low_word]; rfl
  | d | ud => rfl

theorem operandInt_natAbs_le (it : IntType) (v : Dword) : (operandInt it v).natAbs ≤ 2 ^ 64 := by
  cases it
  all_goals
    simp only [operandInt, BitVec.toInt_eq_toNat_cond, BitVec.toNat_setWidth]
    omega

theorem fprfCode_normal_of_sign {r : Int} (h0 : r ≠ 0) :
    fprfCode (decide (r < 0)) .normal = integerClass r := by
  simp only [fprfCode, integerClass, h0, decide_eq_true_eq, if_false]
  rcases lt_or_gt_of_ne h0 with h | h
  · rw [if_pos h, if_neg h.not_gt]
  · rw [if_neg h.not_gt, if_pos h]

/-- The class of an encoded integer is that of its sign. -/
theorem class64_of_integer {r : Int} (hfits : FitsIn 53 r) (hr : r.natAbs ≤ 2 ^ 64) :
    fprfClassBfp64 (bfp64ConvertFromBfp (BfpFinite.ofInt r)) = integerClass r := by
  have hlog := log2_le_of_le_two_pow hr
  by_cases h0 : r = 0
  · rw [h0, bfp64_of_zero]; decide
  · obtain ⟨S, hS⟩ := exists_significand hfits h0
    have hexp : (BitVec.ofNat 11 (r.natAbs.log2 + 1023)).toNat = r.natAbs.log2 + 1023 := by
      rw [BitVec.toNat_ofNat]; omega
    rw [bfp64_encoding hS, class64_of_normal _ _ _ (by omega) (by omega), getMsbD_ofBool_zero,
      fprfCode_normal_of_sign h0]

theorem class32_of_integer {r : Int} (hfits : FitsIn 24 r) (hr : r.natAbs ≤ 2 ^ 64) :
    fprfClassBfp32 (bfp32ConvertFromBfp (BfpFinite.ofInt r)) = integerClass r := by
  have hlog := log2_le_of_le_two_pow hr
  by_cases h0 : r = 0
  · rw [h0, bfp32_of_zero]; decide
  · obtain ⟨S, hS⟩ := exists_significand hfits h0
    have hexp : (BitVec.ofNat 8 (r.natAbs.log2 + 127)).toNat = r.natAbs.log2 + 127 := by
      rw [BitVec.toNat_ofNat]; omega
    rw [bfp32_encoding hS, class32_of_normal _ _ _ (by omega) (by omega), getMsbD_ofBool_zero,
      fprfCode_normal_of_sign h0]

/-- `DOUBLE` of the binary32 encoding of an integer is its binary64 encoding. -/
theorem double_of_integer {r : Int} (hfits : FitsIn 24 r) (hr : r.natAbs ≤ 2 ^ 64) :
    double (bfp32ConvertFromBfp (BfpFinite.ofInt r)) = bfp64ConvertFromBfp (BfpFinite.ofInt r) := by
  have hlog := log2_le_of_le_two_pow hr
  by_cases h0 : r = 0
  · rw [h0, bfp32_of_zero, bfp64_of_zero]; decide
  · obtain ⟨S, hS⟩ := exists_significand hfits h0
    have hleast := hS.least
    have hmost := hS.most
    have hsign := fieldAt_first (BitVec.ofBool (decide (r < 0)))
      (BitVec.ofNat 8 (r.natAbs.log2 + 127)) (BitVec.ofNat 23 (S - 2 ^ 23))
    have hexp := fieldAt_middle (BitVec.ofBool (decide (r < 0)))
      (BitVec.ofNat 8 (r.natAbs.log2 + 127)) (BitVec.ofNat 23 (S - 2 ^ 23))
    have hfrac := fieldAt_last (BitVec.ofBool (decide (r < 0)))
      (BitVec.ofNat 8 (r.natAbs.log2 + 127)) (BitVec.ofNat 23 (S - 2 ^ 23))
    rw [← bfp32_encoding hS] at hsign hexp hfrac
    have hexpNat : (fieldAt (bfp32ConvertFromBfp (BfpFinite.ofInt r)) 1 8).toNat =
        r.natAbs.log2 + 127 := by
      rw [hexp, BitVec.toNat_ofNat]; omega
    have hfracs : BitVec.ofNat 23 (S - 2 ^ 23) ++ 0#29 = BitVec.ofNat 52 (S * 2 ^ 29 - 2 ^ 52) := by
      apply BitVec.eq_of_toNat_eq
      rw [toNat_append_eq, BitVec.toNat_ofNat, BitVec.toNat_ofNat, BitVec.toNat_ofNat]
      omega
    rw [double_of_normal _ (by omega) (by omega), hsign, hexpNat, hfrac, hfracs]
    exact (bfp64_encoding (hS.widen 29)).symm

theorem integerClass_roundedInt {p : Nat} (mode : RoundMode) (n : Int) (hp : 1 ≤ p) :
    integerClass (roundedInt p mode n) = integerClass n := by
  obtain ⟨hzero, hneg⟩ := roundedInt_sign mode n hp
  have hpos : 0 < roundedInt p mode n ↔ 0 < n := by omega
  simp only [integerClass, hzero, hpos]

/-- `FPSCR` after the rounding `x` of the integer `n`. -/
def roundedFpscr (f : FPSCR) (n : Int) (x : RoundedBfp) : FPSCR :=
  { f.withExceptions false false x.xx with fprf := integerClass n, fr := x.inc, fi := x.xx }

theorem fpscrAfterRounding_eq (f : FPSCR) (n : Int) (x : RoundedBfp) :
    fpscrAfterRounding f (integerClass n) x.inc x.xx = roundedFpscr f n x := by
  rw [fpscrAfterRounding, setFXIf_xx_eq]; rfl

/-- `ctfpr[.]` of a 64-bit type, as one rounding of the operand. -/
theorem convertToBfp64_eq {it : IntType} (hit : it = .d ∨ it = .ud) (v : Dword) (f : FPSCR)
    {x : RoundedBfp}
    (hx : roundToPrecision 53 (RoundMode.ofRN f.rn) (BfpFinite.ofInt (operandInt it v)) = x) :
    convertToBfp64 it v f =
      ⟨bfp64ConvertFromBfp x.value, roundedFpscr f (operandInt it v) x, x.xx && f.xe⟩ := by
  have hwide : ¬itIs64 it = false := by rcases hit with rfl | rfl <;> decide
  have hvalue : x.value =
      BfpFinite.ofInt (roundedInt 53 (RoundMode.ofRN f.rn) (operandInt it v)) := by
    rw [← hx, roundToPrecision_ofInt _ _ _ (by decide)]
  have hclass := class64_of_integer
    (roundedInt_roundsTo (RoundMode.ofRN f.rn) (operandInt it v) (show 1 ≤ 53 by decide)).1
    (roundedInt_natAbs_le _ (by decide) (operandInt_natAbs_le it v))
  rw [integerClass_roundedInt _ _ (by decide), ← hvalue] at hclass
  rw [convertToBfp64, if_neg hwide, intSource_eq, bfpRoundToBfp64, hx]
  dsimp only
  rw [hclass, fpscrAfterRounding_eq]

/-- `ctfprs[.]`, as one rounding of the operand. -/
theorem convertToBfp32_eq (it : IntType) (v : Dword) (f : FPSCR) {x : RoundedBfp}
    (hx : roundToPrecision 24 (RoundMode.ofRN f.rn) (BfpFinite.ofInt (operandInt it v)) = x) :
    convertToBfp32 it v f =
      ⟨bfp64ConvertFromBfp x.value, roundedFpscr f (operandInt it v) x, x.xx && f.xe⟩ := by
  have hvalue : x.value =
      BfpFinite.ofInt (roundedInt 24 (RoundMode.ofRN f.rn) (operandInt it v)) := by
    rw [← hx, roundToPrecision_ofInt _ _ _ (by decide)]
  have hfits :=
    (roundedInt_roundsTo (RoundMode.ofRN f.rn) (operandInt it v) (show 1 ≤ 24 by decide)).1
  have hbound := roundedInt_natAbs_le (RoundMode.ofRN f.rn) (show 1 ≤ 24 by decide)
    (operandInt_natAbs_le it v)
  have hclass := class32_of_integer hfits hbound
  have hdouble := double_of_integer hfits hbound
  rw [integerClass_roundedInt _ _ (by decide), ← hvalue] at hclass
  rw [← hvalue] at hdouble
  rw [convertToBfp32, intSource_eq, bfpRoundToBfp32, hx, hclass, hdouble, fpscrAfterRounding_eq]

/-- The two ends of an instruction without a trap and with one. -/
theorem exec_outcomes {i : Instr} {s t : State} {xx : Bool} (hwf : i.wf = true)
    (hfp : s.params.fpAvailable = true) (hen : enabledBy i s = (xx && s.fpscr.xe))
    (ht : updated i s = t) :
    (s.params.feMode = .ignored ∨ xx = false ∨ s.fpscr.xe = false →
      exec i s = .next { t with cia := s.cia + 4 }) ∧
    (s.params.feMode = .trap ∧ xx = true ∧ s.fpscr.xe = true →
      exec i s = .fault (.fpEnabledException s.cia t)) := by
  subst ht
  constructor
  · intro h
    refine exec_eq_next.2 ⟨hwf, hfp, ?_, ?_⟩
    · rw [hen, updated_params]
      rcases h with h | h | h <;> simp [h]
    · rw [← updated_cia i s]; rfl
  · rintro ⟨hmode, hxx, hxe⟩
    rw [exec_eq, if_pos hwf, whenFpAvailable_of_available hfp]
    refine (complete_eq_fault.2 ⟨⟨?_, ?_⟩, ?_⟩)
    · rw [hen, hxx, hxe]; rfl
    · rw [updated_params, hmode]
    · rw [updated_cia]

/-- Settles O48: the conversion is one rounding of the operand, and `exec_outcomes`. -/
theorem ctfprOfSixtyFourBitsRounds : Obligations.CtfprOfSixtyFourBitsRounds := by
  intro frt rb it s hfp hit
  dsimp only
  generalize hx : roundToPrecision 53 _ (BfpFinite.ofInt (operandInt it s.gpr[rb])) = x
  have hc := convertToBfp64_eq hit _ _ hx
  have hplain := exec_outcomes (i := .ctfpr frt rb it) rfl hfp
    (by rw [enabledBy, State.readGpr, hc]) (by rw [updated, State.readGpr, hc])
  have hdot := exec_outcomes (i := .ctfprDot frt rb it) rfl hfp
    (by rw [enabledBy, State.readGpr, hc]) (by rw [updated, State.readGpr, hc])
  exact ⟨fun h => ⟨hplain.1 h, hdot.1 h⟩, fun h => ⟨hplain.2 h, hdot.2 h⟩⟩

/-- Settles O49: as O48, with `DOUBLE` of the binary32 encoding by `double_of_integer`. -/
theorem ctfprsRoundsEveryType : Obligations.CtfprsRoundsEveryType := by
  intro frt rb it s hfp
  dsimp only
  generalize hx : roundToPrecision 24 _ (BfpFinite.ofInt (operandInt it s.gpr[rb])) = x
  have hc := convertToBfp32_eq it _ _ hx
  have hplain := exec_outcomes (i := .ctfprs frt rb it) rfl hfp
    (by rw [enabledBy, State.readGpr, hc]) (by rw [updated, State.readGpr, hc])
  have hdot := exec_outcomes (i := .ctfprsDot frt rb it) rfl hfp
    (by rw [enabledBy, State.readGpr, hc]) (by rw [updated, State.readGpr, hc])
  exact ⟨fun h => ⟨hplain.1 h, hdot.1 h⟩, fun h => ⟨hplain.2 h, hdot.2 h⟩⟩

end ConvertTo

end Sys2Proof.Proofs

namespace Sys2Proof.Proofs

open Sys2Proof.Machine

/-! ### What every step keeps (spec/10_state.md R44, R56, spec/20_memory.md R70) -/

section Steps

open Sys2Proof.Laws

/-- A next state is the state with the updates of one instruction made, and `CIA` advanced. -/
theorem step_next {s t : State} (h : step s = .next t) :
    ∃ i, t = (updated i s).advance := by
  obtain ⟨-, _, i, -, -, hexec⟩ := step_eq_next h
  obtain ⟨-, -, -, rfl⟩ := exec_eq_next.1 hexec
  exact ⟨i, rfl⟩

theorem step_next_frame {s t : State} (h : step s = .next t) :
    t.cia = s.cia + 4 ∧ t.imem = s.imem ∧ t.params = s.params := by
  obtain ⟨i, rfl⟩ := step_next h
  simp

theorem exec_fault_cia {i : Instr} {s : State} {f : Fault} (h : exec i s = .fault f) :
    (f.stateAt s).cia = s.cia := by
  rcases exec_eq_fault h with ⟨rfl, -⟩ | ⟨rfl, -⟩ | ⟨rfl, -⟩
  · rfl
  · rfl
  · exact updated_cia i s

/-- `NIA` of an aligned `CIA` is aligned, also where it wraps to 0. -/
theorem aligned_add_four {a : Dword} (h : a.toNat % 4 = 0) : (a + 4).toNat % 4 = 0 := by
  rw [BitVec.toNat_add, show (4 : Dword).toNat = 4 from rfl]
  omega

/-- Settles O17: the reset state takes `CIA` and the parameters from `p` and lists no memory. -/
theorem resetEstablishesTheInvariant : Obligations.ResetEstablishesTheInvariant := by
  have hreset : ∀ p : Params, p.WellFormed → (State.resetWith p).Inv :=
    fun p hp => ⟨rfl, hp.2, hp⟩
  exact ⟨fun p hp => ⟨hreset p hp, rfl⟩, hreset Config.params (by decide)⟩

/-- Settles O18: memory and parameters stay, and `CIA` advances by 4. -/
theorem everyStepKeepsTheInvariant : Obligations.EveryStepKeepsTheInvariant := by
  intro s t ⟨hmem, haligned, hparams⟩ hstep
  obtain ⟨hcia, himem, hpar⟩ := step_next_frame hstep
  exact ⟨himem ▸ hmem, hcia ▸ aligned_add_four haligned, hpar ▸ hparams⟩

/-- Settles O20: a fault comes before the instruction or from it. -/
theorem ciaAdvancesByFourOrStays : Obligations.CiaAdvancesByFourOrStays := by
  refine fun s => ⟨fun t h => (step_next_frame h).1, fun f hf => ?_⟩
  rcases step_cases s with ⟨g, hg, hs⟩ | ⟨_, i, -, -, -, hexec⟩
  · cases hg.symm.trans hf
    rw [hs]
  · exact exec_fault_cia (hexec.symm.trans hf)

/-- A run of at least one step that ends in a next state takes a first step. -/
theorem run_succ {M : Host.Core} {k : Nat} {s t : M.State} (h : M.run (k + 1) s = .next t) :
    ∃ u, M.step s = .next u ∧ M.run k u = .next t := by
  unfold Host.Core.run at h
  split at h
  · exact ⟨_, by assumption, h⟩
  · cases h
  · cases h

/-- Settles O21: by induction on the number of steps. -/
theorem runsAreStraightLines : Obligations.RunsAreStraightLines := by
  intro k
  induction k with
  | zero =>
    intro s t h
    cases h
    exact ⟨by simp, rfl, rfl⟩
  | succ k ih =>
    intro s t h
    obtain ⟨u, hstep, hrun⟩ := run_succ h
    obtain ⟨hcia, himem, hpar⟩ := step_next_frame hstep
    obtain ⟨hcia', himem', hpar'⟩ := ih u t hrun
    refine ⟨?_, himem'.trans himem, hpar'.trans hpar⟩
    have hcount : BitVec.ofNat 64 (4 * (k + 1)) = 4 + BitVec.ofNat 64 (4 * k) := by
      rw [Nat.mul_succ, Nat.add_comm, BitVec.ofNat_add]
      rfl
    rw [hcia', hcia, hcount, BitVec.add_assoc]

end Steps

/-! ### What instructions leave alone (spec/10_state.md R41, R45, R47, R49) -/

section Frames

open Sys2Proof.Laws

/-- The states an instruction can end in: the one it started in, and that with its updates made, with
or without the advance of `CIA`. -/
theorem exec_after {i : Instr} {s t : State}
    (h : exec i s = .next t ∨ ∃ f, exec i s = .fault f ∧ t = f.stateAt s) :
    t = s ∨ t = updated i s ∨ t = (updated i s).advance := by
  rcases h with h | ⟨f, hf, rfl⟩
  · obtain ⟨-, -, -, rfl⟩ := exec_eq_next.1 h
    exact .inr (.inr rfl)
  · rcases exec_eq_fault hf with ⟨rfl, -⟩ | ⟨rfl, -⟩ | ⟨rfl, -⟩
    · exact .inl rfl
    · exact .inl rfl
    · exact .inr (.inl rfl)

/-- `g` is `f` with exceptions recorded and `FPRF`, `FR` and `FI` set: what an instruction can make of
`FPSCR`. -/
def FpscrUpdate (f g : FPSCR) : Prop :=
  ∃ snan cvi inexact fprf fr fi,
    g = { f.withExceptions snan cvi inexact with fprf := fprf, fr := fr, fi := fi }

theorem FpscrUpdate.refl (f : FPSCR) : FpscrUpdate f f :=
  ⟨false, false, false, f.fprf, f.fr, f.fi, by simp [FPSCR.withExceptions]⟩

theorem FpscrUpdate.sameControl {f g : FPSCR} (h : FpscrUpdate f g) : FPSCR.SameControl f g := by
  obtain ⟨snan, cvi, inexact, fprf, fr, fi, rfl⟩ := h
  exact ⟨rfl, rfl, rfl, rfl, rfl, rfl, rfl, rfl, rfl, rfl⟩

theorem fpscrUpdate_fpscrAfterRounding (f : FPSCR) (cls : BitVec 5) (inc xx : Bool) :
    FpscrUpdate f (fpscrAfterRounding f cls inc xx) :=
  ⟨false, false, xx, cls, inc, xx, by rw [fpscrAfterRounding, setFXIf_xx_eq]⟩

theorem fpscrUpdate_convertToBfp64 (it : IntType) (v : Dword) (f : FPSCR) :
    FpscrUpdate f (convertToBfp64 it v f).fpscr := by
  unfold convertToBfp64
  dsimp only
  split
  · exact .refl f
  · exact fpscrUpdate_fpscrAfterRounding ..

theorem fpscrUpdate_applyFromFpr (s : State) (rt : GprNum) (c : FromFpr) :
    FpscrUpdate s.fpscr (s.applyFromFpr rt c).fpscr := by
  unfold State.applyFromFpr
  dsimp only
  rw [setExceptions_eq]
  split
  · exact ⟨_, _, _, s.fpscr.fprf, false, false, rfl⟩
  · exact ⟨_, _, _, _, _, _, rfl⟩

theorem fpscrUpdate_updated (i : Instr) (s : State) : FpscrUpdate s.fpscr (updated i s).fpscr := by
  cases i with
  | mffpr | mffprDot | mtfpr | mtfprs => exact .refl _
  | mffprs | mffprsDot => simpa [updated, afterSingle_eq] using .refl _
  | ctfpr | ctfprDot => exact fpscrUpdate_convertToBfp64 ..
  | ctfprs | ctfprsDot => exact fpscrUpdate_fpscrAfterRounding ..
  | cffpr | cffprDot | cffpro | cffproDot =>
    simpa [updated, cffprUpdated_frame] using fpscrUpdate_applyFromFpr ..

/-- Only the record forms write `CR`, and of it only `CR0` or `CR1`. -/
theorem updated_cr (i : Instr) (s : State) :
    ∃ a b, (updated i s).cr = { s.cr with cr0 := a, cr1 := b } := by
  cases i with
  | mffpr | mtfpr | mtfprs | ctfpr | ctfprs => exact ⟨s.cr.cr0, s.cr.cr1, rfl⟩
  | mffprs => exact ⟨s.cr.cr0, s.cr.cr1, by simp [updated, afterSingle_eq]⟩
  | mffprDot => exact ⟨_, s.cr.cr1, rfl⟩
  | mffprsDot => exact ⟨_, s.cr.cr1, by simp only [updated, afterSingle_eq]; rfl⟩
  | ctfprDot | ctfprsDot => exact ⟨s.cr.cr0, _, rfl⟩
  | cffpr | cffpro =>
    exact ⟨s.cr.cr0, s.cr.cr1, by simp [updated, cffprUpdated, applyFromFpr_frame]⟩
  | cffprDot | cffproDot =>
    simp only [updated, cffprUpdated, State.recordFromFpr, if_true]
    split
    · exact ⟨_, s.cr.cr1, by simp [applyFromFpr_frame]; rfl⟩
    · exact ⟨_, s.cr.cr1, by simp [applyFromFpr_frame]; rfl⟩

/-- Only the overflow forms write `XER`, and they do so by `withOverflow`. -/
theorem updated_xer (i : Instr) (s : State) :
    (updated i s).xer = s.xer ∨ ∃ overflow, (updated i s).xer = s.xer.withOverflow overflow := by
  cases i with
  | mffpr | mffprDot | mtfpr | mtfprs | ctfpr | ctfprDot | ctfprs | ctfprsDot => exact .inl rfl
  | mffprs | mffprsDot => exact .inl (by simp [updated, afterSingle_eq])
  | cffpr | cffprDot =>
    exact .inl (by simp [updated, cffprUpdated, applyFromFpr_frame, recordFromFpr_frame])
  | cffpro | cffproDot =>
    exact .inr ⟨_, by simp [updated, cffprUpdated, applyFromFpr_frame, recordFromFpr_frame]; rfl⟩

/-- Settles O22: the bits are not among those an update writes. -/
theorem noInstructionWritesControlState : Obligations.NoInstructionWritesControlState := by
  intro i s t h
  have hupper : CR.SameUpper s.cr (updated i s).cr := by
    obtain ⟨a, b, hcr⟩ := updated_cr i s
    simp [CR.SameUpper, hcr]
  have hother : XER.SameOther s.xer (updated i s).xer := by
    rcases updated_xer i s with hxer | ⟨overflow, hxer⟩
    · simp [XER.SameOther, hxer]
    · rw [hxer]
      exact (withOverflow_frame s.xer overflow).1
  have hcontrol := (fpscrUpdate_updated i s).sameControl
  rcases exec_after h with rfl | rfl | rfl
  · exact ⟨(FpscrUpdate.refl _).sameControl, by simp [CR.SameUpper], by simp [XER.SameOther]⟩
  · exact ⟨hcontrol, hupper, hother⟩
  · exact ⟨hcontrol, hupper, hother⟩

/-- Settles O23: `FX` and the exception bits by `fxFollows_exec`, `SO` by `withOverflow_frame`. -/
theorem stickyBitsAreNeverCleared : Obligations.StickyBitsAreNeverCleared := by
  intro i s t h
  refine ⟨(fxFollows_exec h).1, fun hso => ?_⟩
  have hupdated : (updated i s).xer.so = true := by
    rcases updated_xer i s with hxer | ⟨overflow, hxer⟩
    · rwa [hxer]
    · rw [hxer]
      exact (withOverflow_frame s.xer overflow).2 hso
  rcases exec_after h with rfl | rfl | rfl
  · exact hso
  · exact hupdated
  · exact hupdated

/-- The GPR an instruction names as its target (spec/10_state.md R57). -/
def gprTarget : Instr → Option GprNum
  | .mffpr rt _ | .mffprDot rt _ | .mffprs rt _ | .mffprsDot rt _ => some rt
  | .mtfpr _ _ | .mtfprs _ _ => none
  | .ctfpr _ _ _ | .ctfprDot _ _ _ | .ctfprs _ _ _ | .ctfprsDot _ _ _ => none
  | .cffpr rt _ _ _ | .cffprDot rt _ _ _ | .cffpro rt _ _ _ | .cffproDot rt _ _ _ => some rt

/-- The FPR an instruction names as its target (spec/10_state.md R57). -/
def fprTarget : Instr → Option FprNum
  | .mffpr _ _ | .mffprDot _ _ | .mffprs _ _ | .mffprsDot _ _ => none
  | .mtfpr frt _ | .mtfprs frt _ => some frt
  | .ctfpr frt _ _ | .ctfprDot frt _ _ | .ctfprs frt _ _ | .ctfprsDot frt _ _ => some frt
  | .cffpr _ _ _ _ | .cffprDot _ _ _ _ | .cffpro _ _ _ _ | .cffproDot _ _ _ _ => none

/-- A conversion from floating point writes `RT`, or with an enabled invalid operation no GPR. -/
theorem readGpr_applyFromFpr_of_ne (s : State) (c : FromFpr) {rt r : GprNum} (h : r ≠ rt) :
    (s.applyFromFpr rt c).readGpr r = s.readGpr r := by
  unfold State.applyFromFpr
  dsimp only
  split
  · rfl
  · exact readGpr_writeGpr_of_ne s.afterDraw rt r c.result h

theorem cffprUpdated_gpr (oe rc : Bool) (rt : GprNum) (frb : FprNum) (cvm : Cvm) (it : IntType)
    (s : State) : (cffprUpdated oe rc rt frb cvm it s).gpr =
      (s.applyFromFpr rt (fromFprOf s frb cvm it)).gpr := by
  simp only [cffprUpdated_frame]

theorem updated_readGpr {i : Instr} {r : GprNum} (s : State) (h : gprTarget i ≠ some r) :
    (updated i s).readGpr r = s.readGpr r := by
  have hne : ∀ {n : GprNum}, some n ≠ some r → r ≠ n := fun hn he => hn (congrArg some he.symm)
  cases i with
  | mffpr | mffprDot => exact readGpr_writeGpr_of_ne _ _ _ _ (hne h)
  | mffprs | mffprsDot =>
    rw [updated, afterSingle_eq]
    exact readGpr_writeGpr_of_ne _ _ _ _ (hne h)
  | mtfpr | mtfprs | ctfpr | ctfprDot | ctfprs | ctfprsDot => rfl
  | cffpr | cffprDot | cffpro | cffproDot =>
    exact (readGpr_congr (cffprUpdated_gpr ..) r).trans (readGpr_applyFromFpr_of_ne s _ (hne h))

theorem updated_readFpr {i : Instr} {r : FprNum} (s : State) (h : fprTarget i ≠ some r) :
    (updated i s).readFpr r = s.readFpr r := by
  have hne : ∀ {n : FprNum}, some n ≠ some r → r ≠ n := fun hn he => hn (congrArg some he.symm)
  cases i with
  | mffpr | mffprDot => rfl
  | mffprs | mffprsDot => exact readFpr_congr (by simp [updated, afterSingle_eq]) r
  | mtfpr | mtfprs | ctfpr | ctfprDot | ctfprs | ctfprsDot =>
    exact readFpr_writeFpr_of_ne _ _ _ _ (hne h)
  | cffpr | cffprDot | cffpro | cffproDot =>
    exact readFpr_congr (by simp only [updated, cffprUpdated_frame]) r

theorem gpr_eq_of_readGpr {s t : State} (h : ∀ r, t.readGpr r = s.readGpr r) : t.gpr = s.gpr :=
  Vector.ext fun k hk => h ⟨k, hk⟩

theorem fpr_eq_of_readFpr {s t : State} (h : ∀ r, t.readFpr r = s.readFpr r) : t.fpr = s.fpr :=
  Vector.ext fun k hk => h ⟨k, hk⟩

/-- An instruction with a GPR for its target. -/
theorem exec_next_of_gprTarget {i : Instr} {s t : State} {n : GprNum} (hg : gprTarget i = some n)
    (hf : fprTarget i = none) (h : exec i s = .next t) :
    t.fpr = s.fpr ∧ ∀ r, r ≠ n → t.readGpr r = s.readGpr r := by
  obtain ⟨-, -, -, rfl⟩ := exec_eq_next.1 h
  exact ⟨fpr_eq_of_readFpr fun r => updated_readFpr s (by simp [hf]),
    fun r hr => updated_readGpr s (by simpa [hg] using hr.symm)⟩

/-- An instruction with an FPR for its target. -/
theorem exec_next_of_fprTarget {i : Instr} {s t : State} {n : FprNum} (hf : fprTarget i = some n)
    (hg : gprTarget i = none) (h : exec i s = .next t) :
    t.gpr = s.gpr ∧ ∀ r, r ≠ n → t.readFpr r = s.readFpr r := by
  obtain ⟨-, -, -, rfl⟩ := exec_eq_next.1 h
  exact ⟨gpr_eq_of_readGpr fun r => updated_readGpr s (by simp [hg]),
    fun r hr => updated_readFpr s (by simpa [hf] using hr.symm)⟩

/-- Settles O26: by the target each instruction names. -/
theorem onlyTheTargetRegisterChanges : Obligations.OnlyTheTargetRegisterChanges := by
  intro s t n m cvm it
  constructor
  · intro i hi
    have htarget : gprTarget i = some n ∧ fprTarget i = none := by
      revert i
      simp [gprTarget, fprTarget]
    exact exec_next_of_gprTarget htarget.1 htarget.2
  · intro i hi
    have htarget : fprTarget i = some n ∧ gprTarget i = none := by
      revert i
      simp [gprTarget, fprTarget]
    exact exec_next_of_fprTarget htarget.1 htarget.2

end Frames

/-! ### The words of `CR`, `XER` and `FPSCR` (spec/10_state.md R45, R47, R49, R52, R53) -/

section Layout

theorem fieldAt_append_of_le {m n start width : Nat} (x : BitVec m) (y : BitVec n)
    (h : start + width ≤ m) : fieldAt (x ++ y) start width = fieldAt x start width := by
  apply BitVec.eq_of_toNat_eq
  rw [toNat_fieldAt, toNat_fieldAt, toNat_append_eq,
    show m + n - start - width = n + (m - start - width) by omega, Nat.pow_add,
    ← Nat.div_div_eq_div_mul, Nat.mul_comm, Nat.mul_add_div (by positivity),
    Nat.div_eq_of_lt y.isLt, Nat.add_zero]

theorem fieldAt_append_last {m n start : Nat} (x : BitVec m) (y : BitVec n) (h : start = m) :
    fieldAt (x ++ y) start n = y := by
  apply BitVec.eq_of_toNat_eq
  rw [toNat_fieldAt, toNat_append_eq, show m + n - start - n = 0 by omega, Nat.pow_zero,
    Nat.div_one, Nat.mul_comm, Nat.mul_add_mod, Nat.mod_eq_of_lt y.isLt]

theorem fieldAt_whole {n : Nat} (x : BitVec n) : fieldAt x 0 n = x := by
  simp [fieldAt]

theorem getMsbD_append_of_lt {m n i : Nat} (x : BitVec m) (y : BitVec n) (h : i < m) :
    (x ++ y).getMsbD i = x.getMsbD i := by
  rw [BitVec.getMsbD_append, if_neg (by omega)]

theorem getMsbD_append_ofBool {m i : Nat} (x : BitVec m) (b : Bool) (h : i = m) :
    (x ++ BitVec.ofBool b).getMsbD i = b := by
  rw [BitVec.getMsbD_append, if_pos (by omega), h, Nat.sub_self, getMsbD_ofBool_zero]

theorem ofBits_toBits_cr (c : CR) : CR.ofBits c.toBits = c := by
  simp (disch := omega) only [CR.ofBits, CR.toBits, fieldAt_append_of_le, fieldAt_append_last,
    fieldAt_whole]

theorem ofBits_toBits_xer (x : XER) : XER.ofBits x.toBits = x := by
  simp (disch := omega) only [XER.ofBits, XER.toBits, fieldAt_append_of_le, fieldAt_append_last,
    fieldAt_whole, getMsbD_append_of_lt, getMsbD_append_ofBool]

theorem ofBits_toBits_fpscr (f : FPSCR) : FPSCR.ofBits f.toBits = f := by
  simp (disch := omega) only [FPSCR.ofBits, FPSCR.toBits, fieldAt_append_of_le,
    fieldAt_append_last, fieldAt_whole, getMsbD_append_of_lt, getMsbD_append_ofBool]

/-- Settles O30: a field of a concatenation is the part that stands at its bits. -/
theorem registerWordsHoldEveryField : Obligations.RegisterWordsHoldEveryField :=
  ⟨ofBits_toBits_cr, ofBits_toBits_xer, ofBits_toBits_fpscr⟩

/-- Bits 32:35 of the word. -/
theorem toBits_bits_32_to_35 (f : FPSCR) :
    f.toBits.getMsbD 32 = f.fx ∧ f.toBits.getMsbD 33 = f.fex ∧ f.toBits.getMsbD 34 = f.vx ∧
      f.toBits.getMsbD 35 = f.ox := by
  simp (disch := omega) only [FPSCR.toBits, getMsbD_append_of_lt, getMsbD_append_ofBool, and_self]

/-- The bits of a word at 32:35, shifted to the right end. -/
theorem getMsbD_shifted (v : Dword) {i : Nat} (hi : i < 4) :
    ((v >>> 28).setWidth 4).getMsbD i = v.getMsbD (32 + i) := by
  simp only [BitVec.getMsbD_eq_getLsbD, BitVec.getLsbD_setWidth, BitVec.getLsbD_ushiftRight]
  rw [show 28 + (4 - 1 - i) = 64 - 1 - (32 + i) by omega]
  simp [hi, show 32 + i < 64 by omega, show 4 - 1 - i < 4 by omega]

/-- The four bits of `CR1`. -/
theorem cr1Of_bits (f : FPSCR) :
    (cr1Of f).getMsbD 0 = f.fx ∧ (cr1Of f).getMsbD 1 = f.fex ∧ (cr1Of f).getMsbD 2 = f.vx ∧
      (cr1Of f).getMsbD 3 = f.ox := by
  simp (disch := omega) only [cr1Of, getMsbD_append_of_lt, getMsbD_append_ofBool,
    getMsbD_ofBool_zero, and_self]

/-- Settles O31: bit by bit. -/
theorem fpscrSummaryBits : Obligations.FpscrSummaryBits := by
  intro f
  obtain ⟨hfx, hfex, hvx, hox⟩ := toBits_bits_32_to_35 f
  obtain ⟨hbit0, hbit1, hbit2, hbit3⟩ := cr1Of_bits f
  refine ⟨hvx, hfex, BitVec.eq_of_getMsbD_eq fun i hi => ?_⟩
  rw [getMsbD_shifted _ hi]
  match i with
  | 0 => rw [hfx, hbit0]
  | 1 => rw [hfex, hbit1]
  | 2 => rw [hvx, hbit2]
  | 3 => rw [hox, hbit3]

end Layout

/-! ### The record forms of the moves (spec/40_move_fpr.md R123, R125) -/

section RecordMoves

open Sys2Proof.Laws

/-- Settles O33: `CR0` by `cr0Of_eq`. -/
theorem mffprDotRecordsTheSign : Obligations.MffprDotRecordsTheSign := by
  intro rt frb s hfp
  refine exec_eq_next.2 ⟨rfl, hfp, by simp [enabledBy], ?_⟩
  rw [← cr0Of_eq]
  rfl

/-- A zero-extended word is never negative, and 0 only if the word is. -/
theorem signCr0_of_word (w : Word) (so : Bool) :
    signCr0 (w.setWidth 64) so =
      (if w = 0 then 0b0010 else 0b0100) ||| (if so then 0b0001 else 0) := by
  have hw := w.isLt
  have hint : (w.setWidth 64 : Dword).toInt = w.toNat := by
    rw [BitVec.toInt_eq_toNat_cond, BitVec.toNat_setWidth, Nat.mod_eq_of_lt (by omega),
      if_pos (by omega)]
  have hneg : ¬(w.toNat : Int) < 0 := by omega
  have hzero : (w.toNat : Int) = 0 ↔ w = 0 := by simp [BitVec.toNat_eq]
  simp only [signCr0, hint, hneg, hzero, if_false]

/-- Settles O35: by `signCr0_of_word`, whether the word is `SINGLE` or drawn. -/
theorem mffprsDotNeverRecordsLessThan : Obligations.MffprsDotNeverRecordsLessThan := by
  intro rt frb s hfp
  refine ⟨singleOrDrawn s s.fpr[frb], fun v hv => by rw [singleOrDrawn, hv],
    exec_eq_next.2 ⟨rfl, hfp, by simp [enabledBy], ?_⟩⟩
  rw [← signCr0_of_word, ← cr0Of_eq, updated, afterSingle_eq, zero_append_eq_setWidth]
  rfl

end RecordMoves

/-! ### `CVM`, `FPSCR.RN` and the rounding (spec/42_convert_from_fpr.md R164) -/

section ConversionMode

open Sys2Proof.Laws

theorem roundToInteger_of_not_finite (mode : RoundMode) {src : Bfp}
    (h : isNaN src = true ∨ isInf src = true) : roundToInteger mode src = src := by
  cases src with
  | fin x => simp [isNaN, isInf] at h
  | inf | qnan | snan => rfl

/-- Settles O56: `roundSource` is one rounding in the mode that `CVM` and `RN` give. -/
theorem cvmAndRnSelectTheRounding : Obligations.CvmAndRnSelectTheRounding := by
  refine ⟨⟨rfl, rfl, rfl, rfl⟩, fun cvm src => ⟨fun hodd rn => ?_, fun heven => ?_, fun h rn => ?_⟩⟩
  · rw [roundSource_eq, conversionMode, if_pos hodd, bfpRoundToIntegerTrunc]
  · have hmode : ∀ rn, conversionMode cvm rn = RoundMode.ofRN rn :=
      fun rn => if_neg (by omega)
    simp only [roundSource_eq, hmode]
    exact ⟨rfl, rfl, rfl, rfl⟩
  · rw [roundSource_eq, roundToInteger_of_not_finite _ h]

end ConversionMode

/-! ### Integers in the FPR (spec/41_convert_to_fpr.md R141 to R144) -/

section ConvertedIntegers

open Sys2Proof.Laws

theorem fitsIn_of_natAbs_lt {p : Nat} {r : Int} (h : r.natAbs < 2 ^ p) : FitsIn p r :=
  ⟨r.natAbs, 0, h, by rw [Nat.pow_zero, Nat.mul_one]⟩

theorem FitsIn.mono {p q : Nat} {r : Int} (hpq : p ≤ q) (h : FitsIn p r) : FitsIn q r := by
  obtain ⟨m, k, hm, hr⟩ := h
  exact ⟨m, k, hm.trans_le (Nat.pow_le_pow_right (by decide) hpq), hr⟩

theorem operandInt_natAbs_lt {it : IntType} (hit : it = .w ∨ it = .uw) (v : Dword) :
    (operandInt it v).natAbs < 2 ^ 53 := by
  rcases hit with rfl | rfl
  all_goals
    simp only [operandInt, BitVec.toInt_eq_toNat_cond, BitVec.toNat_setWidth]
    omega

/-- `ctfpr[.]` of a 32-bit type: the encoding of the operand, and no trace in `FPSCR`. -/
theorem convertToBfp64_of_narrow {it : IntType} (hit : it = .w ∨ it = .uw) (v : Dword)
    (f : FPSCR) :
    convertToBfp64 it v f = ⟨bfp64ConvertFromBfp (BfpFinite.ofInt (operandInt it v)), f, false⟩ := by
  have hnarrow : itIs64 it = false := by rcases hit with rfl | rfl <;> rfl
  rw [convertToBfp64, if_pos hnarrow, intSource_eq]

/-- Settles O47: an integer of 32 bits has its own encoding. -/
theorem ctfprOfThirtyTwoBitsIsExact : Obligations.CtfprOfThirtyTwoBitsIsExact := by
  intro frt rb it s hfp hit
  have hc := convertToBfp64_of_narrow hit s.gpr[rb] s.fpscr
  have hplain := exec_outcomes (i := .ctfpr frt rb it) (xx := false) rfl hfp
    (by rw [enabledBy, State.readGpr, hc]; rfl) (by rw [updated, State.readGpr, hc])
  have hdot := exec_outcomes (i := .ctfprDot frt rb it) (xx := false) rfl hfp
    (by rw [enabledBy, State.readGpr, hc]; rfl) (by rw [updated, State.readGpr, hc])
  refine ⟨hplain.1 (.inr (.inl rfl)), hdot.1 (.inr (.inl rfl)), ?_⟩
  exact (integerEncodingsAreExact _ (operandInt_natAbs_le it _)).1
    (fitsIn_of_natAbs_lt (operandInt_natAbs_lt hit _))

/-- What a conversion from an integer leaves in the FPR and in `FPSCR`, after the rounding `x` of the
operand `n`. -/
structure Converted (frt : FprNum) (s t : State) (n : Int) (x : RoundedBfp) : Prop where
  fpr : t.readFpr frt = bfp64ConvertFromBfp x.value
  fpscr : t.fpscr = roundedFpscr s.fpscr n x

theorem converted_of_exec_ctfpr {frt : FprNum} {rb : GprNum} {it : IntType} {s t : State}
    (hit : it = .d ∨ it = .ud)
    (h : exec (.ctfpr frt rb it) s = .next t ∨ exec (.ctfprDot frt rb it) s = .next t) :
    Converted frt s t (operandInt it (s.readGpr rb))
      (roundToPrecision 53 (RoundMode.ofRN s.fpscr.rn)
        (BfpFinite.ofInt (operandInt it (s.readGpr rb)))) := by
  have hc := convertToBfp64_eq hit (s.readGpr rb) s.fpscr rfl
  rcases h with h | h
  all_goals
    obtain ⟨-, -, -, rfl⟩ := exec_eq_next.1 h
    rw [updated, hc]
    exact ⟨readFpr_writeFpr_same _ _ _, rfl⟩

theorem converted_of_exec_ctfprs {frt : FprNum} {rb : GprNum} {it : IntType} {s t : State}
    (h : exec (.ctfprs frt rb it) s = .next t ∨ exec (.ctfprsDot frt rb it) s = .next t) :
    Converted frt s t (operandInt it (s.readGpr rb))
      (roundToPrecision 24 (RoundMode.ofRN s.fpscr.rn)
        (BfpFinite.ofInt (operandInt it (s.readGpr rb)))) := by
  have hc := convertToBfp32_eq it (s.readGpr rb) s.fpscr rfl
  rcases h with h | h
  all_goals
    obtain ⟨-, -, -, rfl⟩ := exec_eq_next.1 h
    rw [updated, hc]
    exact ⟨readFpr_writeFpr_same _ _ _, rfl⟩

/-- The number the FPR then holds is the rounded integer, and the flags speak of it. -/
theorem Converted.correctlyRounded {frt : FprNum} {s t : State} {n : Int} {p : Nat}
    {mode : RoundMode} (hp : 1 ≤ p) (hp' : p ≤ 53) (hn : n.natAbs ≤ 2 ^ 64)
    (h : Converted frt s t n (roundToPrecision p mode (BfpFinite.ofInt n))) :
    ∃ r : Int, bfpConvertFromBfp64 (t.readFpr frt) = .fin (BfpFinite.ofInt r) ∧
      RoundsTo p mode n r ∧ t.fpscr.fi = decide (r ≠ n) ∧
      t.fpscr.fr = decide (n.natAbs < r.natAbs) ∧ t.fpscr.fprf = integerClass r := by
  obtain ⟨hfpr, hfpscr⟩ := h
  rw [roundToPrecision_ofInt p mode n hp] at hfpr hfpscr
  have hrounds := roundedInt_roundsTo mode n hp
  refine ⟨roundedInt p mode n, ?_, hrounds, ?_, ?_, ?_⟩
  · rw [hfpr]
    exact (integerEncodingsAreExact _ (roundedInt_natAbs_le mode hp hn)).1
      (FitsIn.mono hp' hrounds.1)
  · rw [hfpscr]; rfl
  · rw [hfpscr]; rfl
  · rw [hfpscr, integerClass_roundedInt mode n hp]; rfl

/-- Settles O50: the conversion is one rounding, and the encoding of its result is exact. -/
theorem convertedIntegersAreCorrectlyRounded :
    Obligations.ConvertedIntegersAreCorrectlyRounded := by
  intro frt rb it s t
  have hn := operandInt_natAbs_le it (s.readGpr rb)
  exact ⟨fun hit h => (converted_of_exec_ctfpr hit h).correctlyRounded (by decide) le_rfl hn,
    fun h => (converted_of_exec_ctfprs h).correctlyRounded (by decide) (by decide) hn⟩

end ConvertedIntegers

/-! ### Convert From Floating-Point Register (spec/42_convert_from_fpr.md R160, R170 to R176) -/

section ConvertFrom

open Sys2Proof.Laws

theorem legal_of_le {cvm : Cvm} (h : cvm.toNat ≤ 5) : Cvm.legal cvm = true := decide_eq_true h

/-- A signalling NaN is a NaN, so the invalid operation is `overflow` alone. -/
theorem convertFromBfp64_vx (cvm : Cvm) (it : IntType) (rn : BitVec 2) (frb : Dword) :
    (convertFromBfp64 cvm it rn frb).vx = (convertFromBfp64 cvm it rn frb).overflow := by
  have hnan : ∀ (x : Bfp) (b : Bool), (isSNaN x || (isNaN x || b)) = (isNaN x || b) := by
    intro x b
    cases x <;> rfl
  exact hnan _ _

/-- `FPSCR` after a conversion whose result is written; `FPRF` is the next free value. -/
def writtenFpscr (s : State) (c : FromFpr) : FPSCR :=
  { s.fpscr.withExceptions c.vxsnan c.vxcvi c.xx with
    fprf := Config.draw 5 s.draws, fr := c.inc, fi := c.xx }

/-- The state after `cffpr` has written its result, before `XER` and `CR`. -/
def written (s : State) (rt : GprNum) (c : FromFpr) : State :=
  { s with gpr := s.gpr.set rt c.result, fpscr := writtenFpscr s c, draws := s.draws + 1 }

theorem applyFromFpr_of_not_vex {s : State} {c : FromFpr} (rt : GprNum)
    (h : c.vex s.fpscr = false) : s.applyFromFpr rt c = written s rt c := by
  simp only [State.applyFromFpr, h, setExceptions_eq]
  rfl

/-- `XER` after a conversion with `OE` = `oe`. -/
def xerAfter (oe : Bool) (x : XER) (overflow : Bool) : XER :=
  if oe then { x with ov := overflow, ov32 := overflow, so := x.so || overflow } else x

/-- `CR` after a conversion with `Rc` = `rc`. -/
def crAfter (rc : Bool) (c : CR) (v : Dword) (so : Bool) : CR :=
  if rc then { c with cr0 := signCr0 v so } else c

theorem recordOverflow_if (oe : Bool) (s : State) (overflow : Bool) :
    (if oe then s.recordOverflow overflow else s) = { s with xer := xerAfter oe s.xer overflow } := by
  cases oe <;> rfl

theorem recordFromFpr_if (rc : Bool) (s : State) (v : Dword) :
    (if rc then s.recordFromFpr false v else s) = { s with cr := crAfter rc s.cr v s.xer.so } := by
  cases rc with
  | false => rfl
  | true => rw [crAfter, ← cr0Of_eq]; rfl

/-- The state with every update of `cffpr[o][.]` made, its result written. -/
def cffprWritten (oe rc : Bool) (rt : GprNum) (c : FromFpr) (s : State) : State :=
  { written s rt c with
    xer := xerAfter oe s.xer c.overflow
    cr := crAfter rc s.cr c.result (xerAfter oe s.xer c.overflow).so }

theorem cffprUpdated_of_not_vex {frb : FprNum} {cvm : Cvm} {it : IntType} {s : State} (oe rc : Bool)
    (rt : GprNum) (h : (fromFprOf s frb cvm it).vex s.fpscr = false) :
    cffprUpdated oe rc rt frb cvm it s = cffprWritten oe rc rt (fromFprOf s frb cvm it) s := by
  dsimp only [cffprUpdated]
  rw [applyFromFpr_of_not_vex rt h, h, recordOverflow_if, recordFromFpr_if]
  rfl

/-- The mnemonic of `OE` = `oe` and `Rc` = `rc`. -/
def cffprInstr (oe rc : Bool) (rt : GprNum) (frb : FprNum) (cvm : Cvm) (it : IntType) : Instr :=
  match oe, rc with
  | false, false => .cffpr rt frb cvm it
  | false, true => .cffprDot rt frb cvm it
  | true, false => .cffpro rt frb cvm it
  | true, true => .cffproDot rt frb cvm it

theorem cffprInstr_meaning (oe rc : Bool) (rt : GprNum) (frb : FprNum) (cvm : Cvm) (it : IntType)
    (s : State) :
    (cffprInstr oe rc rt frb cvm it).wf = Cvm.legal cvm ∧
      enabledBy (cffprInstr oe rc rt frb cvm it) s = (fromFprOf s frb cvm it).fpEnabled s.fpscr ∧
      updated (cffprInstr oe rc rt frb cvm it) s = cffprUpdated oe rc rt frb cvm it s := by
  cases oe <;> cases rc <;> exact ⟨rfl, rfl, rfl⟩

/-- The two ends of `cffpr[o][.]` without an enabled invalid operation: only an enabled inexact
conversion can trap. -/
theorem cffpr_outcomes {frb : FprNum} {cvm : Cvm} {it : IntType} {s : State} (oe rc : Bool)
    (rt : GprNum) (hfp : s.params.fpAvailable = true) (hcvm : cvm.toNat ≤ 5)
    (hve : s.fpscr.ve = false ∨ (fromFprOf s frb cvm it).overflow = false) :
    (s.params.feMode = .ignored ∨ (fromFprOf s frb cvm it).xx = false ∨ s.fpscr.xe = false →
      exec (cffprInstr oe rc rt frb cvm it) s =
        .next { cffprWritten oe rc rt (fromFprOf s frb cvm it) s with cia := s.cia + 4 }) ∧
    (s.params.feMode = .trap ∧ (fromFprOf s frb cvm it).xx = true ∧ s.fpscr.xe = true →
      exec (cffprInstr oe rc rt frb cvm it) s =
        .fault (.fpEnabledException s.cia (cffprWritten oe rc rt (fromFprOf s frb cvm it) s))) := by
  obtain ⟨hwf, henabled, hupdated⟩ := cffprInstr_meaning oe rc rt frb cvm it s
  have hvex : (fromFprOf s frb cvm it).vex s.fpscr = false := by
    rw [FromFpr.vex, fromFprOf, convertFromBfp64_vx, Bool.and_eq_false_iff]
    exact hve
  refine exec_outcomes (hwf.trans (legal_of_le hcvm)) hfp ?_
    (hupdated.trans (cffprUpdated_of_not_vex oe rc rt hvex))
  rw [henabled, FromFpr.fpEnabled, hvex, Bool.false_or]

/-- Settles O53: `cffpr_outcomes` for each mnemonic, no trap. -/
theorem cffprWritesTheResult : Obligations.CffprWritesTheResult := by
  intro rt frb cvm it s hfp hcvm c hve htrap
  have h := fun oe rc => (cffpr_outcomes (it := it) oe rc rt hfp hcvm hve).1 htrap
  exact ⟨h false false, h false true, h true false, h true true⟩

/-- `OE` without an overflow clears `OV` and `OV32` and keeps `SO`. -/
theorem xerAfter_without_overflow (oe : Bool) (x : XER) :
    xerAfter oe x false = if oe then { x with ov := false, ov32 := false } else x := by
  rw [xerAfter, Bool.or_false]

/-- A valid inexact conversion records `XX` alone. -/
theorem writtenFpscr_of_inexact {c : FromFpr} (s : State) (hvx : c.vx = false) (hxx : c.xx = true) :
    writtenFpscr s c = { s.fpscr.withExceptions false false true with
      fprf := Config.draw 5 s.draws, fr := c.inc, fi := true } := by
  obtain ⟨hsnan, hcvi⟩ := Bool.or_eq_false_iff.1 hvx
  rw [writtenFpscr, hsnan, hcvi, hxx]

/-- An enabled inexact exception shows in `FEX`. -/
theorem fex_of_enabled_xx {f : FPSCR} (hxx : f.xx = true) (hxe : f.xe = true) : f.fex = true := by
  simp [FPSCR.fex, hxx, hxe]

/-- Settles O60: `cffpr_outcomes` for each mnemonic, with the trap. -/
theorem cffprTrapsOnEnabledInexact : Obligations.CffprTrapsOnEnabledInexact := by
  intro rt frb cvm it s hfp hcvm hmode hxe c hoverflow hxx
  have hc : fromFprOf s frb cvm it = c := rfl
  have hvx : c.vx = false := (convertFromBfp64_vx ..).trans hoverflow
  have h := fun oe rc =>
    (cffpr_outcomes (it := it) oe rc rt hfp hcvm (.inr hoverflow)).2 ⟨hmode, hxx, hxe⟩
  simp only [hc, cffprWritten, written, writtenFpscr_of_inexact s hvx hxx, hoverflow,
    xerAfter_without_overflow] at h
  exact ⟨fex_of_enabled_xx (Bool.or_true _) hxe, h false false, h false true, h true false,
    h true true⟩

end ConvertFrom

end Sys2Proof.Proofs

namespace Sys2Proof.Proofs

open Sys2Proof.Machine

/-! ### Instruction memory (spec/20_memory.md R70 to R79) -/

section InstructionMemory

open Sys2Proof.Laws

/-- A field is the bits shifted to the right end, cut to its width (spec/00_scope.md R7). -/
theorem fieldAt_eq_setWidth {n : Nat} (v : BitVec n) (start width : Nat) :
    fieldAt v start width = (v >>> (n - start - width)).setWidth width := by
  apply BitVec.eq_of_toNat_eq
  rw [toNat_fieldAt, BitVec.toNat_setWidth, BitVec.toNat_ushiftRight, Nat.shiftRight_eq_div_pow]

/-- The most significant byte stands first under `BE` and last under `LE` (R71). -/
theorem wordOfBytes_byteOfWord (order : ByteOrder) (w : Word) :
    wordOfBytes order (byteOfWord order w 0) (byteOfWord order w 1) (byteOfWord order w 2)
      (byteOfWord order w 3) = w := by
  have hbytes : fieldAt w 0 8 ++ fieldAt w 8 8 ++ fieldAt w 16 8 ++ fieldAt w 24 8 = w := by
    apply BitVec.eq_of_toNat_eq
    simp only [toNat_append_eq, toNat_fieldAt]
    omega
  cases order with
  | be => exact hbytes
  | le => exact hbytes

/-- Settles O9: the bytes are the four fields of 8 bits, and a field is a shift. -/
theorem byteOrderPlacesTheWord : Obligations.ByteOrderPlacesTheWord := by
  refine fun w => ⟨fun order => wordOfBytes_byteOfWord order w, fun k => ⟨?_, ?_⟩⟩
  · have hshift : 32 - 8 * k.val - 8 = 24 - 8 * k.val := by omega
    rw [byteOfWord, fieldAt_eq_setWidth, hshift]
  · have hshift : 32 - (24 - 8 * k.val) - 8 = 8 * k.val := by omega
    rw [byteOfWord, fieldAt_eq_setWidth, hshift]

/-- A fetch gives a word exactly when memory holds its four bytes from `CIA` on (R71, R72). -/
theorem fetchWord_eq_some {s : State} {w : Word} :
    s.fetchWord = some w ↔ ∃ b : Fin 4 → Byte,
      (∀ k, Memory.read s.imem (s.cia.toNat + k.val) = some (b k)) ∧
        wordOfBytes s.params.insnByteOrder (b 0) (b 1) (b 2) (b 3) = w := by
  unfold State.fetchWord
  constructor
  · intro h
    split at h
    · next b0 b1 b2 b3 h0 h1 h2 h3 =>
      refine ⟨![b0, b1, b2, b3], fun k => ?_, Option.some.inj h⟩
      match k with
      | 0 => exact h0
      | 1 => exact h1
      | 2 => exact h2
      | 3 => exact h3
    · cases h
  · rintro ⟨b, hb, rfl⟩
    have h0 : Memory.read s.imem s.cia.toNat = some (b 0) := hb 0
    have h1 : Memory.read s.imem (s.cia.toNat + 1) = some (b 1) := hb 1
    have h2 : Memory.read s.imem (s.cia.toNat + 2) = some (b 2) := hb 2
    have h3 : Memory.read s.imem (s.cia.toNat + 3) = some (b 3) := hb 3
    rw [h0, h1, h2, h3]

/-- A missing byte leaves no word to fetch (R72). -/
theorem fetchWord_eq_none {s : State} {k : Nat} (hk : k < 4)
    (h : Memory.read s.imem (s.cia.toNat + k) = none) : s.fetchWord = none := by
  refine Option.eq_none_iff_forall_ne_some.2 fun w hw => ?_
  obtain ⟨b, hb, -⟩ := fetchWord_eq_some.1 hw
  cases h.symm.trans (hb ⟨k, hk⟩)

/-- Settles O11: the two checks of `step` that come before the decoder, in their order. -/
theorem fetchFaultThenStop : Obligations.FetchFaultThenStop := by
  refine fun s => ⟨fun hmisaligned => ?_, fun haligned ⟨k, hk, hmissing⟩ => ?_⟩
  · rw [step, if_pos hmisaligned, raise]
  · rw [step, if_neg (not_not_intro haligned), fetchWord_eq_none hk hmissing]
    rfl

/-- A fetch depends on memory, the address and the byte order alone. -/
theorem fetchWord_congr {s t : State} (himem : t.imem = s.imem) (hcia : t.cia = s.cia)
    (hparams : t.params = s.params) : t.fetchWord = s.fetchWord := by
  simp only [State.fetchWord, himem, hcia, hparams]

/-- No instruction changes memory or a parameter, in the state at a fault either. -/
theorem exec_frame {i : Instr} {s t : State}
    (h : exec i s = .next t ∨ ∃ f, exec i s = .fault f ∧ t = f.stateAt s) :
    t.imem = s.imem ∧ t.params = s.params := by
  rcases exec_after h with rfl | rfl | rfl <;> simp

/-- Settles O19: memory and the parameters stay, and a fetch depends on nothing else. -/
theorem noInstructionChangesMemoryOrParameters :
    Obligations.NoInstructionChangesMemoryOrParameters := by
  refine fun i s => ⟨fun t hnext => ?_, fun f hfault => exec_frame (.inr ⟨f, hfault, rfl⟩)⟩
  obtain ⟨himem, hparams⟩ := exec_frame (.inl hnext)
  exact ⟨fun a => by rw [himem], himem, hparams, fun c => fetchWord_congr himem rfl hparams⟩

/-- The 32 bits loaded are the whole word. -/
theorem withFetchWord_toNat (s : State) (w : Word) :
    s.withFetchWord 32 w.toNat = s.loadWord w := by
  rw [State.withFetchWord, Nat.mod_eq_of_lt w.isLt, BitVec.ofNat_toNat, BitVec.setWidth_eq]

/-- The loaded word is the one fetched, in either byte order (R71). -/
theorem fetchWord_loadWord {s : State} (w : Word) (haligned : s.cia.toNat % 4 = 0)
    (hwf : Memory.wf s.imem = true) : (s.loadWord w).fetchWord = some w := by
  refine fetchWord_eq_some.2 ⟨byteOfWord s.params.insnByteOrder w, fun k => ?_,
    wordOfBytes_byteOfWord _ w⟩
  rw [loadWord_cia, read_loadWord s w _ haligned hwf]
  match k with
  | 0 => simp
  | 1 => simp
  | 2 => simp
  | 3 => simp

/-- Loading a word leaves the other bytes as they were. -/
theorem read_loadWord_of_ne {s : State} (w : Word) {a : Nat} (haligned : s.cia.toNat % 4 = 0)
    (hwf : Memory.wf s.imem = true) (ha : ∀ k, k < 4 → a ≠ s.cia.toNat + k) :
    Memory.read (s.loadWord w).imem a = Memory.read s.imem a := by
  rw [read_loadWord s w a haligned hwf, if_neg (ha 3 (by decide)), if_neg (ha 2 (by decide)),
    if_neg (ha 1 (by decide)), if_neg (by simpa using ha 0)]

/-- Settles O16: the loaded word is fetched, and `stepRunsTheDecodedInstruction`. -/
theorem loadedWordIsExecuted : Obligations.LoadedWordIsExecuted := by
  intro s w haligned hwf
  rw [withFetchWord_toNat]
  have hfetch := fetchWord_loadWord w haligned hwf
  exact ⟨fun i => stepRunsTheDecodedInstruction (s.loadWord w) w i haligned hfetch,
    fun _ => read_loadWord_of_ne w haligned hwf, wf_loadWord s w haligned hwf, loadWord_eq s w⟩

end InstructionMemory

end Sys2Proof.Proofs

namespace Sys2Proof.Proofs

open Sys2Proof.Machine

/-! ### Words by their fields (spec/30_encoding.md R91 to R97) -/

section WordFields

open Sys2Proof.Laws

/-- A part of a field is a field itself. -/
theorem fieldAt_fieldAt {n : Nat} (v : BitVec n) {start width first count : Nat}
    (hcount : first + count ≤ width) (hwidth : start + width ≤ n) :
    fieldAt (fieldAt v start width) first count = fieldAt v (start + first) count := by
  apply BitVec.eq_of_getLsbD_eq
  intro i hi
  have hinner : width - first - count + i < width := by omega
  have hpos : n - start - width + (width - first - count + i) = n - (start + first) - count + i := by
    omega
  simp only [fieldAt_getLsbD, hi, hinner, hpos, decide_true, Bool.true_and]

/-- A bit of a field is a bit of the word. -/
theorem getMsbD_fieldAt {n : Nat} (v : BitVec n) {start width k : Nat} (hk : k < width)
    (hwidth : start + width ≤ n) : (fieldAt v start width).getMsbD k = v.getMsbD (start + k) := by
  have hword : start + k < n := by omega
  have hbit : width - 1 - k < width := by omega
  have hpos : n - start - width + (width - 1 - k) = n - 1 - (start + k) := by omega
  simp only [BitVec.getMsbD_eq_getLsbD, fieldAt_getLsbD, hk, hword, hbit, hpos, decide_true,
    Bool.true_and]

/-- The left part of a concatenation. -/
theorem fieldAt_append_left {m n : Nat} (x : BitVec m) (y : BitVec n) :
    fieldAt (x ++ y) 0 m = x := by
  apply BitVec.eq_of_toNat_eq
  have hshift : m + n - 0 - m = n := by omega
  rw [toNat_fieldAt, hshift, toNat_append_eq, Nat.mul_comm, Nat.mul_add_div (by positivity),
    Nat.div_eq_of_lt y.isLt, Nat.add_zero, Nat.mod_eq_of_lt x.isLt]

/-- The right part of a concatenation. -/
theorem fieldAt_append_right {m n : Nat} (x : BitVec m) (y : BitVec n) :
    fieldAt (x ++ y) m n = y := by
  apply BitVec.eq_of_toNat_eq
  have hshift : m + n - m - n = 0 := by omega
  rw [toNat_fieldAt, hshift, toNat_append_eq, Nat.pow_zero, Nat.div_one, Nat.mul_comm,
    Nat.mul_add_mod, Nat.mod_eq_of_lt y.isLt]

variable (po : BitVec 6) (t : Fin 32) (m : BitVec 5) (b : Fin 32) (xo : BitVec 10) (l : BitVec 1)

@[simp] theorem regAt_xForm_target : regAt (xForm po t m b xo l) 6 = t := by
  rw [regAt, fieldAt_xForm_target, regBits_toFin]

@[simp] theorem regAt_xForm_source : regAt (xForm po t m b xo l) 16 = b := by
  rw [regAt, fieldAt_xForm_source, regBits_toFin]

/-- `IT` is the first two bits of the field 11:15 (R93, R94). -/
@[simp] theorem fieldAt_xForm_it (it : BitVec 2) (cvm : Cvm) :
    fieldAt (xForm po t (it ++ cvm) b xo l) 11 2 = it := by
  have hpart := fieldAt_fieldAt (xForm po t (it ++ cvm) b xo l) (start := 11) (width := 5)
    (first := 0) (count := 2) (by decide) (by decide)
  rw [← hpart, fieldAt_xForm_middle]
  exact fieldAt_append_left it cvm

/-- `CVM` is the last three bits of the field 11:15 (R94). -/
@[simp] theorem fieldAt_xForm_cvm (it : BitVec 2) (cvm : Cvm) :
    fieldAt (xForm po t (it ++ cvm) b xo l) 13 3 = cvm := by
  have hpart := fieldAt_fieldAt (xForm po t (it ++ cvm) b xo l) (start := 11) (width := 5)
    (first := 2) (count := 3) (by decide) (by decide)
  rw [← hpart, fieldAt_xForm_middle]
  exact fieldAt_append_right it cvm

/-- `OE` is the top bit of the X-Form `XO` (R101). -/
@[simp] theorem getMsbD_xForm_oe : (xForm po t m b xo l).getMsbD 21 = xo.getMsbD 0 := by
  have hpart := getMsbD_fieldAt (xForm po t m b xo l) (start := 21) (width := 10) (k := 0)
    (by decide) (by decide)
  rw [← hpart, fieldAt_xForm_xo]

@[simp] theorem toBits_ofBits (v : BitVec 2) : (IntType.ofBits v).toBits = v := by
  revert v
  decide

theorem regBits_regAt (w : Word) (start : Nat) : regBits (regAt w start) = fieldAt w start 5 :=
  rfl

/-- Every word is the X-Form word of its fields. -/
theorem word_eq_xForm (w : Word) :
    w = xForm (fieldAt w 0 6) (regAt w 6) (fieldAt w 11 2 ++ fieldAt w 13 3) (regAt w 16)
      (fieldAt w 21 10) (BitVec.ofBool (w.getMsbD 31)) := by
  have hlast : BitVec.ofBool (w.getMsbD 31) = fieldAt w 31 1 := by
    rw [← getMsbD_fieldAt w (start := 31) (width := 1) (k := 0) (by decide) (by decide)]
    generalize fieldAt w 31 1 = v
    revert v
    decide
  apply BitVec.eq_of_toNat_eq
  simp only [hlast, xForm, regBits_regAt, toNat_append_eq, toNat_fieldAt]
  omega

end WordFields

/-! ### Reserved bits (spec/30_encoding.md R96) -/

section ReservedBits

open Sys2Proof.Laws

/-- Clearing bits outside a field leaves the field as it is. -/
theorem fieldAt_and_not {n : Nat} (v mask : BitVec n) {start width : Nat}
    (h : fieldAt mask start width = 0) :
    fieldAt (v &&& ~~~mask) start width = fieldAt v start width := by
  apply BitVec.eq_of_getLsbD_eq
  intro i hi
  by_cases hn : n - start - width + i < n
  · have hclear := congrArg (·.getLsbD i) h
    simp only [fieldAt_getLsbD, hi, decide_true, Bool.true_and] at hclear
    rw [fieldAt_getLsbD, BitVec.getLsbD_and, BitVec.getLsbD_not, hclear, fieldAt_getLsbD]
    simp [hn]
  · rw [fieldAt_getLsbD, fieldAt_getLsbD, BitVec.getLsbD_of_ge _ _ (Nat.le_of_not_lt hn),
      BitVec.getLsbD_of_ge _ _ (Nat.le_of_not_lt hn)]

theorem getMsbD_and_not (w mask : Word) {k : Nat} (h : mask.getMsbD k = false) :
    (w &&& ~~~mask).getMsbD k = w.getMsbD k := by
  rw [BitVec.getMsbD_and, BitVec.getMsbD_not, h]
  by_cases hk : k < 32
  · simp [hk]
  · simp [BitVec.getMsbD_of_ge _ _ (Nat.le_of_not_lt hk)]

/-- Every key bit lies outside the reserved bits (R101). -/
theorem keyOf_clearReserved (w : Word) (b : Base) : keyOf (w &&& ~~~b.reservedMask) = keyOf w := by
  rw [keyOf, fieldAt_and_not w _ (by cases b <;> rfl), fieldAt_and_not w _ (by cases b <;> rfl),
    keyOf]

/-- The operands are read outside the reserved bits (R91 to R94). -/
theorem readFields_clearReserved {b : Base} {w : Word} {i : Instr} :
    readFields b (w &&& ~~~b.reservedMask) = .ok i ↔ readFields b w = .ok i := by
  have htarget : regAt (w &&& ~~~b.reservedMask) 6 = regAt w 6 := by
    rw [regAt, fieldAt_and_not w _ (by cases b <;> rfl), regAt]
  have hsource : regAt (w &&& ~~~b.reservedMask) 16 = regAt w 16 := by
    rw [regAt, fieldAt_and_not w _ (by cases b <;> rfl), regAt]
  have hrc (h : b.reservedMask.getMsbD 31 = false) := getMsbD_and_not w _ h
  have hit (h : fieldAt b.reservedMask 11 2 = 0) := fieldAt_and_not w _ h
  cases b with
  | mffpr => simp only [readFields, htarget, hsource, hrc rfl]
  | mffprs => simp only [readFields, htarget, hsource, hrc rfl]
  | mtfpr => simp only [readFields, htarget, hsource]
  | mtfprs => simp only [readFields, htarget, hsource]
  | ctfpr => simp only [readFields, htarget, hsource, hrc rfl, hit rfl]
  | ctfprs => simp only [readFields, htarget, hsource, hrc rfl, hit rfl]
  | cffpr =>
    have hmask : w &&& ~~~Base.cffpr.reservedMask = w := BitVec.and_allOnes
    rw [hmask]

/-- A word without reserved bits has none to clear. -/
theorem and_not_of_and_eq_zero {w mask : Word} (h : w &&& mask = 0) : w &&& ~~~mask = w := by
  apply BitVec.eq_of_getLsbD_eq
  intro i hi
  have hbit : (w.getLsbD i && mask.getLsbD i) = false := by
    rw [← BitVec.getLsbD_and, h]
    exact BitVec.getLsbD_zero
  rw [BitVec.getLsbD_and, BitVec.getLsbD_not, decide_eq_true hi, Bool.true_and]
  cases hw : w.getLsbD i with
  | false => rfl
  | true =>
    rw [hw, Bool.true_and] at hbit
    rw [hbit]
    rfl

/-- Flipping reserved bits is not seen once they are cleared. -/
theorem clear_flip (w x mask : Word) : (w ^^^ (x &&& mask)) &&& ~~~mask = w &&& ~~~mask := by
  apply BitVec.eq_of_getLsbD_eq
  intro i hi
  cases hmask : mask.getLsbD i <;> simp [hmask]

end ReservedBits

/-! ### The decoder's answers (spec/30_encoding.md R101, R102) -/

section Decoder

open Sys2Proof.Laws

/-- A row that answers for a key stands in the table. -/
theorem mem_table_of_baseOf {o : Opcodes} {k : Key} {b : Base} (h : o.baseOf k = some b) :
    (k, b) ∈ o.table := by
  obtain ⟨before, after, htable, -⟩ := List.lookup_eq_some_iff.1 h
  simp [htable]

/-- Under distinct keys every row answers for its key (R101). -/
theorem baseOf_of_mem_table {o : Opcodes} {k : Key} {b : Base} (hdistinct : o.Distinct)
    (h : (k, b) ∈ o.table) : o.baseOf k = some b := by
  obtain ⟨before, after, htable⟩ := List.append_of_mem h
  rw [Opcodes.Distinct, htable, List.map_append, List.map_cons, List.nodup_append] at hdistinct
  obtain ⟨-, -, hne⟩ := hdistinct
  refine List.lookup_eq_some_iff.2 ⟨before, after, htable, fun row hrow => ?_⟩
  exact bne_iff_ne.2 (hne row.1 (List.mem_map_of_mem hrow) k (by simp)).symm

theorem baseOf_eq_none {o : Opcodes} {k : Key} :
    o.baseOf k = none ↔ ∀ row ∈ o.table, row.1 ≠ k := by
  rw [Opcodes.baseOf, List.lookup_eq_none_iff]
  simp only [bne_iff_ne, ne_comm]

/-- The instruction of base `b` with these field values; a field that its format lacks is not used. -/
def instrOf (b : Base) (target source : Fin 32) (it : IntType) (cvm : Cvm) (oe rc : Bool) : Instr :=
  match b with
  | .mffpr => if rc then .mffprDot target source else .mffpr target source
  | .mffprs => if rc then .mffprsDot target source else .mffprs target source
  | .mtfpr => .mtfpr target source
  | .mtfprs => .mtfprs target source
  | .ctfpr => if rc then .ctfprDot target source it else .ctfpr target source it
  | .ctfprs => if rc then .ctfprsDot target source it else .ctfprs target source it
  | .cffpr =>
    if oe then
      if rc then .cffproDot target source cvm it else .cffpro target source cvm it
    else
      if rc then .cffprDot target source cvm it else .cffpr target source cvm it

/-- Reading the operands: an illegal `CVM` of `cffpr`, or the instruction of the fields. -/
theorem readFields_eq (b : Base) (w : Word) :
    readFields b w =
      if b = .cffpr ∧ Cvm.legal (fieldAt w 13 3) = false then .error (.illegal w)
      else .ok (instrOf b (regAt w 6) (regAt w 16) (IntType.ofBits (fieldAt w 11 2)) (fieldAt w 13 3)
        (w.getMsbD 21) (w.getMsbD 31)) := by
  cases b with
  | cffpr =>
    cases hlegal : Cvm.legal (fieldAt w 13 3) with
    | false => simp [readFields, hlegal]
    | true =>
      simp only [readFields, instrOf, hlegal]
      cases w.getMsbD 21 <;> cases w.getMsbD 31 <;> rfl
  | _ => rfl

theorem instrOf_base (b : Base) (target source : Fin 32) (it : IntType) (cvm : Cvm) (oe rc : Bool) :
    (instrOf b target source it cvm oe rc).base = b := by
  cases b <;> cases oe <;> cases rc <;> rfl

theorem instrOf_wf (b : Base) (target source : Fin 32) (it : IntType) (cvm : Cvm) (oe rc : Bool) :
    (instrOf b target source it cvm oe rc).wf = (decide (b ≠ .cffpr) || Cvm.legal cvm) := by
  cases b <;> cases oe <;> cases rc <;> rfl

theorem readFields_eq_ok {b : Base} {w : Word} {i : Instr} (h : readFields b w = .ok i) :
    i = instrOf b (regAt w 6) (regAt w 16) (IntType.ofBits (fieldAt w 11 2)) (fieldAt w 13 3)
      (w.getMsbD 21) (w.getMsbD 31) ∧ i.base = b ∧ i.WellFormed := by
  rw [readFields_eq] at h
  split at h
  · cases h
  · next hlegal =>
    cases h
    refine ⟨rfl, instrOf_base .., ?_⟩
    rw [Instr.WellFormed, instrOf_wf]
    by_cases hb : b = .cffpr
    · rw [Bool.eq_true_of_not_eq_false fun hcvm => hlegal ⟨hb, hcvm⟩, Bool.or_true]
    · rw [decide_eq_true hb, Bool.true_or]

/-- `CVM` is illegal for 6 and 7 (R102 (a)). -/
theorem legal_eq_false {cvm : Cvm} : Cvm.legal cvm = false ↔ 6 ≤ cvm.toNat := by
  simp [Cvm.legal]
  omega

theorem readFields_eq_error {b : Base} {w : Word} {e : DecodeReject} :
    readFields b w = .error e ↔ e = .illegal w ∧ b = .cffpr ∧ 6 ≤ (fieldAt w 13 3).toNat := by
  rw [readFields_eq, ← legal_eq_false]
  split
  · next hcvm => simp only [hcvm, Except.error.injEq, and_self, and_true, eq_comm]
  · next hcvm => simp only [hcvm, and_false, reduceCtorEq]

/-- A word decodes when its key has a row, the policy accepts its reserved bits, and its operands are
read. -/
theorem decodeWord_eq_ok {o : Opcodes} {policy : ReservedPolicy} {w : Word} {i : Instr} :
    decodeWord o policy w = .ok i ↔ ∃ b, o.baseOf (keyOf w) = some b ∧
      (policy = .mustBeZero → w &&& b.reservedMask = 0) ∧ readFields b w = .ok i := by
  unfold decodeWord
  split
  · next hnone => simp [hnone]
  · next b hb =>
    simp only [hb, Option.some.injEq, exists_eq_left']
    split
    · next hreserved => exact iff_of_false nofun fun ⟨hzero, _⟩ => hreserved.2 (hzero hreserved.1)
    · next haccepted =>
      exact (and_iff_right fun hpolicy => not_not.1 fun hne => haccepted ⟨hpolicy, hne⟩).symm

/-- Settles O5: the decoder looks up the key first, and no other check answers `outOfScope`. -/
theorem outOfScopeExactlyWithoutKey : Obligations.OutOfScopeExactlyWithoutKey := by
  intro o policy w
  rw [← baseOf_eq_none, decodeWord]
  split
  · next hnone => simp [hnone]
  · next b hb =>
    split
    · simp [hb]
    · simp [hb, readFields_eq_error]

/-- Settles O6: the check of the reserved bits and the one of `CVM` are the decoder's two. -/
theorem illegalExactlyByCvmOrReservedBits : Obligations.IllegalExactlyByCvmOrReservedBits := by
  intro o policy w
  rw [decodeWord]
  split
  · next hnone => simp [hnone]
  · next b hb =>
    split
    · next hreserved => exact iff_of_true rfl ⟨b, hb, .inr hreserved⟩
    · next haccepted =>
      simp only [readFields_eq_error, hb, Option.some.injEq, exists_eq_left', haccepted, or_false,
        true_and]

end Decoder

/-! ### Encoding and decoding back (spec/30_encoding.md R96, R101, R109) -/

section EncodeDecode

open Sys2Proof.Laws

/-- Clearing bits of the field 11:15 and bit 31 of an X-Form word. -/
theorem xForm_and_not (po : BitVec 6) (t : Fin 32) (m : BitVec 5) (b : Fin 32) (xo : BitVec 10)
    (l : BitVec 1) (middle : BitVec 5) (last : BitVec 1) :
    xForm po t m b xo l &&& ~~~(xForm 0 0 middle 0 0 last) =
      xForm po t (m &&& ~~~middle) b xo (l &&& ~~~last) := by
  have hzero : regBits 0 = 0 := rfl
  apply BitVec.eq_of_getLsbD_eq
  intro i hi
  simp only [BitVec.getLsbD_and, BitVec.getLsbD_not, xForm_getLsbD, hzero]
  split_ifs with hlast hxo hsource hmiddle htarget
  · simp [hi, hlast]
  · simp [hi]
  · simp [hi]
  · have hwidth : i - 16 < 5 := by omega
    simp [hi, hwidth]
  · simp [hi]
  · simp [hi]

/-- The moves from an FPR have no field 11:15 (R91). -/
theorem xForm_clear_middle (po : BitVec 6) (t : Fin 32) (m : BitVec 5) (b : Fin 32) (xo : BitVec 10)
    (l : BitVec 1) : xForm po t m b xo l &&& ~~~0x001F0000 = xForm po t 0 b xo l := by
  have hmiddle : m &&& ~~~0x1F = 0 := BitVec.and_zero
  have hlast : l &&& ~~~0 = l := BitVec.and_allOnes
  have hclear := xForm_and_not po t m b xo l 0x1F 0
  rwa [hmiddle, hlast] at hclear

/-- The moves to an FPR have neither the field 11:15 nor bit 31 (R92). -/
theorem xForm_clear_middle_last (po : BitVec 6) (t : Fin 32) (m : BitVec 5) (b : Fin 32)
    (xo : BitVec 10) (l : BitVec 1) :
    xForm po t m b xo l &&& ~~~0x001F0001 = xForm po t 0 b xo 0 := by
  have hmiddle : m &&& ~~~0x1F = 0 := BitVec.and_zero
  have hlast : l &&& ~~~1 = 0 := BitVec.and_zero
  have hclear := xForm_and_not po t m b xo l 0x1F 1
  rwa [hmiddle, hlast] at hclear

/-- The conversions to an FPR have no `CVM` (R93). -/
theorem xForm_clear_cvm (po : BitVec 6) (t : Fin 32) (it : BitVec 2) (cvm : Cvm) (b : Fin 32)
    (xo : BitVec 10) (l : BitVec 1) :
    xForm po t (it ++ cvm) b xo l &&& ~~~0x00070000 = xForm po t (it ++ 0#3) b xo l := by
  have hmiddle : (it ++ cvm) &&& ~~~0b00111 = it ++ 0#3 := by
    revert it cvm
    decide
  have hlast : l &&& ~~~0 = l := BitVec.and_allOnes
  have hclear := xForm_and_not po t (it ++ cvm) b xo l 0b00111 0
  rwa [hmiddle, hlast] at hclear

theorem getMsbD_append_first {n : Nat} (v : BitVec 1) (x : BitVec n) :
    (v ++ x).getMsbD 0 = v.getMsbD 0 := by
  simp [BitVec.getMsbD_append]

/-- The encoding of an instruction with a row's key, from the word of all its fields: the bits its format
reserves are cleared. -/
theorem encode_instrOf {o : Opcodes} {po : BitVec 6} {xo : BitVec 10} {b : Base}
    (h : ((po, xo), b) ∈ o.table) (target source : Fin 32) (it : IntType) (cvm : Cvm) (rc : Bool) :
    encode o (instrOf b target source it cvm (xo.getMsbD 0) rc) =
      xForm po target (it.toBits ++ cvm) source xo (BitVec.ofBool rc) &&& ~~~b.reservedMask := by
  simp only [Opcodes.table, List.mem_cons, Prod.mk.injEq, List.not_mem_nil, or_false] at h
  rcases h with ⟨⟨rfl, rfl⟩, rfl⟩ | ⟨⟨rfl, rfl⟩, rfl⟩ | ⟨⟨rfl, rfl⟩, rfl⟩ | ⟨⟨rfl, rfl⟩, rfl⟩ |
    ⟨⟨rfl, rfl⟩, rfl⟩ | ⟨⟨rfl, rfl⟩, rfl⟩ | ⟨⟨rfl, rfl⟩, rfl⟩ | ⟨⟨rfl, rfl⟩, rfl⟩
  · rw [Base.reservedMask, xForm_clear_middle]
    cases rc <;> rfl
  · rw [Base.reservedMask, xForm_clear_middle]
    cases rc <;> rfl
  · rw [Base.reservedMask, xForm_clear_middle_last]
    rfl
  · rw [Base.reservedMask, xForm_clear_middle_last]
    rfl
  · rw [Base.reservedMask, xForm_clear_cvm]
    cases rc <;> rfl
  · rw [Base.reservedMask, xForm_clear_cvm]
    cases rc <;> rfl
  · rw [Base.reservedMask, getMsbD_append_first]
    cases rc <;> exact BitVec.and_allOnes.symm
  · rw [Base.reservedMask, getMsbD_append_first]
    cases rc <;> exact BitVec.and_allOnes.symm

/-- The key of an encoding is a key of the instruction's base, and its reserved bits are zero. -/
theorem encodedKey (i : Instr) : EncodedKey.Statement i := by
  cases i with
  | mffpr rt frb => exact EncodedKey.mffpr rt frb
  | mffprDot rt frb => exact EncodedKey.mffprDot rt frb
  | mffprs rt frb => exact EncodedKey.mffprs rt frb
  | mffprsDot rt frb => exact EncodedKey.mffprsDot rt frb
  | mtfpr frt rb => exact EncodedKey.mtfpr frt rb
  | mtfprs frt rb => exact EncodedKey.mtfprs frt rb
  | ctfpr frt rb it => exact EncodedKey.ctfpr frt rb it
  | ctfprDot frt rb it => exact EncodedKey.ctfprDot frt rb it
  | ctfprs frt rb it => exact EncodedKey.ctfprs frt rb it
  | ctfprsDot frt rb it => exact EncodedKey.ctfprsDot frt rb it
  | cffpr rt frb cvm it => exact EncodedKey.cffpr rt frb cvm it
  | cffprDot rt frb cvm it => exact EncodedKey.cffprDot rt frb cvm it
  | cffpro rt frb cvm it => exact EncodedKey.cffpro rt frb cvm it
  | cffproDot rt frb cvm it => exact EncodedKey.cffproDot rt frb cvm it

/-- The operands of `cffpr[o][.]` are read back from its word (R94). -/
theorem readFields_cffprForm (o : Opcodes) (oe rc : Bool) (rt : GprNum) (frb : FprNum) {cvm : Cvm}
    (it : IntType) (hlegal : Cvm.legal cvm = true) :
    readFields .cffpr (cffprForm o oe rc rt frb cvm it) =
      .ok (instrOf .cffpr rt frb it cvm oe rc) := by
  have hoe : (BitVec.ofBool oe ++ o.xoCffpr : BitVec 10).getMsbD 0 = oe := by
    rw [getMsbD_append_first, getMsbD_ofBool_zero]
  simp [readFields_eq, cffprForm, xForm_rc, hlegal, hoe]

/-- The operands of a legal instruction are read back from its encoding. -/
theorem readFields_encode (o : Opcodes) {i : Instr} (h : i.WellFormed) :
    readFields i.base (encode o i) = .ok i := by
  cases i with
  | cffpr rt frb cvm it => exact readFields_cffprForm o false false rt frb it h
  | cffprDot rt frb cvm it => exact readFields_cffprForm o false true rt frb it h
  | cffpro rt frb cvm it => exact readFields_cffprForm o true false rt frb it h
  | cffproDot rt frb cvm it => exact readFields_cffprForm o true true rt frb it h
  | _ => simp [Instr.base, encode, readFields, xForm_rc]

/-- Settles O1: the encoding has the key of its base, no reserved bit, and its operands are read back. -/
theorem decodeOfEncodeIsIdentity : Obligations.DecodeOfEncodeIsIdentity := by
  intro o policy i hdistinct hwf
  obtain ⟨hkey, hreserved⟩ := encodedKey i o
  exact decodeWord_eq_ok.2
    ⟨i.base, baseOf_of_mem_table hdistinct hkey, fun _ => hreserved, readFields_encode o hwf⟩

/-- Settles O3: `encode_instrOf` on the word of its own fields. -/
theorem decodedWordIsEncodingUpToReservedBits :
    Obligations.DecodedWordIsEncodingUpToReservedBits := by
  intro o policy w i hdecode
  obtain ⟨b, hbase, -, hread⟩ := decodeWord_eq_ok.1 hdecode
  obtain ⟨hinstr, rfl, hwf⟩ := readFields_eq_ok hread
  refine ⟨?_, hwf⟩
  have hword := word_eq_xForm w
  have hoe := getMsbD_fieldAt w (start := 21) (width := 10) (k := 0) (by decide) (by decide)
  have hencode := encode_instrOf (mem_table_of_baseOf hbase) (regAt w 6) (regAt w 16)
    (IntType.ofBits (fieldAt w 11 2)) (fieldAt w 13 3) (w.getMsbD 31)
  rwa [hoe, toBits_ofBits, ← hword, ← hinstr] at hencode

/-- Settles O2: by O3, with no reserved bit to clear, and back by O1. -/
theorem mustBeZeroDecodesExactlyTheEncodings :
    Obligations.MustBeZeroDecodesExactlyTheEncodings := by
  intro o w i hdistinct
  constructor
  · intro hdecode
    obtain ⟨hencode, hwf⟩ := decodedWordIsEncodingUpToReservedBits o .mustBeZero w i hdecode
    obtain ⟨b, -, hreserved, hread⟩ := decodeWord_eq_ok.1 hdecode
    obtain ⟨-, rfl, -⟩ := readFields_eq_ok hread
    exact ⟨hwf, hencode.trans (and_not_of_and_eq_zero (hreserved rfl))⟩
  · rintro ⟨hwf, rfl⟩
    exact decodeOfEncodeIsIdentity o .mustBeZero i hdistinct hwf

/-- Settles O4: the key and the operands are those of the word with its reserved bits cleared. -/
theorem ignoredReservedBitsHaveNoEffect : Obligations.IgnoredReservedBitsHaveNoEffect := by
  intro o w x b i hbase hdecode
  obtain ⟨b', hbase', -, hread⟩ := decodeWord_eq_ok.1 hdecode
  obtain rfl : b = b' := Option.some.inj (hbase.symm.trans hbase')
  have hkey : keyOf (w ^^^ (x &&& b.reservedMask)) = keyOf w := by
    rw [← keyOf_clearReserved _ b, clear_flip, keyOf_clearReserved]
  refine decodeWord_eq_ok.2 ⟨b, hkey ▸ hbase, nofun, ?_⟩
  rwa [← readFields_clearReserved, clear_flip, readFields_clearReserved]

end EncodeDecode

/-! ### The formats (spec/30_encoding.md R91 to R94) -/

section Formats

open Sys2Proof.Laws

/-- A field as the format tables give it: shifted to the right end and masked. -/
theorem toNat_shift_and (w mask : Word) {shift start width : Nat}
    (hmask : mask.toNat = 2 ^ width - 1) (hshift : shift = 32 - start - width) :
    ((w >>> shift) &&& mask).toNat = (fieldAt w start width).toNat := by
  rw [BitVec.toNat_and, BitVec.toNat_ushiftRight, hmask, Nat.and_two_pow_sub_one_eq_mod,
    Nat.shiftRight_eq_div_pow, toNat_fieldAt, hshift]

/-- A field of one bit. -/
theorem shift_and_one {w : Word} {shift start : Nat} {bit : Bool} (hshift : shift = 32 - start - 1)
    (h : fieldAt w start 1 = BitVec.ofBool bit) :
    (w >>> shift) &&& 1 = if bit then 1 else 0 := by
  apply BitVec.eq_of_toNat_eq
  rw [toNat_shift_and w 1 (width := 1) rfl hshift, h]
  cases bit <;> rfl

variable (po : BitVec 6) (t : Fin 32) (m : BitVec 5) (b : Fin 32) (xo : BitVec 10) (l : BitVec 1)

theorem fieldAt_xForm_last : fieldAt (xForm po t m b xo l) 31 1 = l :=
  fieldAt_append_right (po ++ regBits t ++ m ++ regBits b ++ xo) l

/-- `OE` is bit 21 (R94). -/
theorem fieldAt_xForm_oe (oe : BitVec 1) (low : BitVec 9) :
    fieldAt (xForm po t m b (oe ++ low) l) 21 1 = oe := by
  have hpart := fieldAt_fieldAt (xForm po t m b (oe ++ low) l) (start := 21) (width := 10)
    (first := 0) (count := 1) (by decide) (by decide)
  rw [← hpart, fieldAt_xForm_xo]
  exact fieldAt_append_left oe low

/-- `XO` of `cffpr[o][.]` is bits 22:30 (R94). -/
theorem fieldAt_xForm_xo_low (oe : BitVec 1) (low : BitVec 9) :
    fieldAt (xForm po t m b (oe ++ low) l) 22 9 = low := by
  have hpart := fieldAt_fieldAt (xForm po t m b (oe ++ low) l) (start := 21) (width := 10)
    (first := 1) (count := 9) (by decide) (by decide)
  rw [← hpart, fieldAt_xForm_xo]
  exact fieldAt_append_right oe low

/-! The fields that differ between the formats, as numbers. -/

theorem toNat_xForm_it (it : BitVec 2) (cvm : Cvm) :
    ((xForm po t (it ++ cvm) b xo l >>> 19) &&& 0x3).toNat = it.toNat := by
  rw [toNat_shift_and _ _ (start := 11) (width := 2) rfl rfl, fieldAt_xForm_it]

theorem toNat_xForm_cvm (it : BitVec 2) (cvm : Cvm) :
    ((xForm po t (it ++ cvm) b xo l >>> 16) &&& 0x7).toNat = cvm.toNat := by
  rw [toNat_shift_and _ _ (start := 13) (width := 3) rfl rfl, fieldAt_xForm_cvm]

theorem toNat_xForm_middle : ((xForm po t m b xo l >>> 16) &&& 0x1F).toNat = m.toNat := by
  rw [toNat_shift_and _ _ (start := 11) (width := 5) rfl rfl, fieldAt_xForm_middle]

theorem toNat_xForm_xo : ((xForm po t m b xo l >>> 1) &&& 0x3FF).toNat = xo.toNat := by
  rw [toNat_shift_and _ _ (start := 21) (width := 10) rfl rfl, fieldAt_xForm_xo]

theorem toNat_xForm_xo_low (oe : BitVec 1) (low : BitVec 9) :
    ((xForm po t m b (oe ++ low) l >>> 1) &&& 0x1FF).toNat = low.toNat := by
  rw [toNat_shift_and _ _ (start := 22) (width := 9) rfl rfl, fieldAt_xForm_xo_low]

/-- Settles O7: each shift and mask reads a field of the X-Form word. -/
theorem wordFieldsFollowTheFormats : Obligations.WordFieldsFollowTheFormats := by
  intro o rt rb frt frb cvm it ends move toFpr fromFpr
  have hends (po : BitVec 6) (t : Fin 32) (m : BitVec 5) (b : Fin 32) (xo : BitVec 10) (last : Bool) :
      ends (xForm po t m b xo (BitVec.ofBool last)) po t b last := by
    refine ⟨?_, ?_, ?_, ?_⟩
    · rw [toNat_shift_and _ _ (start := 0) (width := 6) rfl rfl, fieldAt_xForm_po]
    · rw [toNat_shift_and _ _ (start := 6) (width := 5) rfl rfl, fieldAt_xForm_target]
      rfl
    · rw [toNat_shift_and _ _ (start := 16) (width := 5) rfl rfl, fieldAt_xForm_source]
      rfl
    · exact shift_and_one (shift := 0) rfl (fieldAt_xForm_last po t m b xo _)
  have hmove (po : BitVec 6) (t b : Fin 32) (xo : BitVec 10) (last : Bool) :
      move (xForm po t 0 b xo (BitVec.ofBool last)) po t b xo last :=
    ⟨hends .., BitVec.eq_of_toNat_eq (toNat_xForm_middle ..), toNat_xForm_xo ..⟩
  have htoFpr (po : BitVec 6) (xo : BitVec 10) (rc : Bool) :
      toFpr (xForm po frt (it.toBits ++ 0#3) rb xo (BitVec.ofBool rc)) po xo rc :=
    ⟨hends .., toNat_xForm_it .., BitVec.eq_of_toNat_eq (toNat_xForm_cvm ..), toNat_xForm_xo ..⟩
  have hfromFpr (oe rc : Bool) : fromFpr (cffprForm o oe rc rt frb cvm it) oe rc :=
    ⟨hends .., toNat_xForm_it .., toNat_xForm_cvm .., shift_and_one rfl (fieldAt_xForm_oe ..),
      toNat_xForm_xo_low ..⟩
  exact ⟨hmove _ rt frb _ false, hmove _ rt frb _ true, hmove _ rt frb _ false,
    hmove _ rt frb _ true, hmove _ frt rb _ false, hmove _ frt rb _ false, htoFpr _ _ false,
    htoFpr _ _ true, htoFpr _ _ false, htoFpr _ _ true, hfromFpr false false, hfromFpr false true,
    hfromFpr true false, hfromFpr true true⟩

/-- Settles O8: each word is decoded by evaluation. -/
theorem decodesTheWordsOfAssignmentT : Obligations.DecodesTheWordsOfAssignmentT := by
  refine ⟨?_, ?_, ?_, ?_, ?_, ?_, ?_, ?_⟩ <;> decide

end Formats

/-! ### Words that do not decode (spec/60_exceptions.md R191, R192) -/

section Undecoded

/-- A fetched word that the decoder rejects ends the step with the rejection. -/
theorem step_of_rejected {s : State} {w : Word} {e : DecodeReject} (haligned : s.cia.toNat % 4 = 0)
    (hword : s.fetchWord = some w)
    (hdecode : decodeWord s.params.opcodes s.params.reservedPolicy w = .error e) :
    step s = rejected s e := by
  simp only [step, if_neg (not_not_intro haligned), hword, hdecode]

/-- Settles O12: by O5 and O6, what the decoder answers. -/
theorem undecodedWordsFaultByName : Obligations.UndecodedWordsFaultByName := by
  refine fun s w haligned hword => ⟨fun hkey => ?_, fun b hbase hpolicy hreserved => ?_⟩
  · exact step_of_rejected haligned hword ((outOfScopeExactlyWithoutKey _ _ w).2 hkey)
  · exact step_of_rejected haligned hword
      ((illegalExactlyByCvmOrReservedBits _ _ w).2 ⟨b, hbase, .inr ⟨hpolicy, hreserved⟩⟩)

end Undecoded

/-! ### The 64-bit moves (spec/40_move_fpr.md R121, R122, R126) -/

section CopyingMoves

open Sys2Proof.Laws

/-- A legal instruction without floating point is `FPUnavailable` (R121, spec/60_exceptions.md R193). -/
theorem exec_of_unavailable {i : Instr} {s : State} (hwf : i.WellFormed)
    (hfp : s.params.fpAvailable = false) : exec i s = .fault (.fpUnavailable s.cia) := by
  rw [exec_eq, if_pos hwf]
  exact whenFpAvailable_eq_fault.2 (.inr ⟨hfp, rfl⟩)

/-- The field of a register number holds the number (spec/30_encoding.md R95). -/
theorem regBits_eq_ofNat (r : Fin 32) : regBits r = BitVec.ofNat 5 r :=
  BitVec.eq_of_toNat_eq (Nat.mod_eq_of_lt r.isLt).symm

/-- Settles O32: the next state is `mffpr`'s one write and the advance. -/
theorem mffprCopiesTheFpr : Obligations.MffprCopiesTheFpr := by
  refine fun rt frb s => ⟨fun hfp => ?_, exec_of_unavailable rfl, fun o => ?_⟩
  · exact exec_eq_next.2 ⟨rfl, hfp, by simp [enabledBy], rfl⟩
  · rw [encode, xForm, regBits_eq_ofNat, regBits_eq_ofNat]
    rfl

/-- Settles O36: the next state is `mtfpr`'s one write and the advance. -/
theorem mtfprCopiesTheGpr : Obligations.MtfprCopiesTheGpr := by
  refine fun frt rb s => ⟨fun hfp => ?_, exec_of_unavailable rfl, fun o => ?_⟩
  · exact exec_eq_next.2 ⟨rfl, hfp, by simp [enabledBy], rfl⟩
  · rw [encode, xForm, regBits_eq_ofNat, regBits_eq_ofNat]
    rfl

end CopyingMoves

end Sys2Proof.Proofs

namespace Sys2Proof.Proofs

open Sys2Proof.Machine

/-! ### Which instructions complete (spec/60_exceptions.md R193, R194, R202) -/

section Completion

open Sys2Proof.Laws

/-- Without traps a legal instruction with floating point makes its updates and advances `CIA`. -/
theorem exec_of_ignored {i : Instr} {s : State} (hwf : i.WellFormed)
    (hfp : s.params.fpAvailable = true) (hmode : s.params.feMode = .ignored) :
    exec i s = .next (updated i s).advance := by
  have no_trap : ¬(enabledBy i s = true ∧ (updated i s).params.feMode = .trap) := by
    simp [hmode]
  exact exec_eq_next.2 ⟨hwf, hfp, no_trap, rfl⟩

/-- `CIA` after an instruction's updates and the advance (spec/10_state.md R44). -/
theorem updated_advance_cia (i : Instr) (s : State) : (updated i s).advance.cia = s.cia + 4 := by
  rw [advance_cia, updated_cia]

/-- Settles O27: by `exec_of_ignored`, whose state is at `CIA + 4`. -/
theorem legalInstructionsComplete : Obligations.LegalInstructionsComplete :=
  fun i _ hwf hfp hmode => ⟨_, exec_of_ignored hwf hfp hmode, updated_advance_cia i _⟩

/-- Settles O15: `exec_of_unavailable`, and the state at an `FPUnavailable` is the one before. -/
theorem everyInstructionNeedsFloatingPoint : Obligations.EveryInstructionNeedsFloatingPoint :=
  fun _ _ hwf hfp => ⟨exec_of_unavailable hwf hfp, rfl⟩

end Completion

end Sys2Proof.Proofs

namespace Sys2Proof.Proofs

open Sys2Proof.Machine

/-! ### Where a trap comes from (spec/60_exceptions.md R194) -/

section Traps

open Sys2Proof.Laws

/-- A trap is the instruction's own `fp_enabled`, in the state with its updates made. -/
theorem exec_eq_trap {i : Instr} {s after : State} {c : Dword}
    (h : exec i s = .fault (.fpEnabledException c after)) :
    after = updated i s ∧ enabledBy i s = true ∧ s.params.feMode = .trap := by
  rcases exec_eq_fault h with ⟨hf, -⟩ | ⟨hf, -⟩ | ⟨hf, -, -, henabled, hmode⟩
  · cases hf
  · cases hf
  · rw [updated_params] at hmode
    exact ⟨(Fault.fpEnabledException.inj hf).2, henabled, hmode⟩

/-- An enabled invalid conversion shows in `FEX`. -/
theorem fex_of_enabled_vxcvi {f : FPSCR} (hvxcvi : f.vxcvi = true) (hve : f.ve = true) :
    f.fex = true := by
  simp [FPSCR.fex, FPSCR.vx, hvxcvi, hve]

/-- A trap of `ctfpr[s][.]`, `FPSCR` going from `f` to `g`: the rounding `x` is
inexact and `XE` set. -/
def InexactTrap (f g : FPSCR) (x : RoundedBfp) : Prop :=
  f.xe = true ∧ g.xx = true ∧ g.fi = true ∧ x.xx = true

theorem roundedFpscr_trap {f : FPSCR} {x : RoundedBfp} (n : Int) (h : (x.xx && f.xe) = true) :
    (roundedFpscr f n x).fex = true ∧ InexactTrap f (roundedFpscr f n x) x := by
  obtain ⟨hinexact, hxe⟩ := Bool.and_eq_true_iff.1 h
  have hxx : (roundedFpscr f n x).xx = true := by
    simp [roundedFpscr, FPSCR.withExceptions, hinexact]
  exact ⟨fex_of_enabled_xx hxx hxe, hxe, hxx, hinexact, hinexact⟩

theorem convertToBfp64_trap {it : IntType} {v : Dword} {f : FPSCR}
    (h : (convertToBfp64 it v f).fpEnabled = true) :
    (convertToBfp64 it v f).fpscr.fex = true ∧ (it = .d ∨ it = .ud) ∧
      InexactTrap f (convertToBfp64 it v f).fpscr
        (roundToPrecision 53 (RoundMode.ofRN f.rn) (BfpFinite.ofInt (operandInt it v))) := by
  cases it with
  | w | uw =>
    rw [convertToBfp64_of_narrow (by decide)] at h
    cases h
  | d | ud =>
    rw [convertToBfp64_eq (by decide) v f rfl] at h ⊢
    obtain ⟨hfex, htrap⟩ := roundedFpscr_trap _ h
    exact ⟨hfex, by decide, htrap⟩

theorem convertToBfp32_trap {it : IntType} {v : Dword} {f : FPSCR}
    (h : (convertToBfp32 it v f).fpEnabled = true) :
    (convertToBfp32 it v f).fpscr.fex = true ∧
      InexactTrap f (convertToBfp32 it v f).fpscr
        (roundToPrecision 24 (RoundMode.ofRN f.rn) (BfpFinite.ofInt (operandInt it v))) := by
  rw [convertToBfp32_eq it v f rfl] at h ⊢
  exact roundedFpscr_trap _ h

/-- A trap of `cffpr[o][.]`, `FPSCR` going from `f` to `g`: the conversion `c` is
invalid and `VE` set, or it is inexact and `XE` set. -/
def ConversionTrap (f g : FPSCR) (c : FromFpr) : Prop :=
  f.ve = true ∧ c.overflow = true ∧ g.vxcvi = true ∨
    f.xe = true ∧ c.xx = true ∧ g.xx = true ∧ g.fi = true

/-- `FPSCR` after a conversion whose result is withheld (spec/42_convert_from_fpr.md R170). -/
theorem applyFromFpr_fpscr_of_vex {s : State} {c : FromFpr} (rt : GprNum)
    (h : c.vex s.fpscr = true) :
    (s.applyFromFpr rt c).fpscr =
      { s.fpscr.withExceptions c.vxsnan c.vxcvi c.xx with fr := false, fi := false } := by
  rw [State.applyFromFpr, if_pos h, setExceptions_eq]
  rfl

/-- The two disjuncts of `fp_enabled`; an invalid operation is always a `VXCVI`. -/
theorem applyFromFpr_trap {s : State} {c : FromFpr} (rt : GprNum) (hvx : c.vx = c.overflow)
    (hcvi : c.vxcvi = c.overflow) (h : c.fpEnabled s.fpscr = true) :
    (s.applyFromFpr rt c).fpscr.fex = true ∧
      ConversionTrap s.fpscr (s.applyFromFpr rt c).fpscr c := by
  cases hvex : c.vex s.fpscr with
  | true =>
    obtain ⟨hve, hinvalid⟩ := Bool.and_eq_true_iff.1 hvex
    rw [hvx] at hinvalid
    have hset : (s.applyFromFpr rt c).fpscr.vxcvi = true := by
      simp [applyFromFpr_fpscr_of_vex rt hvex, FPSCR.withExceptions, hcvi, hinvalid]
    have hve' : (s.applyFromFpr rt c).fpscr.ve = true := by
      rw [applyFromFpr_fpscr_of_vex rt hvex]
      exact hve
    exact ⟨fex_of_enabled_vxcvi hset hve', .inl ⟨hve, hinvalid, hset⟩⟩
  | false =>
    rw [FromFpr.fpEnabled, hvex, Bool.false_or] at h
    obtain ⟨hinexact, hxe⟩ := Bool.and_eq_true_iff.1 h
    have hset : (writtenFpscr s c).xx = true := by
      simp [writtenFpscr, FPSCR.withExceptions, hinexact]
    rw [applyFromFpr_of_not_vex rt hvex]
    exact ⟨fex_of_enabled_xx hset hxe, .inr ⟨hxe, hinexact, hset, hinexact⟩⟩

theorem cffprUpdated_trap {frb : FprNum} {cvm : Cvm} {it : IntType} {s : State} (oe rc : Bool)
    (rt : GprNum) (h : (fromFprOf s frb cvm it).fpEnabled s.fpscr = true) :
    (cffprUpdated oe rc rt frb cvm it s).fpscr.fex = true ∧
      ConversionTrap s.fpscr (cffprUpdated oe rc rt frb cvm it s).fpscr
        (fromFprOf s frb cvm it) := by
  obtain ⟨-, -, -, -, -, hfpscr⟩ := cffprUpdated_frame oe rc rt frb cvm it s
  rw [hfpscr]
  exact applyFromFpr_trap rt (convertFromBfp64_vx ..) rfl h

/-- Settles O29: `fp_enabled` of each instruction, and what its conversion records in `FPSCR`. -/
theorem trapsComeFromOwnEnabledExceptions : Obligations.TrapsComeFromOwnEnabledExceptions := by
  intro i s after c h
  obtain ⟨rfl, henabled, hmode⟩ := exec_eq_trap h
  refine ⟨hmode, ?_⟩
  cases i with
  | mffpr | mffprDot | mffprs | mffprsDot | mtfpr | mtfprs =>
    exact absurd henabled Bool.false_ne_true
  | ctfpr | ctfprDot => exact convertToBfp64_trap henabled
  | ctfprs | ctfprsDot => exact convertToBfp32_trap henabled
  | cffpr | cffprDot | cffpro | cffproDot => exact cffprUpdated_trap _ _ _ henabled

end Traps

end Sys2Proof.Proofs

namespace Sys2Proof.Proofs

open Sys2Proof.Machine

/-! ### An integer of the type, converted back (spec/42_convert_from_fpr.md R164 to R169) -/

section IntegersBack

open Sys2Proof.Laws

/-- The range of a type (spec/42_convert_from_fpr.md R163). -/
def InRange (it : IntType) (n : Int) : Prop := typeMin it ≤ n ∧ n ≤ typeMax it

theorem operandInt_inRange (it : IntType) (v : Dword) : InRange it (operandInt it v) := by
  cases it
  all_goals
    simp only [InRange, typeMin, typeMax, operandInt, BitVec.toInt_eq_toNat_cond,
      BitVec.toNat_setWidth]
    omega

theorem InRange.natAbs_le {it : IntType} {n : Int} (h : InRange it n) : n.natAbs ≤ 2 ^ 64 := by
  obtain ⟨hmin, hmax⟩ := h
  cases it
  all_goals
    simp only [typeMin, typeMax] at hmin hmax
    omega

/-! Patterns of integers: the low bits of a pattern are those of the integer. -/

theorem setWidth_ofInt {m k : Nat} (h : m ≤ k) (n : Int) :
    (BitVec.ofInt k n).setWidth m = BitVec.ofInt m n := by
  have hdvd : ((2 ^ m : Nat) : Int) ∣ ((2 ^ k : Nat) : Int) :=
    Int.natCast_dvd_natCast.2 (Nat.pow_dvd_pow 2 h)
  have hnonneg := Int.emod_nonneg n (show ((2 ^ k : Nat) : Int) ≠ 0 by positivity)
  apply BitVec.eq_of_toNat_eq
  rw [BitVec.toNat_setWidth, BitVec.toNat_ofInt, BitVec.toNat_ofInt,
    ← Int.emod_emod_of_dvd n hdvd, Int.toNat_emod hnonneg (Int.natCast_nonneg _), Int.toNat_natCast]

theorem setWidth_signExtend (w : Word) : (w.signExtend 64).setWidth 32 = w := by
  ext i hi
  rw [BitVec.getElem_setWidth, BitVec.getLsbD_signExtend]
  simp [hi, show i < 64 by omega]

/-- The narrowing keeps the low bits of the integer (spec/42_convert_from_fpr.md R168). -/
theorem narrowResult_ofInt (it : IntType) (n : Int) :
    narrowResult it (BitVec.ofInt 64 n) = typePattern it n := by
  cases it with
  | w | uw =>
    rw [narrowResult, typePattern, fieldAt_low_word, setWidth_ofInt (by decide)]
  | d | ud => rfl

/-- The mask of E-Type keeps every bit that the narrowing reads. -/
theorem narrowResult_and_jsMask (it : IntType) (v : Dword) :
    narrowResult it (v &&& jsMask it) = narrowResult it v := by
  cases it with
  | w | uw =>
    have hmask : BitVec.setWidth 32 (0x00000000FFFFFFFF : Dword) = BitVec.allOnes 32 := by decide
    simp only [narrowResult, jsMask, fieldAt_low_word, BitVec.setWidth_and, hmask,
      BitVec.and_allOnes]
  | d | ud => exact BitVec.and_allOnes

/-- An integer of the type is the one its pattern denotes. -/
theorem resultBfp_typePattern {it : IntType} {n : Int} (h : InRange it n) :
    resultBfp it (typePattern it n) = BfpFinite.ofInt n := by
  obtain ⟨hmin, hmax⟩ := h
  cases it <;> simp only [typeMin, typeMax] at hmin hmax
  case w =>
    rw [resultBfp, typePattern, fieldAt_low_word, setWidth_signExtend, bfpConvertFromSI32,
      BitVec.toInt_ofInt_eq_self (by decide) hmin (by omega)]
  case uw =>
    rw [resultBfp, typePattern, fieldAt_low_word, BitVec.setWidth_setWidth_of_le _ (by decide),
      BitVec.setWidth_eq, bfpConvertFromUI32, BitVec.toNat_ofInt]
    congr 1
    omega
  case d =>
    rw [resultBfp, typePattern, bfpConvertFromSI64,
      BitVec.toInt_ofInt_eq_self (by decide) hmin (by omega)]
  case ud =>
    rw [resultBfp, typePattern, bfpConvertFromUI64, BitVec.toNat_ofInt]
    congr 1
    omega

/-! The working format: an integer is a fixed point of every rounding. -/

theorem roundToInteger_ofInt (mode : RoundMode) (n : Int) :
    roundToInteger mode (.fin (BfpFinite.ofInt n)) = .fin (BfpFinite.ofInt n) := by
  have hpos := unitsPerOne_int_pos
  have hnear : integerNear mode (n * unitsPerOne) = n := by
    cases mode with
    | towardZero => exact Int.mul_tdiv_cancel _ hpos.ne'
    | towardNegInf => exact Int.mul_ediv_cancel _ hpos.ne'
    | towardPosInf =>
      simp only [integerNear]
      rw [← Int.neg_mul, Int.mul_ediv_cancel _ hpos.ne', neg_neg]
    | nearestEven =>
      simp only [integerNear]
      rw [Int.mul_ediv_cancel _ hpos.ne', Int.mul_emod_left, if_pos (by omega)]
  rw [roundToInteger, ofInt_signedUnits, hnear]
  rfl

theorem bfpAbsolute_ofInt (n : Int) :
    bfpAbsolute (.fin (BfpFinite.ofInt n)) = .fin (BfpFinite.ofInt n.natAbs) := by
  simp [bfpAbsolute, BfpFinite.ofInt, Int.natAbs_abs]

/-- P-Type and S-Type of an integer of the type do not saturate. -/
theorem saturated_of_inRange {it : IntType} {n : Int} (nanResult : Dword) (h : InRange it n) :
    saturated nanResult it (.fin (BfpFinite.ofInt n)) = BitVec.ofInt 64 n := by
  obtain ⟨hmin, hmax⟩ := h
  simp only [saturated, rangeMin_eq, rangeMax_eq, compareGt_fin, compareLt_fin, ofInt_signedUnits,
    mul_unitsPerOne_lt, decide_eq_true_eq, hmin.not_gt, hmax.not_gt, if_false]
  cases it with
  | w | d => rw [si64ConvertFromBfp, ofInt_toInt]
  | uw | ud => rw [ui64ConvertFromBfp, ofInt_toInt]

/-- E-Type of an integer of the type keeps its low bits. -/
theorem eTypeResult_of_inRange {it : IntType} {n : Int} (h : InRange it n) :
    eTypeResult it (.fin (BfpFinite.ofInt n)) = BitVec.ofInt 64 n &&& jsMask it := by
  have hn := h.natAbs_le
  have hlimit : bfpConvertFromUI128 (BitVec.allOnes 128) = BfpFinite.ofInt (2 ^ 128 - 1) := rfl
  have hsmall : ¬((2 ^ 128 - 1 : Int) < n.natAbs) := by omega
  have hlow : fieldAt (BitVec.ofInt 128 n) 64 64 = BitVec.ofInt 64 n := by
    rw [fieldAt_eq_setWidth]
    exact (congrArg _ (BitVec.ushiftRight_zero _)).trans (setWidth_ofInt (by decide) n)
  simp only [eTypeResult, bfpAbsolute_ofInt, hlimit, compareGt_fin, ofInt_signedUnits,
    mul_unitsPerOne_lt, hsmall, decide_false, Bool.false_eq_true, if_false, si128ConvertFromBfp,
    ofInt_toInt, hlow]

/-- The final result of every conversion type (spec/42_convert_from_fpr.md R164 to R168). -/
theorem narrowResult_convertedResult (cvm : Cvm) {it : IntType} {n : Int} (h : InRange it n) :
    narrowResult it (convertedResult cvm it (.fin (BfpFinite.ofInt n))) = typePattern it n := by
  rw [convertedResult]
  cases convTypeOf cvm with
  | pType | sType => exact (congrArg _ (saturated_of_inRange _ h)).trans (narrowResult_ofInt it n)
  | eType => simp only [eTypeResult_of_inRange h, narrowResult_and_jsMask, narrowResult_ofInt]

/-- A conversion that gives `v` and raises no flag. -/
def flagless (v : Dword) : FromFpr := ⟨v, false, false, false, false, false⟩

/-- An integer of the type converts to its pattern (spec/42_convert_from_fpr.md R169). -/
theorem convertFromBfp64_of_inRange (cvm : Cvm) {it : IntType} (rn : BitVec 2) {frb : Dword}
    {n : Int} (h : InRange it n) (hfrb : bfpConvertFromBfp64 frb = .fin (BfpFinite.ofInt n)) :
    convertFromBfp64 cvm it rn frb = flagless (typePattern it n) := by
  simp [flagless, convertFromBfp64, hfrb, roundSource_eq, roundToInteger_ofInt,
    narrowResult_convertedResult cvm h, resultBfp_typePattern h, isNaN, isSNaN, bfpAbsolute_ofInt]

/-- `cffpr` of an FPR that holds an integer of the type never traps. -/
theorem exec_cffpr_of_inRange {rt : GprNum} {frb : FprNum} {cvm : Cvm} {it : IntType} {s : State}
    {n : Int} (hfp : s.params.fpAvailable = true) (hcvm : cvm.toNat ≤ 5) (h : InRange it n)
    (hfrb : bfpConvertFromBfp64 (s.readFpr frb) = .fin (BfpFinite.ofInt n)) :
    exec (.cffpr rt frb cvm it) s =
      .next { cffprWritten false false rt (flagless (typePattern it n)) s with
        cia := s.cia + 4 } := by
  have hc : fromFprOf s frb cvm it = flagless (typePattern it n) :=
    convertFromBfp64_of_inRange cvm s.fpscr.rn h hfrb
  have hvalid : (fromFprOf s frb cvm it).overflow = false := congrArg FromFpr.overflow hc
  have hexact : (fromFprOf s frb cvm it).xx = false := congrArg FromFpr.xx hc
  rw [← hc]
  exact (cffpr_outcomes false false rt hfp hcvm (.inr hvalid)).1 (.inr (.inl hexact))

/-- A conversion without a flag clears `FR` and `FI` and changes no sticky bit. -/
theorem writtenFpscr_flagless (s : State) (v : Dword) :
    writtenFpscr s (flagless v) =
      { s.fpscr with fprf := Config.draw 5 s.draws, fr := false, fi := false } := by
  simp [writtenFpscr, flagless, FPSCR.withExceptions]

/-- `ctfpr` of a 32-bit type puts the integer into the FPR and leaves `FPSCR` (R141). -/
theorem exec_ctfpr_of_narrow {f : FprNum} {rb : GprNum} {it : IntType} {s : State}
    (hfp : s.params.fpAvailable = true) (hit : it = .w ∨ it = .uw) :
    ∃ t, exec (.ctfpr f rb it) s = .next t ∧ t.params = s.params ∧ t.fpscr = s.fpscr ∧
      bfpConvertFromBfp64 (t.readFpr f) =
        .fin (BfpFinite.ofInt (operandInt it (s.readGpr rb))) := by
  obtain ⟨hto, -, hvalue⟩ := ctfprOfThirtyTwoBitsIsExact f rb it s hfp hit
  have hread := readFpr_writeFpr_same s f
    (bfp64ConvertFromBfp (BfpFinite.ofInt (operandInt it s.gpr[rb])))
  exact ⟨_, hto, rfl, rfl, (congrArg bfpConvertFromBfp64 hread).trans hvalue⟩

/-- Settles O59: `ctfpr` puts an integer of the type into the FPR, and `cffpr` returns it. -/
theorem thirtyTwoBitIntegersRoundTrip : Obligations.ThirtyTwoBitIntegersRoundTrip := by
  intro f rb rt cvm it s hfp hcvm hit
  obtain ⟨t, hto, hparams, hfpscr, hvalue⟩ := exec_ctfpr_of_narrow (f := f) (rb := rb) hfp hit
  have hback := exec_cffpr_of_inRange (rt := rt) (hparams ▸ hfp) hcvm
    (operandInt_inRange it _) hvalue
  refine ⟨t, _, hto, hback, readGpr_writeGpr_same t rt _, ?_⟩
  rw [← hfpscr]
  simp only [cffprWritten, written, writtenFpscr_flagless, and_self]

end IntegersBack

end Sys2Proof.Proofs

namespace Sys2Proof.Proofs

open Sys2Proof.Machine

/-! ### Illegal `CVM` (spec/42_convert_from_fpr.md R160, R161) -/

section IllegalCvm

open Sys2Proof.Laws

/-- The check of the operands comes first (spec/60_exceptions.md R198). -/
theorem exec_of_illegal {i : Instr} (s : State) (h : i.wf = false) :
    exec i s = .fault (.illegalInstruction (encode s.params.opcodes i)) := by
  rw [exec_eq, if_neg (Bool.eq_false_iff.1 h)]

/-- Settles O14: by `exec_of_illegal`, the four have the legality of their `CVM`. -/
theorem illegalCvmFaultsInTheMeanings : Obligations.IllegalCvmFaultsInTheMeanings := by
  intro rt frb cvm it s hcvm
  have h : Cvm.legal cvm = false := legal_eq_false.2 hcvm
  exact ⟨exec_of_illegal s h, exec_of_illegal s h, exec_of_illegal s h, exec_of_illegal s h⟩

/-- The type of a legal conversion is the upper two bits of `CVM` (spec/30_encoding.md R98). -/
theorem convTypeOf_eq {cvm : Cvm} (h : cvm.toNat ≤ 5) :
    convTypeOf cvm =
      if cvm.toNat / 2 = 0 then .pType else if cvm.toNat / 2 = 2 then .eType else .sType := by
  revert cvm
  decide

/-- Settles O13: by O6 the decoder rejects the word, whatever the policy says of reserved bits. -/
theorem cvmSixAndSevenAreIllegal : Obligations.CvmSixAndSevenAreIllegal := by
  refine ⟨fun s w haligned hword hbase hcvm => ⟨?_, rfl⟩, by decide⟩
  exact step_of_rejected haligned hword
    ((illegalExactlyByCvmOrReservedBits _ _ w).2 ⟨.cffpr, hbase, .inl ⟨rfl, hcvm⟩⟩)

end IllegalCvm

/-! ### The exception bits in scope (spec/60_exceptions.md R196) -/

section ScopeOfExceptions

/-- Recording exceptions changes no other exception bit than `XX`, `VXSNAN` and `VXCVI`. -/
theorem FpscrUpdate.inScope {f g : FPSCR} (h : FpscrUpdate f g) {b : FpException}
    (hb : g.exception b ≠ f.exception b) : b.inScope := by
  obtain ⟨snan, cvi, inexact, fprf, fr, fi, rfl⟩ := h
  cases b with
  | xx | vxsnan | vxcvi => decide
  | ox | ux | zx | vxisi | vxidi | vxzdz | vximz | vxvc | vxsoft | vxsqrt => exact absurd rfl hb

/-- Settles O25: all an instruction can make of `FPSCR` is an `FpscrUpdate`. -/
theorem onlyThreeExceptionsCanOccur : Obligations.OnlyThreeExceptionsCanOccur := by
  intro i s t b h hb
  rcases exec_after h with rfl | rfl | rfl
  · exact absurd rfl hb
  · exact (fpscrUpdate_updated i s).inScope hb
  · exact (fpscrUpdate_updated i s).inScope hb

end ScopeOfExceptions

/-! ### An enabled invalid operation of `cffpr` (spec/42_convert_from_fpr.md R170 to R172) -/

section WithheldResult

open Sys2Proof.Laws

/-- `FPSCR` after a conversion whose result is withheld (spec/60_exceptions.md R195). -/
def withheldFpscr (f : FPSCR) (c : FromFpr) : FPSCR :=
  { f.withExceptions c.vxsnan c.vxcvi c.xx with fr := false, fi := false }

/-- The state with every update of `cffpr[o][.]` made, its result withheld: `Rc` draws three bits
of `CR0` (R172). -/
def cffprWithheld (oe rc : Bool) (c : FromFpr) (s : State) : State :=
  let x := xerAfter oe s.xer c.overflow
  { s with
    fpscr := withheldFpscr s.fpscr c
    xer := x
    cr := if rc then { s.cr with cr0 := Config.draw 3 s.draws ++ BitVec.ofBool x.so } else s.cr
    draws := if rc then s.draws + 1 else s.draws }

theorem applyFromFpr_of_vex {s : State} {c : FromFpr} (rt : GprNum) (h : c.vex s.fpscr = true) :
    s.applyFromFpr rt c = s.writeFpscr (withheldFpscr s.fpscr c) := by
  simp only [State.applyFromFpr, h, setExceptions_eq]
  rfl

theorem cffprUpdated_of_vex {frb : FprNum} {cvm : Cvm} {it : IntType} {s : State} (oe rc : Bool)
    (rt : GprNum) (h : (fromFprOf s frb cvm it).vex s.fpscr = true) :
    cffprUpdated oe rc rt frb cvm it s = cffprWithheld oe rc (fromFprOf s frb cvm it) s := by
  dsimp only [cffprUpdated]
  rw [applyFromFpr_of_vex rt h, h, recordOverflow_if]
  cases rc <;> rfl

/-- What an enabled invalid operation is, by its flags. -/
structure InvalidEnabled (s : State) (c : FromFpr) : Prop where
  vex : c.vex s.fpscr = true
  vxcvi : c.vxcvi = true
  overflow : c.overflow = true
  xx : c.xx = false

/-- An invalid conversion is not inexact (spec/42_convert_from_fpr.md R169). -/
theorem convertFromBfp64_of_overflow {cvm : Cvm} {it : IntType} {rn : BitVec 2} {frb : Dword}
    (h : (convertFromBfp64 cvm it rn frb).overflow = true) :
    (convertFromBfp64 cvm it rn frb).xx = false ∧ (convertFromBfp64 cvm it rn frb).inc = false := by
  simp only [convertFromBfp64] at h ⊢
  simp only [h, Bool.not_true, Bool.false_and, and_self]

theorem invalidEnabled_of_overflow {s : State} {frb : FprNum} {cvm : Cvm} {it : IntType}
    (hve : s.fpscr.ve = true) (hoverflow : (fromFprOf s frb cvm it).overflow = true) :
    InvalidEnabled s (fromFprOf s frb cvm it) where
  vex := Bool.and_eq_true_iff.2 ⟨hve, (convertFromBfp64_vx ..).trans hoverflow⟩
  vxcvi := hoverflow
  overflow := hoverflow
  xx := (convertFromBfp64_of_overflow hoverflow).1

/-- The updates of the four mnemonics, and that they are enabled to trap. -/
theorem cffpr_withheld {s : State} {frb : FprNum} {cvm : Cvm} {it : IntType} (oe rc : Bool)
    (rt : GprNum) (hcvm : cvm.toNat ≤ 5) (h : InvalidEnabled s (fromFprOf s frb cvm it)) :
    (cffprInstr oe rc rt frb cvm it).WellFormed ∧
      enabledBy (cffprInstr oe rc rt frb cvm it) s = true ∧
      updated (cffprInstr oe rc rt frb cvm it) s =
        cffprWithheld oe rc (fromFprOf s frb cvm it) s := by
  obtain ⟨hwf, henabled, hupdated⟩ := cffprInstr_meaning oe rc rt frb cvm it s
  refine ⟨hwf.trans (legal_of_le hcvm), ?_, hupdated.trans (cffprUpdated_of_vex oe rc rt h.vex)⟩
  rw [henabled, FromFpr.fpEnabled, h.vex, Bool.true_or]

theorem withheldFpscr_of_invalid {s : State} {c : FromFpr} (h : InvalidEnabled s c) :
    withheldFpscr s.fpscr c =
      { s.fpscr.withExceptions c.vxsnan true false with fr := false, fi := false } := by
  rw [withheldFpscr, h.vxcvi, h.xx]

/-- Settles O54: without traps each mnemonic makes its updates and advances. -/
theorem cffprWithholdsTheResult : Obligations.CffprWithholdsTheResult := by
  intro rt frb cvm it s hfp hcvm hmode c hve hoverflow
  have hinvalid : InvalidEnabled s c := invalidEnabled_of_overflow hve hoverflow
  have h (oe rc : Bool) : exec (cffprInstr oe rc rt frb cvm it) s =
      .next (cffprWithheld oe rc c s).advance := by
    obtain ⟨hwf, -, hupdated⟩ := cffpr_withheld oe rc rt hcvm hinvalid
    rw [exec_of_ignored hwf hfp hmode, hupdated]
    rfl
  simp only [cffprWithheld, withheldFpscr_of_invalid hinvalid, hinvalid.overflow, xerAfter,
    Bool.or_true] at h
  exact ⟨h false false, h false true, h true false, h true true⟩

/-- An enabled instruction traps after its updates (spec/60_exceptions.md R194). -/
theorem exec_of_enabled {i : Instr} {s : State} (hwf : i.WellFormed)
    (hfp : s.params.fpAvailable = true) (henabled : enabledBy i s = true)
    (hmode : s.params.feMode = .trap) :
    exec i s = .fault (.fpEnabledException s.cia (updated i s)) := by
  rw [exec_eq, if_pos hwf, whenFpAvailable_of_available hfp]
  refine complete_eq_fault.2 ⟨⟨henabled, ?_⟩, ?_⟩
  · rw [updated_params, hmode]
  · rw [updated_cia]

/-- What the state at the trap of an invalid conversion holds. -/
theorem cffpr_trap_withheld {s : State} {frb : FprNum} {cvm : Cvm} {it : IntType} (oe rc : Bool)
    (rt : GprNum) (hfp : s.params.fpAvailable = true) (hcvm : cvm.toNat ≤ 5)
    (hmode : s.params.feMode = .trap) (hve : s.fpscr.ve = true)
    (h : InvalidEnabled s (fromFprOf s frb cvm it)) :
    ∃ after, exec (cffprInstr oe rc rt frb cvm it) s = .fault (.fpEnabledException s.cia after) ∧
      after.gpr = s.gpr ∧ after.fpscr.fprf = s.fpscr.fprf ∧ after.fpscr.vxcvi = true ∧
      after.fpscr.fr = false ∧ after.fpscr.fi = false ∧ after.fpscr.fex = true ∧
      after.cia = s.cia := by
  obtain ⟨hwf, henabled, hupdated⟩ := cffpr_withheld oe rc rt hcvm h
  have hexec := exec_of_enabled hwf hfp henabled hmode
  have hvxcvi : (withheldFpscr s.fpscr (fromFprOf s frb cvm it)).vxcvi = true := by
    rw [withheldFpscr_of_invalid h]
    exact Bool.or_true _
  rw [hupdated] at hexec
  exact ⟨_, hexec, rfl, rfl, hvxcvi, rfl, rfl, fex_of_enabled_vxcvi hvxcvi hve, rfl⟩

/-- Settles O55: `cffpr_trap_withheld` for each mnemonic. -/
theorem cffprTrapsOnEnabledInvalid : Obligations.CffprTrapsOnEnabledInvalid := by
  intro rt frb cvm it s hfp hcvm hmode hve hoverflow i hi
  have h := fun oe rc => cffpr_trap_withheld (it := it) oe rc rt hfp hcvm hmode hve
    (invalidEnabled_of_overflow hve hoverflow)
  simp only [List.mem_cons, List.not_mem_nil, or_false] at hi
  rcases hi with rfl | rfl | rfl | rfl
  · exact h false false
  · exact h false true
  · exact h true false
  · exact h true true

end WithheldResult

end Sys2Proof.Proofs

namespace Sys2Proof.Proofs

open Sys2Proof.Machine

/-! ### Rounding to an integral value is unique (spec/00_scope.md R20) -/

section NearestIntegers

open Sys2Proof.Laws

/-- Truncation rounds down from zero on, and up until zero. -/
theorem nearest_directed {r t : Int} (h : NearestInteger .towardZero r t) :
    (0 ≤ r → NearestInteger .towardNegInf r t) ∧ (r ≤ 0 → NearestInteger .towardPosInf r t) := by
  have hpos := unitsPerOne_int_pos
  have ⟨hle, hlt, _⟩ := h
  refine ⟨fun hr => ?_, fun hr => ?_⟩
  · have ht : 0 ≤ t * (unitsPerOne : Int) := mul_nonneg (nearest_nonneg h hr) hpos.le
    simp only [NearestInteger]
    omega
  · have ht : t * (unitsPerOne : Int) ≤ 0 :=
      mul_nonpos_of_nonpos_of_nonneg (nearest_nonpos h hr) hpos.le
    simp only [NearestInteger]
    omega

/-- A rounded value is less than one away from its source. -/
theorem nearest_close {mode : RoundMode} {r t : Int} (h : NearestInteger mode r t) :
    (t * unitsPerOne - r).natAbs < unitsPerOne := by
  have hpos := unitsPerOne_int_pos
  cases mode with
  | towardZero =>
    have hdirected := nearest_directed h
    simp only [NearestInteger] at hdirected
    omega
  | towardPosInf | towardNegInf | nearestEven =>
    simp only [NearestInteger] at h
    omega

theorem le_of_mul_unitsPerOne_lt {a b : Int}
    (h : a * (unitsPerOne : Int) < b * unitsPerOne + unitsPerOne) : a ≤ b := by
  rw [← add_one_mul, mul_unitsPerOne_lt] at h
  omega

theorem nearest_le {mode : RoundMode} {r a b : Int} (ha : NearestInteger mode r a)
    (hb : NearestInteger mode r b) : a ≤ b := by
  have hpos := unitsPerOne_int_pos
  cases mode with
  | towardZero =>
    have hda := nearest_directed ha
    have hdb := nearest_directed hb
    simp only [NearestInteger] at hda hdb
    exact le_of_mul_unitsPerOne_lt (by omega)
  | towardPosInf | towardNegInf =>
    simp only [NearestInteger] at ha hb
    exact le_of_mul_unitsPerOne_lt (by omega)
  | nearestEven =>
    simp only [NearestInteger] at ha hb
    by_contra hlt
    have hnext : a ≤ b + 1 := le_of_mul_unitsPerOne_lt (by rw [add_one_mul]; omega)
    obtain rfl : a = b + 1 := by omega
    rw [add_one_mul] at ha
    omega

/-- Only one integer is nearest; a tie goes to the even one of two neighbours. -/
theorem nearest_unique {mode : RoundMode} {r a b : Int} (ha : NearestInteger mode r a)
    (hb : NearestInteger mode r b) : a = b :=
  (nearest_le ha hb).antisymm (nearest_le hb ha)

/-- A finite value rounds to the integer nearest to it. -/
theorem roundToInteger_of_nearest {mode : RoundMode} {x : BfpFinite} {v : Int}
    (h : NearestInteger mode x.signedUnits v) :
    ∃ y, roundToInteger mode (.fin x) = .fin y ∧ y.signedUnits = v * unitsPerOne := by
  obtain ⟨t, hround, hnear, hneg, hnonneg⟩ := roundToIntegerIsNearest mode x
  obtain rfl := nearest_unique h hnear
  have hsign : (if x.neg then -(v.natAbs : Int) else v.natAbs) = v := by
    split
    · next hx => have := hneg hx; omega
    · next hx => have := hnonneg (Bool.eq_false_iff.2 hx); omega
  exact ⟨_, hround, by rw [mk_signedUnits, hsign]⟩

end NearestIntegers

/-! ### Integral values of the working format (spec/42_convert_from_fpr.md R163 to R168) -/

section IntegralValues

open Sys2Proof.Laws

variable {it : IntType} {x : BfpFinite} {v : Int}

/-! What a value that is an integer reads as, whatever the sign of its zero. -/

theorem toInt_of_integral (h : x.signedUnits = v * unitsPerOne) : x.toInt = v := by
  rw [BfpFinite.toInt, h, Int.mul_tdiv_cancel _ unitsPerOne_int_pos.ne']

theorem natAbs_signedUnits (x : BfpFinite) : x.signedUnits.natAbs = x.units := by
  rw [BfpFinite.signedUnits]
  split <;> simp

theorem mk_false_signedUnits (u : Nat) : (BfpFinite.mk false u).signedUnits = u := rfl

theorem units_of_integral (h : x.signedUnits = v * unitsPerOne) :
    x.units = v.natAbs * unitsPerOne := by
  rw [← natAbs_signedUnits, h, Int.natAbs_mul, Int.natAbs_natCast]

/-- The integer of the type that saturation gives for `v` (spec/42_convert_from_fpr.md R165). -/
def clamp (it : IntType) (v : Int) : Int :=
  if typeMax it < v then typeMax it else if v < typeMin it then typeMin it else v

theorem typeMin_le_typeMax (it : IntType) : typeMin it ≤ typeMax it := by
  cases it <;> decide

theorem typeMin_inRange (it : IntType) : InRange it (typeMin it) :=
  ⟨le_rfl, typeMin_le_typeMax it⟩

theorem typeMax_inRange (it : IntType) : InRange it (typeMax it) :=
  ⟨typeMin_le_typeMax it, le_rfl⟩

theorem zero_inRange (it : IntType) : InRange it 0 := by
  cases it <;> exact ⟨by decide, by decide⟩

theorem clamp_inRange (it : IntType) (v : Int) : InRange it (clamp it v) := by
  rw [clamp]
  split_ifs with hmax hmin
  · exact typeMax_inRange it
  · exact typeMin_inRange it
  · exact ⟨not_lt.1 hmin, not_lt.1 hmax⟩

theorem clamp_of_inRange (h : InRange it v) : clamp it v = v := by
  rw [clamp, if_neg h.2.not_gt, if_neg h.1.not_gt]

theorem clamp_of_gt (h : typeMax it < v) : clamp it v = typeMax it := if_pos h

theorem clamp_of_lt (h : v < typeMin it) : clamp it v = typeMin it := by
  rw [clamp, if_neg (h.trans_le (typeMin_le_typeMax it)).not_gt, if_pos h]

/-! The patterns of integers. -/

theorem si64_of_ofInt (n : Int) : si64ConvertFromBfp (BfpFinite.ofInt n) = BitVec.ofInt 64 n := by
  rw [si64ConvertFromBfp, ofInt_toInt]

theorem ui64_of_ofInt (n : Int) : ui64ConvertFromBfp (BfpFinite.ofInt n) = BitVec.ofInt 64 n := by
  rw [ui64ConvertFromBfp, ofInt_toInt]

/-- An integer of the type has its own pattern already: no narrowing is needed (R168). -/
theorem typePattern_of_inRange (h : InRange it v) : typePattern it v = BitVec.ofInt 64 v := by
  obtain ⟨hmin, hmax⟩ := h
  cases it <;> simp only [typeMin, typeMax] at hmin hmax
  case w =>
    rw [typePattern, BitVec.signExtend, BitVec.toInt_ofInt_eq_self (by decide) hmin (by omega)]
  case uw =>
    apply BitVec.eq_of_toNat_eq
    rw [typePattern, BitVec.toNat_setWidth, BitVec.toNat_ofInt, BitVec.toNat_ofInt]
    omega
  case d => rfl
  case ud => rfl

/-- Narrowing leaves the pattern of an integer of the type as it is (R168). -/
theorem narrowResult_of_inRange (h : InRange it v) :
    narrowResult it (BitVec.ofInt 64 v) = BitVec.ofInt 64 v :=
  (narrowResult_ofInt it v).trans (typePattern_of_inRange h)

/-! P-Type and S-Type (R165, R166). -/

/-- Saturation of an integral value. -/
theorem saturated_fin (nanResult : Dword) (h : x.signedUnits = v * unitsPerOne) :
    saturated nanResult it (.fin x) = BitVec.ofInt 64 (clamp it v) := by
  simp only [saturated, rangeMin_eq, rangeMax_eq, compareGt_fin, compareLt_fin, ofInt_signedUnits,
    h, mul_unitsPerOne_lt, decide_eq_true_eq, si64_of_ofInt, ui64_of_ofInt, clamp]
  split_ifs
  · rfl
  · rfl
  · cases it with
    | w | d => rw [si64ConvertFromBfp, toInt_of_integral h]
    | uw | ud => rw [ui64ConvertFromBfp, toInt_of_integral h]

theorem saturated_inf (nanResult : Dword) (it : IntType) (neg : Bool) :
    saturated nanResult it (.inf neg) =
      BitVec.ofInt 64 (if neg then typeMin it else typeMax it) := by
  rw [saturated, rangeMin_eq, rangeMax_eq, si64_of_ofInt, ui64_of_ofInt]
  cases neg <;> rfl

theorem saturated_of_isNaN (nanResult : Dword) (it : IntType) {rnd : Bfp} (h : isNaN rnd = true) :
    saturated nanResult it rnd = nanResult := by
  cases rnd with
  | fin | inf => cases h
  | qnan | snan => rfl

theorem pTypeResult_of_isNaN (it : IntType) {rnd : Bfp} (h : isNaN rnd = true) :
    pTypeResult it rnd = BitVec.ofInt 64 (typeMin it) := by
  rw [pTypeResult, saturated_of_isNaN _ it h, rangeMin_eq, si64_of_ofInt]

/-- P-Type and S-Type of a rounded source give an integer of the type, when the result of a NaN is
one. -/
theorem saturated_roundToInteger (it : IntType) (mode : RoundMode) (src : Bfp) {n : Int}
    (hn : InRange it n) :
    ∃ m, InRange it m ∧
      saturated (BitVec.ofInt 64 n) it (roundToInteger mode src) = BitVec.ofInt 64 m := by
  cases src with
  | fin x =>
    obtain ⟨y, hround, hy⟩ := roundToInteger_of_nearest (integerNear_nearest mode x.signedUnits)
    exact ⟨_, clamp_inRange it _, by rw [hround, saturated_fin _ hy]⟩
  | inf neg =>
    refine ⟨_, ?_, saturated_inf _ it neg⟩
    split
    · exact typeMin_inRange it
    · exact typeMax_inRange it
  | qnan | snan => exact ⟨n, hn, rfl⟩

/-! E-Type (R167). -/

theorem fieldAt_ofInt_low (n : Int) : fieldAt (BitVec.ofInt 128 n) 64 64 = BitVec.ofInt 64 n := by
  rw [fieldAt_eq_setWidth]
  exact (congrArg _ (BitVec.ushiftRight_zero _)).trans (setWidth_ofInt (by decide) n)

/-- E-Type keeps the low bits of an integral value; above 2^128 - 1 it gives 0, which is right where
the low bits are 0. -/
theorem narrowResult_eTypeResult (h : x.signedUnits = v * unitsPerOne)
    (hlarge : 2 ^ 128 ≤ v.natAbs → (2 ^ 64 : Int) ∣ v) :
    narrowResult it (eTypeResult it (.fin x)) = typePattern it v := by
  have hlimit : bfpConvertFromUI128 (BitVec.allOnes 128) = BfpFinite.ofInt (2 ^ 128 - 1) := rfl
  simp only [eTypeResult, bfpAbsolute, hlimit, compareGt_fin, ofInt_signedUnits,
    mk_false_signedUnits, units_of_integral h, Nat.cast_mul, mul_unitsPerOne_lt, decide_eq_true_eq]
  split
  · next hbig =>
    have hzero : BitVec.ofInt 64 v = 0 := by
      apply BitVec.eq_of_toNat_eq
      have hdvd := hlarge (by omega)
      rw [BitVec.toNat_ofInt, BitVec.ofNat_eq_ofNat, BitVec.toNat_zero]
      omega
    rw [← narrowResult_ofInt, hzero]
  · rw [si128ConvertFromBfp, toInt_of_integral h, fieldAt_ofInt_low, narrowResult_and_jsMask,
      narrowResult_ofInt]

end IntegralValues

/-! ### The tables of `result` and of the narrowing (spec/42_convert_from_fpr.md R165, R166, R168) -/

section ResultTables

open Sys2Proof.Laws

/-- Settles O57: saturation clamps to the range, whose ends have the patterns of the table. -/
theorem saturatingResultTables : Obligations.SaturatingResultTables := by
  intro it least greatest
  have hleast : least = BitVec.ofInt 64 (typeMin it) := by cases it <;> rfl
  have hgreatest : greatest = BitVec.ofInt 64 (typeMax it) := by cases it <;> rfl
  rw [hleast, hgreatest]
  refine ⟨fun rnd => ⟨rfl, rfl, rfl, rfl⟩, fun rnd hnan => ?_, fun rnd hnan => ?_,
    saturated_inf _ it false, saturated_inf _ it true, fun neg m => ?_⟩
  · exact ⟨pTypeResult_of_isNaN it hnan, saturated_of_isNaN 0 it hnan⟩
  · cases rnd with
    | fin | inf => rfl
    | qnan | snan => cases hnan
  · intro v rnd
    have hresult : pTypeResult it rnd = BitVec.ofInt 64 (clamp it v) :=
      saturated_fin _ (mk_signedUnits neg m)
    rw [hresult]
    exact ⟨fun h => by rw [clamp_of_gt h], fun h => by rw [clamp_of_lt h],
      fun hmin hmax => by rw [clamp_of_inRange ⟨hmin, hmax⟩]⟩

/-- Settles O58: P-Type and S-Type give integers of the type. -/
theorem narrowingTable : Obligations.NarrowingTable := by
  refine ⟨fun r => ?_, fun it mode src => ⟨?_, ?_, ?_⟩⟩
  · simp only [narrowResult, resultBfp, fieldAt_low_word, bfpConvertFromSI32, bfpConvertFromUI32,
      bfpConvertFromSI64, bfpConvertFromUI64, and_self]
  · obtain ⟨m, hm, hresult⟩ := saturated_roundToInteger it mode src (typeMin_inRange it)
    rw [pTypeResult, rangeMin_eq, si64_of_ofInt, hresult, narrowResult_of_inRange hm]
  · obtain ⟨m, hm, hresult⟩ := saturated_roundToInteger it mode src (zero_inRange it)
    have hs : sTypeResult it (roundToInteger mode src) = BitVec.ofInt 64 m := hresult
    rw [hs, narrowResult_of_inRange hm]
  · rw [narrowResult_eTypeResult (ofInt_signedUnits _) (by decide)]
    decide

end ResultTables

/-! ### The conversion of a finite source (spec/42_convert_from_fpr.md R169, R177) -/

section FiniteSources

open Sys2Proof.Laws

/-- A finite binary64 number has a significand of 53 bits (spec/00_scope.md R16). -/
theorem exists_significand_of_bfp64 {frb : Dword} {x : BfpFinite}
    (h : bfpConvertFromBfp64 frb = .fin x) : ∃ m k : Nat, m < 2 ^ 53 ∧ x.units = m * 2 ^ k := by
  have hm := (fieldAt frb 12 52).isLt
  rw [bfpConvertFromBfp64] at h
  split_ifs at h
  · cases h
    exact ⟨_, 0, hm.trans (by decide), (mul_one _).symm⟩
  · cases h
    exact ⟨_, _, by omega, rfl⟩

/-- Two multiples of the unit less than one apart are equal. -/
theorem eq_of_close {a b : Int}
    (h : (a * unitsPerOne - b * unitsPerOne).natAbs < unitsPerOne) : a = b := by
  rw [← sub_mul, Int.natAbs_mul, Int.natAbs_natCast] at h
  have hzero : (a - b).natAbs = 0 :=
    Nat.lt_one_iff.1 (Nat.lt_of_mul_lt_mul_right (h.trans_eq (one_mul _).symm))
  omega

/-- A source of at most 2^116 does not round to 2^128. -/
theorem rounding_lt_of_units_le {mode : RoundMode} {x : BfpFinite} {v : Int}
    (h : NearestInteger mode x.signedUnits v) (hx : x.units ≤ 2 ^ 116 * unitsPerOne) :
    v.natAbs < 2 ^ 128 := by
  have hclose := nearest_close h
  have habs := natAbs_signedUnits x
  have hmul : (v * unitsPerOne).natAbs = v.natAbs * unitsPerOne := by
    rw [Int.natAbs_mul, Int.natAbs_natCast]
  have hlt : v.natAbs * unitsPerOne < (2 ^ 116 + 1) * unitsPerOne := by omega
  have := Nat.lt_of_mul_lt_mul_right hlt
  omega

/-- Of a source whose rounding has more than 128 bits, the low 64 bits are 0. -/
theorem dvd_of_large_rounding {mode : RoundMode} {frb : Dword} {x : BfpFinite} {v : Int}
    (hfrb : bfpConvertFromBfp64 frb = .fin x) (h : NearestInteger mode x.signedUnits v)
    (hlarge : 2 ^ 128 ≤ v.natAbs) : (2 ^ 64 : Int) ∣ v := by
  obtain ⟨m, k, hm, hunits⟩ := exists_significand_of_bfp64 hfrb
  have hk : 64 + 1074 ≤ k := by
    by_contra hk
    refine absurd (rounding_lt_of_units_le h ?_) hlarge.not_gt
    have hpow : 2 ^ k ≤ 2 ^ 63 * unitsPerOne := by
      rw [unitsPerOne_eq, ← pow_add]
      exact pow_le_pow_right₀ one_le_two (by omega)
    calc x.units = m * 2 ^ k := hunits
      _ ≤ 2 ^ 53 * (2 ^ 63 * unitsPerOne) := Nat.mul_le_mul hm.le hpow
      _ = 2 ^ 116 * unitsPerOne := by rw [← mul_assoc, ← pow_add]
  have hdvd : ((2 ^ 64 * unitsPerOne : Nat) : Int) ∣ x.signedUnits := by
    rw [Int.natCast_dvd, natAbs_signedUnits, hunits, unitsPerOne_eq, ← pow_add]
    exact Dvd.dvd.mul_left (pow_dvd_pow 2 hk) m
  obtain ⟨c, hc⟩ := hdvd
  have hsource : x.signedUnits = 2 ^ 64 * c * unitsPerOne := by
    rw [hc, Nat.cast_mul, mul_right_comm]
    rfl
  have hclose := nearest_close h
  rw [hsource] at hclose
  exact ⟨c, eq_of_close hclose⟩

/-- The integer whose low bits `cffpr` gives for a source that rounds to `v`: E-Type, `CVM` 4 and
5, does not saturate (R167, R177). -/
def convertedInt (cvm : Cvm) (it : IntType) (v : Int) : Int :=
  if cvm.toNat / 2 = 2 then v else clamp it v

/-- `switch(CVM)` by the upper two bits of a legal `CVM` (spec/30_encoding.md R98). -/
theorem convertedResult_eq {cvm : Cvm} (it : IntType) (rnd : Bfp) (hcvm : cvm.toNat ≤ 5) :
    convertedResult cvm it rnd =
      if cvm.toNat / 2 = 2 then eTypeResult it rnd
      else saturated (if cvm.toNat / 2 = 0 then BitVec.ofInt 64 (typeMin it) else 0) it rnd := by
  have hmin := si64_of_ofInt (typeMin it)
  rw [convertedResult, convTypeOf_eq hcvm]
  by_cases hp : cvm.toNat / 2 = 0
  · rw [if_pos hp, if_neg (by omega), if_pos hp, ← hmin, ← rangeMin_eq]
    rfl
  · rw [if_neg hp, if_neg hp]
    split_ifs <;> rfl

theorem narrowResult_convertedResult_fin {cvm : Cvm} {it : IntType} {y : BfpFinite} {v : Int}
    (hcvm : cvm.toNat ≤ 5) (hy : y.signedUnits = v * unitsPerOne)
    (hlarge : 2 ^ 128 ≤ v.natAbs → (2 ^ 64 : Int) ∣ v) :
    narrowResult it (convertedResult cvm it (.fin y)) = typePattern it (convertedInt cvm it v) := by
  rw [convertedResult_eq it _ hcvm, convertedInt]
  split
  · exact narrowResult_eTypeResult hy hlarge
  · rw [saturated_fin _ hy, narrowResult_ofInt]

theorem narrowResult_zero (it : IntType) : narrowResult it 0 = 0 := by
  cases it <;> decide

/-- The final result for a NaN. -/
theorem narrowResult_convertedResult_of_isNaN {cvm : Cvm} (it : IntType) {rnd : Bfp}
    (hcvm : cvm.toNat ≤ 5) (hnan : isNaN rnd = true) :
    narrowResult it (convertedResult cvm it rnd) =
      if cvm.toNat / 2 = 0 then typePattern it (typeMin it) else 0 := by
  have heType : eTypeResult it rnd = 0 := by
    cases rnd with
    | fin | inf => cases hnan
    | qnan | snan => rfl
  rw [convertedResult_eq it _ hcvm, saturated_of_isNaN _ it hnan, heType]
  by_cases hp : cvm.toNat / 2 = 0
  · rw [if_neg (by omega), if_pos hp, if_pos hp, narrowResult_ofInt]
  · rw [if_neg hp, if_neg hp, ite_self, narrowResult_zero]

/-- The final result for an Infinity. -/
theorem narrowResult_convertedResult_inf {cvm : Cvm} (it : IntType) (neg : Bool)
    (hcvm : cvm.toNat ≤ 5) :
    narrowResult it (convertedResult cvm it (.inf neg)) =
      if cvm.toNat / 2 = 2 then 0 else typePattern it (if neg then typeMin it else typeMax it) := by
  rw [convertedResult_eq it _ hcvm, saturated_inf, apply_ite (narrowResult it), narrowResult_ofInt,
    eTypeResult, narrowResult_zero]

/-! The flags: the result, read back as an integer of the type, is compared with the rounded source. -/

theorem resultBfp_eq (it : IntType) (r : Dword) :
    resultBfp it r = BfpFinite.ofInt (operandInt it r) := by
  rw [← intSource_eq]
  cases it <;> rfl

theorem convertedInt_of_inRange (cvm : Cvm) {it : IntType} {v : Int} (h : InRange it v) :
    convertedInt cvm it v = v := by
  rw [convertedInt, clamp_of_inRange h, ite_self]

/-- `v` is beyond the range of the type. -/
def outOfRange (it : IntType) (v : Int) : Bool := decide (v < typeMin it ∨ typeMax it < v)

theorem outOfRange_eq_false {it : IntType} {v : Int} : outOfRange it v = false ↔ InRange it v := by
  rw [outOfRange, decide_eq_false_iff_not, not_or, not_lt, not_lt, InRange]

/-- The comparison behind `overflow`: no pattern denotes an integer beyond the range, and within it the
converted integer is `v`. -/
theorem compareEq_result {it : IntType} {y : BfpFinite} {v : Int} (cvm : Cvm)
    (hy : y.signedUnits = v * unitsPerOne) :
    bfpCompareEq (.fin y) (.fin (resultBfp it (typePattern it (convertedInt cvm it v)))) =
      !outOfRange it v := by
  cases hout : outOfRange it v with
  | false =>
    have hrange := outOfRange_eq_false.1 hout
    rw [convertedInt_of_inRange cvm hrange, resultBfp_typePattern hrange, compareEq_fin, hy,
      ofInt_signedUnits]
    exact decide_eq_true rfl
  | true =>
    rw [resultBfp_eq, compareEq_fin, hy, ofInt_signedUnits, Bool.not_true, decide_eq_false_iff_not,
      mul_unitsPerOne_inj]
    intro heq
    have hrange := operandInt_inRange it (typePattern it (convertedInt cvm it v))
    rw [← heq, ← outOfRange_eq_false, hout] at hrange
    cases hrange

/-- The conversion of the finite source `x` that rounds to `v` (R169, R177). -/
def finiteConversion (cvm : Cvm) (it : IntType) (x : BfpFinite) (v : Int) : FromFpr where
  result := typePattern it (convertedInt cvm it v)
  overflow := outOfRange it v
  vxsnan := false
  vxcvi := outOfRange it v
  xx := !outOfRange it v && decide (x.signedUnits ≠ v * unitsPerOne)
  inc := !outOfRange it v && decide (x.units < v.natAbs * unitsPerOne)

theorem convertFromBfp64_fin {cvm : Cvm} (it : IntType) {rn : BitVec 2} {frb : Dword}
    {x : BfpFinite} {v : Int} (hcvm : cvm.toNat ≤ 5) (hfrb : bfpConvertFromBfp64 frb = .fin x)
    (h : NearestInteger (conversionMode cvm rn) x.signedUnits v) :
    convertFromBfp64 cvm it rn frb = finiteConversion cvm it x v := by
  obtain ⟨y, hround, hy⟩ := roundToInteger_of_nearest h
  have hresult := narrowResult_convertedResult_fin (it := it) hcvm hy
    (dvd_of_large_rounding hfrb h)
  simp only [convertFromBfp64, hfrb, roundSource_eq, hround, hresult, isNaN, isSNaN, Bool.false_or,
    compareEq_result cvm hy, Bool.not_not, finiteConversion]
  cases hout : outOfRange it v with
  | true => simp only [Bool.not_true, Bool.false_and]
  | false =>
    have hrange := outOfRange_eq_false.1 hout
    have hunits := units_of_integral (ofInt_signedUnits v)
    simp only [convertedInt_of_inRange cvm hrange, resultBfp_typePattern hrange, compareEq_fin,
      bfpAbsolute, compareGt_fin, mk_false_signedUnits, ofInt_signedUnits, hunits, decide_not,
      Nat.cast_lt]

/-- Settles O51: a NaN or an Infinity is passed through the rounding, and `convertFromBfp64_fin` for a
finite source. -/
theorem cffprResultFollowsTheSummary : Obligations.CffprResultFollowsTheSummary := by
  intro cvm it rn frb hcvm c pType eType nan
  have hnan (h : isNaN (bfpConvertFromBfp64 frb) = true) : nan := by
    refine ⟨?_, ?_⟩
    · simp only [c, convertFromBfp64, h, Bool.true_or]
    · simp only [c, convertFromBfp64, roundSource_eq, roundToInteger_of_not_finite _ (.inl h)]
      exact narrowResult_convertedResult_of_isNaN it hcvm h
  split
  · next h => exact hnan (by rw [h]; rfl)
  · next h => exact hnan (by rw [h]; rfl)
  · next neg h =>
    refine ⟨?_, ?_⟩
    · simp only [c, convertFromBfp64, h, roundSource_eq]
      rfl
    · simp only [c, convertFromBfp64, h, roundSource_eq]
      exact narrowResult_convertedResult_inf it neg hcvm
  · next x h =>
    intro v hv
    have hc : c = finiteConversion cvm it x v := convertFromBfp64_fin it hcvm h hv
    rw [hc]
    refine ⟨fun ⟨hmin, hmax⟩ => ?_, fun hgt => ?_, fun hlt => ?_⟩
    · exact ⟨outOfRange_eq_false.2 ⟨hmin, hmax⟩,
        congrArg (typePattern it) (convertedInt_of_inRange cvm ⟨hmin, hmax⟩)⟩
    · exact ⟨decide_eq_true (.inr hgt), by rw [← clamp_of_gt hgt]; rfl⟩
    · exact ⟨decide_eq_true (.inl hlt), by rw [← clamp_of_lt hlt]; rfl⟩

/-- Settles O52: `overflow` clears the other flags, and `convertFromBfp64_fin` for a finite source. -/
theorem cffprFlagsInClosedForm : Obligations.CffprFlagsInClosedForm := by
  intro cvm it rn frb hcvm c
  refine ⟨rfl, ?_, convertFromBfp64_of_overflow, fun x v h hv => ?_⟩
  · have hsnan (src : Bfp) : isSNaN src = true ↔ src = .snan := by
      cases src <;> simp [isSNaN]
    exact hsnan _
  · have hc : c = finiteConversion cvm it x v := convertFromBfp64_fin it hcvm h hv
    rw [hc]
    refine ⟨rfl, fun hvalid => ?_⟩
    have hrange : outOfRange it v = false := hvalid
    simp only [finiteConversion, hrange, Bool.not_false, Bool.true_and, and_self]

end FiniteSources

end Sys2Proof.Proofs

namespace Sys2Proof.Proofs

open Sys2Proof.Machine

/-! ### `FE_MODE` and the updates of an instruction (spec/60_exceptions.md R194, R199)

The updates neither read nor write `FE_MODE`: making them commutes with setting it. -/

section FeModes

open Sys2Proof.Laws

variable (s : State) (m : FeMode)

theorem afterSingle_withFeMode (f : Dword) :
    afterSingle (s.withFeMode m) f = (afterSingle s f).withFeMode m := by
  rw [afterSingle_eq, afterSingle_eq]
  rfl

theorem applyFromFpr_withFeMode (rt : GprNum) (c : FromFpr) :
    (s.withFeMode m).applyFromFpr rt c = (s.applyFromFpr rt c).withFeMode m := by
  cases hvex : c.vex s.fpscr with
  | true =>
    rw [applyFromFpr_of_vex rt hvex, applyFromFpr_of_vex rt (s := s.withFeMode m) hvex]
    rfl
  | false =>
    rw [applyFromFpr_of_not_vex rt hvex, applyFromFpr_of_not_vex rt (s := s.withFeMode m) hvex]
    rfl

theorem recordOverflow_withFeMode (overflow : Bool) :
    (s.withFeMode m).recordOverflow overflow = (s.recordOverflow overflow).withFeMode m := rfl

theorem recordFromFpr_withFeMode (vex : Bool) (v : Dword) :
    (s.withFeMode m).recordFromFpr vex v = (s.recordFromFpr vex v).withFeMode m := by
  cases vex <;> rfl

theorem cffprUpdated_withFeMode (oe rc : Bool) (rt : GprNum) (frb : FprNum) (cvm : Cvm)
    (it : IntType) :
    cffprUpdated oe rc rt frb cvm it (s.withFeMode m) =
      (cffprUpdated oe rc rt frb cvm it s).withFeMode m := by
  have hconv : fromFprOf (s.withFeMode m) frb cvm it = fromFprOf s frb cvm it := rfl
  cases oe <;> cases rc <;>
    simp [cffprUpdated, hconv, applyFromFpr_withFeMode, recordOverflow_withFeMode,
      recordFromFpr_withFeMode]

theorem updated_withFeMode (i : Instr) :
    updated i (s.withFeMode m) = (updated i s).withFeMode m := by
  cases i with
  | mffpr | mffprDot | mtfpr | mtfprs => rfl
  | mffprs | mffprsDot =>
    simp only [updated, afterSingle_withFeMode]
    rfl
  | ctfpr | ctfprDot | ctfprs | ctfprsDot => rfl
  | cffpr | cffprDot | cffpro | cffproDot => simp only [updated, cffprUpdated_withFeMode]

end FeModes

section TrapStates

open Sys2Proof.Laws

/-- Settles O28: the trap keeps the updated state, and the updates do not depend on `FE_MODE`. -/
theorem trapStateIsTheCompletedStateAtTheSameCia :
    Obligations.TrapStateIsTheCompletedStateAtTheSameCia := by
  intro i s after c h
  rcases exec_eq_fault h with ⟨hf, -⟩ | ⟨hf, -⟩ | ⟨hf, hwf, hfp, -, hmode⟩
  · cases hf
  · cases hf
  · cases hf
    have hcompletes := exec_of_ignored (s := s.withFeMode .ignored) hwf hfp rfl
    refine ⟨updated_cia i s, updated_cia i s, hmode, ?_⟩
    rw [hcompletes, updated_withFeMode, ← updated_cia i s]
    rfl

end TrapStates

end Sys2Proof.Proofs
